-- ==== Sys2Proof/Word.lean ====
section
/-! DEFINITION. The words of PCD8544-SEQ: the 8-bit byte of the framebuffer and of the bus, and the
32-bit word of the operation port (rules R21, R23, R90). -/

namespace Sys2Proof

/-- A byte of the framebuffer, of DDRAM or of the bus (rules R23, R102). -/
abbrev Byte := BitVec 8

/-- A word of the operation port: OPW and RSLT (rule R21). -/
abbrev Word := BitVec 32

end Sys2Proof
end

