-- ==== Sys2Proof/Config.lean ====
section
/-! DEFINITION. What is fixed for the hardware (rules R6, R7) and the free values: constants without
a body, of which nothing is known, for what the spec leaves open. -/

namespace Sys2Proof.Config

/-- WIDTH (rule R6). -/
abbrev width : Nat := 84
/-- HEIGHT (rule R6). -/
abbrev height : Nat := 48
/-- BANDS (rule R6). -/
abbrev bands : Nat := 6
/-- FB_BYTES = WIDTH × BANDS (rules R6, R7). -/
abbrev fbBytes : Nat := 504
/-- TXDEPTH, the entries of the command buffer (rules R6, R36). -/
abbrev txDepth : Nat := 84
/-- T_RES_MIN = 100 microseconds (rule R6), counted in nanoseconds (DESIGN CHOICE, log 3). -/
abbrev tResMinNs : Nat := 100000

/-- What a framebuffer byte that is not listed reads as: zero, its value after NEW (rule R43). -/
abbrev fbUnlisted : Option Byte := some 0x00#8
/-- What a DDRAM byte that is not listed reads as: nothing known (rule R82, log 13). -/
abbrev ddramUnlisted : Option Byte := none

/-- The five pixel columns of one glyph, left to right, bit 0 on top (rule R203). -/
abbrev Glyph := Vector Byte 5

/-- The missing glyph: a solid block of 5 × 8 pixels (rule R204). -/
def solidBlock : Glyph := Vector.replicate 5 0xFF#8

/-- The code of newline (rule R205). -/
abbrev newlineCode : Byte := 0x0A#8

/-- FREE VALUE. The answer of the line environment to the n-th unscripted line action: true is ok
(rules R120, R121, R123; log 2). -/
opaque lineAnswer : Nat → Bool

/-- FREE VALUE. By how much an unscripted wait exceeds its least duration (rule R122; log 3). -/
opaque waitExcess : Nat → Nat

/-- FREE VALUE. How many whole bytes of a failed transfer reached the chip, before reduction to the
length of the burst (rule R121; log 8). -/
opaque bytesDelivered : Nat → Nat

/-- FREE VALUE. How many bits of one more byte a failed transfer shifted in (rule R121; log 8). -/
opaque bitsDelivered : Nat → Fin 8

/-- FREE VALUE. Whether stray bits of an earlier transfer still stand in the chip's shift register
when more bits arrive (rule R121; log 8). -/
opaque strayBitsKept : Nat → Bool

/-- FREE VALUE. Whether the chip saw its reset line low when the drive of that line failed
(rule R120: the level is unknown; log 7). -/
opaque resetSeen : Nat → Bool

/-- FREE VALUE. The row the chip's address counter takes from a SET_Y operand that is no row
(rule R143 gives the operand as 0 to 5; log 11). -/
opaque strayRow : BitVec 3 → Fin 6

/-- FREE VALUE. The column the chip's address counter takes from a SET_X operand that is no column
(rule R144 gives the operand as 0 to 83; log 11). -/
opaque strayColumn : BitVec 7 → Fin 84

/-- FREE VALUE. Whether the chip keeps DDRAM across power-down (rules R261, R291; log 23). -/
opaque chipKeepsDdram : Bool
/-- FREE VALUE. Whether the chip keeps its settings and its address counter across power-down
(rules R261, R291; log 23). -/
opaque chipKeepsSettings : Bool
/-- FREE VALUE. Whether the chip's display mode survives a visit to the extended instruction set
(rule R83; log 24). -/
opaque chipKeepsDisplay : Bool

/-- FREE VALUE. The display mode (D, E) of a chip that lost it across power-down (log 23). -/
opaque lapsedDisplay : Nat → Bool × Bool
/-- FREE VALUE. The address (X, Y) of a chip that lost it across power-down (log 23). -/
opaque lapsedAddress : Nat → Fin 84 × Fin 6
/-- FREE VALUE. The temperature coefficient of a chip that lost it across power-down (log 23). -/
opaque lapsedTc : Nat → BitVec 2
/-- FREE VALUE. The bias system of a chip that lost it across power-down (log 23). -/
opaque lapsedBias : Nat → BitVec 3
/-- FREE VALUE. The operating voltage setting of a chip that lost it across power-down (log 23). -/
opaque lapsedVop : Nat → BitVec 7
/-- FREE VALUE. The display mode (D, E) of a chip whose display mode the extended instruction set
suspended (log 24). -/
opaque suspendedDisplay : Nat → Bool × Bool

/-- FREE VALUE. GLYPH and GLYPH_DOMAIN, open parameters: each code of the domain with its glyph
(rule R203; log 14). -/
opaque font : List (Byte × Glyph)

end Sys2Proof.Config

namespace Sys2Proof

/-! ## ENC (rules R6, R40, R104) -/

/-- One row of ENC: the fixed bits of a command byte, and where its operand bits stand, the least
significant operand bit first. -/
structure EncRow where
  base : Byte
  bits : List Nat
  deriving DecidableEq, Repr

/-- ENC, the byte values of the seven chip commands, a parameter (rules R6, R40, R104): every
definition that assembles or reads a command byte takes it as an argument. -/
structure Enc where
  functionSet : EncRow
  displayControl : EncRow
  setY : EncRow
  setX : EncRow
  setTc : EncRow
  setBias : EncRow
  setVop : EncRow
  deriving DecidableEq, Repr

end Sys2Proof
end

