-- ==== Sys2Proof/Syntax.lean ====
section
/-! DEFINITION. The instructions: one constructor per row of the opcode table, sixteen operation
words of the host (rule R92) and eight bytes the block sends to the chip (rules R104, R148). -/

namespace Sys2Proof

/-- One row of the opcode table with its operands. -/
inductive Instr where
  /-- RESET (rule R162). -/
  | reset
  /-- INIT (rule R164). -/
  | init
  /-- SETCONTRAST a (rule R166). -/
  | setContrast (a : Byte)
  /-- SETBIAS a (rule R167). -/
  | setBias (a : Byte)
  /-- SETTC a (rule R168). -/
  | setTc (a : Byte)
  /-- PWRDOWN (rule R170). -/
  | pwrDown
  /-- PWRUP (rule R171). -/
  | pwrUp
  /-- SETPIXEL x, y, on (rule R182). -/
  | setPixel (x y : Byte) (lit : Bool)
  /-- CLRPIXEL x, y (rule R183). -/
  | clrPixel (x y : Byte)
  /-- GETPIXEL x, y (rule R184). -/
  | getPixel (x y : Byte)
  /-- CLEAR (rule R185). -/
  | clear
  /-- SETADDR band, col (rule R223). -/
  | setAddr (band col : Byte)
  /-- FLUSH (rule R226). -/
  | flush
  /-- WRCHAR c (rule R206). -/
  | wrChar (c : Byte)
  /-- GEOMETRY (rule R216). -/
  | geometry
  /-- DRAWPIXEL x, y, colour (rule R217). -/
  | drawPixel (x y : Byte) (lit : Bool)
  /-- FUNCTION_SET with PD, V and H (rule R141). -/
  | cmdFunctionSet (pd v h : Bool)
  /-- DISPLAY_CONTROL with D and E (rule R142). -/
  | cmdDisplayControl (d e : Bool)
  /-- SET_Y (rule R143). -/
  | cmdSetY (y : BitVec 3)
  /-- SET_X (rule R144). -/
  | cmdSetX (x : BitVec 7)
  /-- SET_TC (rule R145). -/
  | cmdSetTc (t : BitVec 2)
  /-- SET_BIAS (rule R146). -/
  | cmdSetBias (b : BitVec 3)
  /-- SET_VOP (rule R147). -/
  | cmdSetVop (v : BitVec 7)
  /-- The data byte (rule R148). -/
  | data (d : Byte)
  deriving DecidableEq, Repr

/-- Whether an instruction is an operation word of the host (rule R92) or a byte for the chip. -/
def Instr.isOperation : Instr → Bool
  | .reset | .init | .setContrast _ | .setBias _ | .setTc _ | .pwrDown | .pwrUp
  | .setPixel _ _ _ | .clrPixel _ _ | .getPixel _ _ | .clear | .setAddr _ _ | .flush
  | .wrChar _ | .geometry | .drawPixel _ _ _ => true
  | .cmdFunctionSet _ _ _ | .cmdDisplayControl _ _ | .cmdSetY _ | .cmdSetX _ | .cmdSetTc _
  | .cmdSetBias _ | .cmdSetVop _ | .data _ => false

end Sys2Proof
end

