-- ==== Sys2Proof/WellFormed.lean ====
section
/-! DEFINITION. Which instructions are well formed. The operand widths are in the types of Syntax;
what is left to check are the two address operands of the chip that are narrower than their field:
SET_Y takes a row 0 to 5 and SET_X a column 0 to 83 (rules R143, R144). Operands of operation words
are all legal as words: a coordinate or address out of range completes with OutOfBounds
(rules R64, R223). -/

namespace Sys2Proof

/-- The operand of a chip address command is in its range (rules R143, R144). -/
def Instr.wellFormed : Instr → Bool
  | .cmdSetY y => decide (y.toNat < Config.bands)
  | .cmdSetX x => decide (x.toNat < Config.width)
  | .reset | .init | .setContrast _ | .setBias _ | .setTc _ | .pwrDown | .pwrUp
  | .setPixel _ _ _ | .clrPixel _ _ | .getPixel _ _ | .clear | .setAddr _ _ | .flush
  | .wrChar _ | .geometry | .drawPixel _ _ _
  | .cmdFunctionSet _ _ _ | .cmdDisplayControl _ _ | .cmdSetTc _ | .cmdSetBias _ | .cmdSetVop _
  | .data _ => true

end Sys2Proof
end

