-- ==== Sys2Proof/Decode.lean ====
section
/-! DEFINITION. Decoding of operation words and of chip bytes, total and rejecting by name, and the
encoder, both written from the tables of rules R91 to R93 and R104. -/

namespace Sys2Proof

/-- Why a word or byte spells no instruction. -/
inductive DecodeError where
  /-- opc is not in the table of rule R92 (rule R96). -/
  | undefinedOpcode
  /-- A field the form does not use is not zero (rule R95). -/
  | nonzeroUnusedField
  /-- The chip recognises no command in this byte under its present H (rules R84, R104). -/
  | unrecognisedCommand
  deriving DecidableEq, Repr

/-! ## Operation words (rules R91 to R97) -/

/-- OPW[31:24] (rule R91). -/
def opcOf (w : Word) : Byte := w.extractLsb' 24 8
/-- OPW[23:16] (rule R91). -/
def aOf (w : Word) : Byte := w.extractLsb' 16 8
/-- OPW[15:8] (rule R91). -/
def bOf (w : Word) : Byte := w.extractLsb' 8 8
/-- OPW[7:0] (rule R91). -/
def cOf (w : Word) : Byte := w.extractLsb' 0 8

/-- Accept an instruction if the fields its form does not use are zero (rules R93, R95). -/
def ifZero (unused : Bool) (i : Instr) : Except DecodeError Instr :=
  if unused then .ok i else .error .nonzeroUnusedField

/-- Form Z: a, b and c must be zero (rule R93). -/
def formZ (w : Word) (i : Instr) : Except DecodeError Instr :=
  ifZero (aOf w == 0#8 && bOf w == 0#8 && cOf w == 0#8) i

/-- Form V: a is the value, b and c must be zero (rule R93). -/
def formV (w : Word) (f : Byte → Instr) : Except DecodeError Instr :=
  ifZero (bOf w == 0#8 && cOf w == 0#8) (f (aOf w))

/-- Forms XY and BC: a and b are operands, c must be zero (rule R93). -/
def formAB (w : Word) (f : Byte → Byte → Instr) : Except DecodeError Instr :=
  ifZero (cOf w == 0#8) (f (aOf w) (bOf w))

/-- Form XYC: a and b are operands, c[0] is the third, c[7:1] must be zero (rule R93). -/
def formXYC (w : Word) (f : Byte → Byte → Bool → Instr) : Except DecodeError Instr :=
  ifZero ((cOf w).extractLsb' 1 7 == 0#7) (f (aOf w) (bOf w) ((cOf w).getLsbD 0))

/-- Decode an operation word; the decoder reads no state (rules R92, R97). -/
def decodeOpw (w : Word) : Except DecodeError Instr :=
  match (opcOf w).toNat with
  | 0x01 => formZ w .reset
  | 0x02 => formZ w .init
  | 0x03 => formV w .setContrast
  | 0x04 => formV w .setBias
  | 0x05 => formV w .setTc
  | 0x06 => formZ w .pwrDown
  | 0x07 => formZ w .pwrUp
  | 0x10 => formXYC w .setPixel
  | 0x11 => formAB w .clrPixel
  | 0x12 => formAB w .getPixel
  | 0x13 => formZ w .clear
  | 0x14 => formAB w .setAddr
  | 0x15 => formZ w .flush
  | 0x20 => formV w .wrChar
  | 0x28 => formZ w .geometry
  | 0x29 => formXYC w .drawPixel
  | _ => .error .undefinedOpcode

/-! ## ENC: assembling and reading a command byte (rules R40, R104, R107) -/

/-- The operand bits at their places, the least significant first. -/
def placeBits : List Nat → Nat → Byte
  | [], _ => 0#8
  | p :: ps, v => (if v % 2 = 1 then 1#8 <<< p else 0#8) ||| placeBits ps (v / 2)

/-- The operand read from its places. -/
def gatherBits : List Nat → Byte → Nat
  | [], _ => 0
  | p :: ps, b => (if b.getLsbD p then 1 else 0) + 2 * gatherBits ps b

/-- All the places of operand bits. -/
def maskBits : List Nat → Byte
  | [] => 0#8
  | p :: ps => 1#8 <<< p ||| maskBits ps

/-- A command byte: the fixed bits with the operand. -/
def EncRow.byte (r : EncRow) (v : Nat) : Byte := r.base ||| placeBits r.bits v

/-- Whether a byte has the fixed bits of a row. -/
def EncRow.spells (r : EncRow) (b : Byte) : Bool := b &&& ~~~(maskBits r.bits) == r.base

/-- The operand a byte carries. -/
def EncRow.operand (r : EncRow) (b : Byte) : Nat := gatherBits r.bits b

/-- A row for an n-bit operand: n different places in the byte, none of them a set fixed bit ("no
operand bit ever overlaps an opcode bit", rule R107). -/
def EncRow.wf (r : EncRow) (n : Nat) : Bool :=
  decide (r.bits.length = n) && decide r.bits.Nodup && r.bits.all (fun p => decide (p < 8)) &&
    r.base &&& maskBits r.bits == 0#8

/-- Two rows differ in a bit that is fixed in both. -/
def EncRow.apart (r q : EncRow) : Bool :=
  (r.base ^^^ q.base) &&& ~~~(maskBits r.bits ||| maskBits q.bits) != 0#8

/-- What makes ENC a code: every row well formed, and the rows recognised under the same H apart
(rules R84, R104, R105). -/
def Enc.wf (e : Enc) : Bool :=
  e.functionSet.wf 3 && e.displayControl.wf 2 && e.setY.wf 3 && e.setX.wf 7 && e.setTc.wf 2 &&
    e.setBias.wf 3 && e.setVop.wf 7 &&
    [e.displayControl, e.setY, e.setX, e.setTc, e.setBias, e.setVop].all e.functionSet.apart &&
    [e.setY, e.setX].all e.displayControl.apart && e.setY.apart e.setX &&
    [e.setBias, e.setVop].all e.setTc.apart && e.setBias.apart e.setVop

/-- The table of rule R104 (log 16). -/
def Enc.datasheet : Enc where
  functionSet := { base := 0x20#8, bits := [0, 1, 2] }
  displayControl := { base := 0x08#8, bits := [0, 2] }
  setY := { base := 0x40#8, bits := [0, 1, 2] }
  setX := { base := 0x80#8, bits := [0, 1, 2, 3, 4, 5, 6] }
  setTc := { base := 0x04#8, bits := [0, 1] }
  setBias := { base := 0x10#8, bits := [0, 1, 2] }
  setVop := { base := 0x80#8, bits := [0, 1, 2, 3, 4, 5, 6] }

/-- FS(pd, h), its operand PD V H (rules R104, R107). -/
def byteFS (e : Enc) (pd v h : Bool) : Byte :=
  e.functionSet.byte (4 * pd.toNat + 2 * v.toNat + h.toNat)
/-- DISP, its operand D E (rules R104, R107). -/
def byteDISP (e : Enc) (d k : Bool) : Byte := e.displayControl.byte (2 * d.toNat + k.toNat)
/-- SETY(band) (rules R104, R107). -/
def byteSETY (e : Enc) (y : BitVec 3) : Byte := e.setY.byte y.toNat
/-- SETX(col) (rules R104, R107). -/
def byteSETX (e : Enc) (x : BitVec 7) : Byte := e.setX.byte x.toNat
/-- TC(t) (rules R104, R107). -/
def byteTC (e : Enc) (t : BitVec 2) : Byte := e.setTc.byte t.toNat
/-- BIAS(s) (rules R104, R107). -/
def byteBIAS (e : Enc) (b : BitVec 3) : Byte := e.setBias.byte b.toNat
/-- VOP(v) (rules R104, R107). -/
def byteVOP (e : Enc) (v : BitVec 7) : Byte := e.setVop.byte v.toNat

/-! ## Chip bytes (rules R84, R102, R104) -/

/-- FUNCTION_SET with the operand PD V H. -/
def functionSetOf (v : Nat) : Instr := .cmdFunctionSet (v.testBit 2) (v.testBit 1) (v.testBit 0)

/-- DISPLAY_CONTROL with the operand D E. -/
def displayControlOf (v : Nat) : Instr := .cmdDisplayControl (v.testBit 1) (v.testBit 0)

/-- What the chip reads in a command byte under its extended-instruction-set bit h
(rules R84, R104, R105). -/
def decodeCmd (e : Enc) (h : Bool) (b : Byte) : Except DecodeError Instr :=
  if e.functionSet.spells b then .ok (functionSetOf (e.functionSet.operand b))
  else if h then
    if e.setTc.spells b then .ok (.cmdSetTc (BitVec.ofNat 2 (e.setTc.operand b)))
    else if e.setBias.spells b then .ok (.cmdSetBias (BitVec.ofNat 3 (e.setBias.operand b)))
    else if e.setVop.spells b then .ok (.cmdSetVop (BitVec.ofNat 7 (e.setVop.operand b)))
    else .error .unrecognisedCommand
  else
    if e.displayControl.spells b then .ok (displayControlOf (e.displayControl.operand b))
    else if e.setY.spells b then .ok (.cmdSetY (BitVec.ofNat 3 (e.setY.operand b)))
    else if e.setX.spells b then .ok (.cmdSetX (BitVec.ofNat 7 (e.setX.operand b)))
    else .error .unrecognisedCommand

/-- What the chip reads in a byte: a data byte when the mode line is high, a command under h when it
is low (rules R79, R102). -/
def decodeChip (e : Enc) (dc h : Bool) (b : Byte) : Except DecodeError Instr :=
  if dc then .ok (.data b) else decodeCmd e h b

/-! ## The encoder -/

/-- The word of an operation: opc ++ a ++ b ++ c (rule R91). -/
def opWord (opc a b c : Byte) : Word := ((opc ++ a : BitVec 16) ++ (b ++ c : BitVec 16) : BitVec 32)

/-- A one-bit operand in bit 0 of field c (rule R93). -/
def bitByte (v : Bool) : Byte := if v then 0x01#8 else 0x00#8

/-- The three kinds of code: an operation word, a byte sent with the mode line low, a byte sent with
the mode line high (rules R90, R102). -/
inductive Code where
  /-- A word of the operation port. -/
  | opw (w : Word)
  /-- A command byte: mode line low. -/
  | cmd (b : Byte)
  /-- A data byte: mode line high. -/
  | dat (b : Byte)
  deriving DecidableEq, Repr

/-- The code of an instruction, chip commands under ENC (rules R91 to R93, R104, R108). -/
def encode (e : Enc) : Instr → Code
  | .reset => .opw (opWord 0x01#8 0#8 0#8 0#8)
  | .init => .opw (opWord 0x02#8 0#8 0#8 0#8)
  | .setContrast a => .opw (opWord 0x03#8 a 0#8 0#8)
  | .setBias a => .opw (opWord 0x04#8 a 0#8 0#8)
  | .setTc a => .opw (opWord 0x05#8 a 0#8 0#8)
  | .pwrDown => .opw (opWord 0x06#8 0#8 0#8 0#8)
  | .pwrUp => .opw (opWord 0x07#8 0#8 0#8 0#8)
  | .setPixel x y v => .opw (opWord 0x10#8 x y (bitByte v))
  | .clrPixel x y => .opw (opWord 0x11#8 x y 0#8)
  | .getPixel x y => .opw (opWord 0x12#8 x y 0#8)
  | .clear => .opw (opWord 0x13#8 0#8 0#8 0#8)
  | .setAddr b c => .opw (opWord 0x14#8 b c 0#8)
  | .flush => .opw (opWord 0x15#8 0#8 0#8 0#8)
  | .wrChar c => .opw (opWord 0x20#8 c 0#8 0#8)
  | .geometry => .opw (opWord 0x28#8 0#8 0#8 0#8)
  | .drawPixel x y v => .opw (opWord 0x29#8 x y (bitByte v))
  | .cmdFunctionSet pd v h => .cmd (byteFS e pd v h)
  | .cmdDisplayControl d k => .cmd (byteDISP e d k)
  | .cmdSetY y => .cmd (byteSETY e y)
  | .cmdSetX x => .cmd (byteSETX e x)
  | .cmdSetTc t => .cmd (byteTC e t)
  | .cmdSetBias b => .cmd (byteBIAS e b)
  | .cmdSetVop v => .cmd (byteVOP e v)
  | .data d => .dat d

/-- Decode a code, chip bytes under ENC and the extended-instruction-set bit h of the chip. -/
def decode (e : Enc) (h : Bool) : Code → Except DecodeError Instr
  | .opw w => decodeOpw w
  | .cmd b => decodeChip e false h b
  | .dat b => decodeChip e true h b

/-- Under which settings of H an instruction is recognised: the chip commands as the column
"recognised when" of rule R104 says, everything else under both. -/
def recognised (h : Bool) : Instr → Bool
  | .cmdDisplayControl _ _ | .cmdSetY _ | .cmdSetX _ => !h
  | .cmdSetTc _ | .cmdSetBias _ | .cmdSetVop _ => h
  | .reset | .init | .setContrast _ | .setBias _ | .setTc _ | .pwrDown | .pwrUp
  | .setPixel _ _ _ | .clrPixel _ _ | .getPixel _ _ | .clear | .setAddr _ _ | .flush
  | .wrChar _ | .geometry | .drawPixel _ _ _ | .cmdFunctionSet _ _ _ | .data _ => true

/-! ## The opcode table's view -/

/-- What an 8-bit row of the opcode table stands for when nothing is said of the chip's mode, with ENC
as rule R104 tables it: the command recognised under H = 0, else the one under H = 1, else a data
byte. SET_X and SET_VOP share their bits and this reads SET_X (DESIGN CHOICE, log 18). -/
def decodeBareByte (b : Byte) : Instr :=
  match decodeChip Enc.datasheet false false b with
  | .ok i => i
  | .error _ =>
    match decodeChip Enc.datasheet false true b with
    | .ok i => i
    | .error _ => .data b

/-- The instruction the decoder reads from an opcode-table row's bits. -/
def decodeTableWord (nbits w : Nat) : Option Instr :=
  if nbits = 32 then (decodeOpw (BitVec.ofNat 32 w)).toOption
  else if nbits = 8 then some (decodeBareByte (BitVec.ofNat 8 w))
  else none

end Sys2Proof
end

