-- ==== Sys2Proof/Machine/State.lean ====
section
/-! DEFINITION. The state of PCD8544-SEQ (rules R20 to R44), of the receiver as the block assumes it
(rules R78 to R84) and of the inputs of the other agents (rule R8), as plain data. -/

namespace Sys2Proof.Machine

/-! ## The block -/

/-- The controller state (rule R31). -/
inductive CtrlState where
  | uninitialized
  | inReset
  | poweredDown
  | extendedConfig
  | basic
  deriving DecidableEq, Repr

/-- The addressing mode (rule R29). -/
inductive AddrMode where
  | horizontal
  | vertical
  deriving DecidableEq, Repr

/-- The display mode (rule R30). -/
inductive DispMode where
  | blank
  | allOn
  | normal
  | inverse
  deriving DecidableEq, Repr

/-- An address (column, band) of DDRAM: the cursor mirror CUR (rule R24) and the chip's address
counter (X, Y) (rule R79). -/
structure Cursor where
  col : Fin 84
  band : Fin 6
  deriving DecidableEq, Repr

/-- The configuration CFG (rules R25 to R30). -/
structure Cfg where
  contrast : BitVec 7
  tc : BitVec 2
  bias : BitVec 3
  addrmode : AddrMode
  dispmode : DispMode
  deriving DecidableEq, Repr

/-- The level of a line; unknown is U (rule R35). -/
inductive Level where
  | low
  | high
  | unknown
  deriving DecidableEq, Repr

/-- The output pins (rule R120). -/
inductive Pin where
  | res
  | dc
  | cs
  deriving DecidableEq, Repr

/-- The line latches RESL, DCL and CSL (rule R35). -/
structure Lines where
  resl : Level
  dcl : Level
  csl : Level
  deriving DecidableEq, Repr

/-- An element of the line trace LT (rule R44). -/
inductive LineEvent where
  /-- RES(l), DC(l), CS(l): a successful PinSet. -/
  | pin (p : Pin) (l : Bool)
  /-- RESX, DCX, CSX: a failed PinSet. -/
  | pinFail (p : Pin)
  /-- TX(dc, bytes): a successful BusXfer. -/
  | tx (dc : Level) (bytes : List Byte)
  /-- TXFAIL(dc, bytes): a failed BusXfer; it names the burst attempted. -/
  | txFail (dc : Level) (bytes : List Byte)
  /-- WAIT(t), t in nanoseconds. -/
  | wait (t : Nat)
  deriving DecidableEq, Repr

/-- The error values (rule R240). -/
inductive ErrorCode where
  | busError
  | pinError
  | outOfBounds
  | invalidState
  | constructionError
  deriving DecidableEq, Repr

/-- The text cursor of the Text Renderer, in character cells (rules R39, R202). -/
structure TextCursor where
  tcol : Fin 14
  trow : Fin 6
  deriving DecidableEq, Repr

/-- Memory: cells (address, byte) with strictly rising addresses, none equal to what an unlisted
address reads as. -/
abbrev Memory := List Host.Cell

/-! ## Parameters, environment and receiver -/

/-- Granularity of the dirty flags (parameter DIRTY_GRANULE, rules R6, R228). -/
inductive DirtyGranule where
  | band
  | whole
  deriving DecidableEq, Repr

/-- The parameters of the step relation (rules R6, R40); no operation changes them (log 15). -/
structure Params where
  hasCsPin : Bool
  csActive : Bool
  flushAll : Bool
  resetDirty : Bool
  granule : DirtyGranule
  tResMin : Nat
  tResPost : Nat
  enc : Enc
  font : List (Byte × Config.Glyph)
  deriving DecidableEq, Repr

/-- The values rule R6 fixes; the glyph table is open (log 14). -/
def Params.default : Params where
  hasCsPin := true
  csActive := false
  flushAll := false
  resetDirty := true
  granule := .band
  tResMin := Config.tResMinNs
  tResPost := 0
  enc := Enc.datasheet
  font := Config.font

/-- The draws of the line environment and of time (rules R8, R40): scripted ones first, then the free
values of Config at a counter of their own (logs 2, 3, 7, 8). -/
structure Env where
  answers : List Bool
  waits : List Nat
  answersDrawn : Nat
  waitsDrawn : Nat
  chipDrawn : Nat
  deriving DecidableEq, Repr

/-- What a chip of the kind in use keeps, on which the spec is silent or gives two accounts: DDRAM and
the settings across power-down (rules R261, R291; log 23), the display mode across a visit to the
extended instruction set (rule R83; log 24). -/
structure Retention where
  ddram : Bool
  settings : Bool
  display : Bool
  deriving DecidableEq, Repr

/-- The receiver as the block assumes it (rules R79 to R84, R141 to R148; log 6). `held` are the bits
of an unfinished byte in its shift register, oldest first (rule R121; log 8); `kind` says what it
keeps, and nothing changes it; `draws` counts the free values used about it. -/
structure Chip where
  pd : Bool
  v : AddrMode
  h : Bool
  disp : DispMode
  addr : Cursor
  tc : BitVec 2
  bias : BitVec 3
  vop : BitVec 7
  ddram : Memory
  held : List Bool
  kind : Retention
  draws : Nat
  deriving DecidableEq, Repr

/-- What the chip keeps: free (logs 23, 24). -/
def Retention.free : Retention where
  ddram := Config.chipKeepsDdram
  settings := Config.chipKeepsSettings
  display := Config.chipKeepsDisplay

/-- The receiver at power-on, with the values of a hardware reset (rule R82): DDRAM contents are
undefined, so no byte of it is listed (logs 6, 7). -/
def Chip.afterReset : Chip where
  pd := true
  v := .horizontal
  h := false
  disp := .blank
  addr := { col := 0, band := 0 }
  tc := 0
  bias := 0
  vop := 0
  ddram := []
  held := []
  kind := Retention.free
  draws := 0

/-- What reaches the chip over the lines (log 9). -/
inductive ChipInput where
  /-- The reset line was driven low. -/
  | resetPulse
  /-- A byte was shifted in while the chip was selected, with the mode line at dc. -/
  | byte (dc : Bool) (b : Byte)
  /-- Only the first k bits of a byte were shifted in (rule R121; log 8). -/
  | part (dc : Bool) (k : Fin 8) (b : Byte)
  deriving DecidableEq, Repr

/-! ## The state -/

/-- The whole state: the block (rule R20), the text cursor (rule R39), the parameters (rule R40), and
the inputs and the receiver of rule R8. -/
structure State where
  params : Params
  fb : Memory
  cur : Cursor
  cfg : Cfg
  ctrl : CtrlState
  dirty : Vector Bool 6
  opw : Word
  rslt : Word
  lines : Lines
  txb : List (Bool × Byte)
  upc : Option Nat
  lt : List LineEvent
  text : TextCursor
  env : Env
  chip : Chip
  wire : List ChipInput
  hostq : List Word
  deriving DecidableEq, Repr

/-- The configuration the model gives to NEW: the spec leaves it to the host, and these are the
illustrative values of its examples (DESIGN CHOICE, log 4). -/
def Cfg.illustrative : Cfg where
  contrast := 0x38#7
  tc := 0#2
  bias := 4#3
  addrmode := .horizontal
  dispmode := .normal

/-- The state after NEW has succeeded (rules R43, R160, R271) with a configuration. -/
def State.initial (p : Params) (c : Cfg) : State where
  params := p
  fb := []
  cur := { col := 0, band := 0 }
  cfg := c
  ctrl := .uninitialized
  dirty := Vector.replicate 6 true
  opw := 0#32
  rslt := 0#32
  lines := { resl := .unknown, dcl := .unknown, csl := .unknown }
  txb := []
  upc := none
  lt := []
  text := { tcol := 0, trow := 0 }
  env := { answers := [], waits := [], answersDrawn := 0, waitsDrawn := 0, chipDrawn := 0 }
  chip := Chip.afterReset
  wire := []
  hostq := []

/-- The machine right after power-on (rule R270: NEW is the block's reset). -/
def State.reset : State := State.initial Params.default Cfg.illustrative

/-! ## Updates, one per field -/

def State.setFb (s : State) (m : Memory) : State := { s with fb := m }
def State.setCur (s : State) (c : Cursor) : State := { s with cur := c }
def State.setCfg (s : State) (c : Cfg) : State := { s with cfg := c }
def State.setCtrl (s : State) (c : CtrlState) : State := { s with ctrl := c }
def State.setDirty (s : State) (d : Vector Bool 6) : State := { s with dirty := d }
def State.setOpw (s : State) (w : Word) : State := { s with opw := w }
def State.setRslt (s : State) (w : Word) : State := { s with rslt := w }
def State.setLines (s : State) (l : Lines) : State := { s with lines := l }
def State.setTxb (s : State) (t : List (Bool × Byte)) : State := { s with txb := t }
def State.setUpc (s : State) (u : Option Nat) : State := { s with upc := u }
/-- Append one element to the line trace. -/
def State.log (s : State) (e : LineEvent) : State := { s with lt := s.lt ++ [e] }
def State.setText (s : State) (t : TextCursor) : State := { s with text := t }
def State.setEnv (s : State) (e : Env) : State := { s with env := e }
def State.setChip (s : State) (c : Chip) : State := { s with chip := c }
def State.setWire (s : State) (w : List ChipInput) : State := { s with wire := w }
/-- Append what reaches the chip to what it has yet to take. -/
def State.sendWire (s : State) (w : List ChipInput) : State := { s with wire := s.wire ++ w }
def State.setHostq (s : State) (q : List Word) : State := { s with hostq := q }

/-! ## How a step can stop -/

/-- Faults. -/
inductive Fault where
  /-- ConstructionError (rule R161): raised by `powerOn` when pin or bus setup fails, and by no step;
  no block exists after it. Safe: the machine has no state to go on from. -/
  | constructionError
  deriving DecidableEq, Repr

/-- Refusals. -/
inductive Refusal where
  /-- An instruction without a meaning in the model. Safe: the run stops. -/
  | notModelled (mnemonic : String)
  /-- Raised by step: the operation word's opc is not in the table (rule R96: "A model refuses such a
  word at its decoder and gives it no meaning"). Safe: the run stops. -/
  | undefinedOpcode
  /-- Raised by step: the operation word has a nonzero unused field (rule R95). Safe: the run stops. -/
  | nonzeroUnusedField
  deriving DecidableEq, Repr

end Sys2Proof.Machine
end

