-- ==== Sys2Proof/Machine/Operands.lean ====
section
/-! DEFINITION. Operand forms: the reduction of narrow operands (rule R94), the range checks
(rules R64, R223), the pixel-to-byte mapper (rules R62, R63), and the codings of the mode operands
(rules R29, R30). -/

namespace Sys2Proof.Machine

/-! ## Reduced operands (rule R94) -/

/-- The contrast value is a[6:0]. -/
def contrastOf (a : Byte) : BitVec 7 := a.extractLsb' 0 7
/-- The bias value is a[2:0]. -/
def biasOf (a : Byte) : BitVec 3 := a.extractLsb' 0 3
/-- The temperature coefficient is a[1:0]. -/
def tcOf (a : Byte) : BitVec 2 := a.extractLsb' 0 2

/-! ## Ranges -/

/-- A coordinate pair is in range when x < 84 and y < 48, at full field width (rule R64). -/
def inRange (x y : Byte) : Bool := decide (x.toNat < Config.width) && decide (y.toNat < Config.height)

/-- A DDRAM address is in range when band < 6 and col < 84, at full field width (rule R223, A1). -/
def addrInRange (band col : Byte) : Bool :=
  decide (band.toNat < Config.bands) && decide (col.toNat < Config.width)

/-- The address (col, band) of two operands in range. -/
def cursorOf (band col : Byte) : Cursor where
  col := Fin.ofNat 84 col.toNat
  band := Fin.ofNat 6 band.toNat

/-! ## The mapper (rules R61 to R63) -/

/-- idx = (y / 8) × 84 + x. -/
def mapIdx (x y : Byte) : Nat := y.toNat / 8 * Config.width + x.toNat
/-- bit = y mod 8. -/
def mapBit (y : Byte) : Nat := y.toNat % 8
/-- map(x, y) = (idx, bit) (rule R62). -/
def mapPixel (x y : Byte) : Nat × Nat := (mapIdx x y, mapBit y)
/-- The band y / 8 of a pixel. -/
def bandOf (y : Byte) : Fin 6 := Fin.ofNat 6 (y.toNat / 8)
/-- unmap(idx, bit) = (idx mod 84, (idx / 84) × 8 + bit) (rule R63). -/
def unmapPixel (idx bit : Nat) : Nat × Nat := (idx % Config.width, idx / Config.width * 8 + bit)
/-- The framebuffer index of column col of a band (rule R61); also the linear DDRAM address
Y × 84 + X (rule R70). -/
def bandIndex (band : Fin 6) (col : Nat) : Nat := band.val * Config.width + col

/-- One pixel of a byte written: bit set or cleared, the other seven unchanged (rules R67, R182). -/
def withBit (b : Byte) (bit : Nat) (v : Bool) : Byte :=
  if v then b ||| 1#8 <<< bit else b &&& ~~~(1#8 <<< bit)

/-! ## Codings of the modes -/

/-- D, the more significant bit of the display mode (rule R30). -/
def dispD : DispMode → Bool
  | .blank => false
  | .allOn => false
  | .normal => true
  | .inverse => true

/-- E, the less significant bit of the display mode (rule R30). -/
def dispE : DispMode → Bool
  | .blank => false
  | .allOn => true
  | .normal => false
  | .inverse => true

/-- The display mode of a pair (D, E) (rules R30, R104). -/
def dispOf (d e : Bool) : DispMode :=
  match d, e with
  | false, false => .blank
  | false, true => .allOn
  | true, false => .normal
  | true, true => .inverse

/-- The V bit of an addressing mode: 0 horizontal, 1 vertical (rule R29). -/
def vOf : AddrMode → Bool
  | .horizontal => false
  | .vertical => true

/-- The addressing mode of a V bit (rule R29). -/
def addrModeOf (v : Bool) : AddrMode := if v then .vertical else .horizontal

/-- The 3-bit coding of STATE in the source's listing order (rule R31). -/
def ctrlCode : CtrlState → BitVec 3
  | .uninitialized => 0
  | .inReset => 1
  | .poweredDown => 2
  | .extendedConfig => 3
  | .basic => 4

end Sys2Proof.Machine
end

