-- ==== Sys2Proof/Machine/Flags.lean ====
section
/-! DEFINITION. The dirty flags (rules R33, R186, R228) and the status of a completion
(rules R34, R100, R101, R240). -/

namespace Sys2Proof.Machine

/-! ## Dirty flags

With DIRTY_GRANULE = whole the six flags are one (rule R228): it is read at index 0, and every
write of it writes all six. -/

/-- The flag FLUSH tests for a band (rule R226, L1; rule R228). -/
def isDirty (s : State) (b : Fin 6) : Bool :=
  match s.params.granule with
  | .band => s.dirty[b]
  | .whole => s.dirty[0]

/-- A write to a band sets its flag (rules R33, R186). -/
def markDirty (s : State) (b : Fin 6) : State :=
  match s.params.granule with
  | .band => s.setDirty (s.dirty.set b true)
  | .whole => s.setDirty (Vector.replicate 6 true)

/-- Every flag takes one value (rules R162, R185). -/
def setAllDirty (s : State) (v : Bool) : State := s.setDirty (Vector.replicate 6 v)

/-- The flag of a band that has been sent is cleared (rule R226, L4); the one flag of the whole
buffer is cleared only after band 5 (rule R228). -/
def clearDirty (s : State) (b : Fin 6) : State :=
  match s.params.granule with
  | .band => s.setDirty (s.dirty.set b false)
  | .whole => if b = 5 then s.setDirty (Vector.replicate 6 false) else s

/-! ## The result word -/

/-- The status code of an error (rule R240). -/
def ErrorCode.status : ErrorCode → Byte
  | .busError => 1
  | .pinError => 2
  | .outOfBounds => 3
  | .invalidState => 4
  | .constructionError => 5

/-- Status Ok (rule R240). -/
def statusOk : Byte := 0

/-- RSLT: zero[31:24], val[23:8], status[7:0] (rule R100). -/
def resultWord (val : BitVec 16) (status : Byte) : Word :=
  ((0#8 ++ val : BitVec 24) ++ status : BitVec 32)

/-- The status field of a result word (rule R100). -/
def resultStatus (w : Word) : Byte := w.extractLsb' 0 8
/-- The value field of a result word (rule R100). -/
def resultVal (w : Word) : BitVec 16 := w.extractLsb' 8 16

/-- GEOMETRY's value: val[15:8] = width, val[7:0] = height (rules R101, R216). -/
def geometryVal : BitVec 16 := BitVec.ofNat 8 Config.width ++ BitVec.ofNat 8 Config.height

/-- GETPIXEL's value: 1 for on, 0 for off (rule R101). -/
def pixelVal (v : Bool) : BitVec 16 := if v then 1#16 else 0#16

end Sys2Proof.Machine
end

