-- ==== Sys2Proof/Machine/Ops.lean ====
section
/-! DEFINITION. The shared operations: memory, draws of the environment, line actions
(rules R120 to R124), the frame (rules R125 to R130), the flow of an operation with `raise` and
`return` (rules R11, R247, R248: the block's only form of an exception and of the return from one),
the cursor advance (rule R221) and pixel access. -/

namespace Sys2Proof.Machine

/-! ## Memory -/

/-- The byte listed at an address. -/
def Memory.byteAt : Memory → Nat → Option Byte
  | [], _ => none
  | (k, v) :: rest, a => if k = a then some v else Memory.byteAt rest a

/-- List a byte at an address. -/
def Memory.put : Memory → Nat → Byte → Memory
  | [], a, v => [(a, v)]
  | (k, w) :: rest, a, v =>
    if a < k then (a, v) :: (k, w) :: rest
    else if a = k then (a, v) :: rest
    else (k, w) :: Memory.put rest a v

/-- Unlist an address. -/
def Memory.drop : Memory → Nat → Memory
  | [], _ => []
  | (k, w) :: rest, a => if k = a then Memory.drop rest a else (k, w) :: Memory.drop rest a

/-- Read: the listed byte, or what an unlisted address reads as. -/
def Memory.read (unlisted : Option Byte) (m : Memory) (a : Nat) : Option Byte :=
  match Memory.byteAt m a with
  | some v => some v
  | none => unlisted

/-- Write: the byte is listed unless it equals what an unlisted address reads as. -/
def Memory.write (unlisted : Option Byte) (m : Memory) (a : Nat) (v : Byte) : Memory :=
  if unlisted = some v then Memory.drop m a else Memory.put m a v

/-- Addresses strictly rising. -/
def Memory.rising : Memory → Bool
  | [] => true
  | (k, _) :: rest => rest.all (fun c => decide (k < c.1)) && Memory.rising rest

/-- The canonical form: strictly rising addresses inside [0, 504), no entry equal to what an unlisted
address reads as. -/
def Memory.wf (unlisted : Option Byte) (m : Memory) : Bool :=
  Memory.rising m && m.all (fun c => decide (c.1 < Config.fbBytes) && decide (unlisted ≠ some c.2))

/-- FB[i] (rules R11, R23). -/
def fbRead (m : Memory) (i : Nat) : Byte := (Memory.read Config.fbUnlisted m i).getD 0#8
/-- FB[i] <- v (rule R11). -/
def fbWrite (m : Memory) (i : Nat) (v : Byte) : Memory := Memory.write Config.fbUnlisted m i v
/-- A byte of DDRAM at a linear address, none when nothing is known of it (rules R79, R82). -/
def ddramRead (m : Memory) (i : Nat) : Option Byte := Memory.read Config.ddramUnlisted m i
/-- A byte written to DDRAM (rule R79). -/
def ddramWrite (m : Memory) (i : Nat) (v : Byte) : Memory := Memory.write Config.ddramUnlisted m i v

/-- The pixel (x, y): bit `bit` of FB[idx] (rule R62). -/
def pixelAt (m : Memory) (x y : Byte) : Bool := (fbRead m (mapIdx x y)).getLsbD (mapBit y)

/-- One pixel written (rule R182, X2; rule R183, Y2). -/
def drawBit (x y : Byte) (v : Bool) (s : State) : State :=
  s.setFb (fbWrite s.fb (mapIdx x y) (withBit (fbRead s.fb (mapIdx x y)) (mapBit y) v))

/-- One pixel written and its band marked (rule R182, X1 to X3; rule R183, Y1 to Y3). -/
def writePixel (x y : Byte) (v : Bool) (s : State) : State := markDirty (drawBit x y v s) (bandOf y)

/-- The 84 bytes of a band in ascending index (rules R66, R226). -/
def bandBytes (m : Memory) (b : Fin 6) : List Byte :=
  (List.range 84).map (fun k => fbRead m (bandIndex b k))

/-! ## The cursor advance (rules R80, R221) -/

/-- adv, one step. -/
def advance (mode : AddrMode) (c : Cursor) : Cursor :=
  match mode with
  | .horizontal =>
    if c.col < 83 then { c with col := c.col + 1 }
    else if c.band < 5 then { col := 0, band := c.band + 1 }
    else { col := 0, band := 0 }
  | .vertical =>
    if c.band < 5 then { c with band := c.band + 1 }
    else if c.col < 83 then { col := c.col + 1, band := 0 }
    else { col := 0, band := 0 }

/-- adv applied n times. -/
def advanceN (mode : AddrMode) : Nat → Cursor → Cursor
  | 0, c => c
  | n + 1, c => advanceN mode n (advance mode c)

/-! ## Draws (rules R8, R40, R123) -/

/-- The environment's next answer to a line action, true for ok: the scripted one, or a free value
(log 2). -/
def nextAnswer (e : Env) : Bool × Env :=
  match e.answers with
  | a :: rest => (a, { e with answers := rest })
  | [] => (Config.lineAnswer e.answersDrawn, { e with answersDrawn := e.answersDrawn + 1 })

/-- By how much the next wait exceeds its least duration: the scripted excess, or a free value
(log 3). -/
def nextExcess (e : Env) : Nat × Env :=
  match e.waits with
  | t :: rest => (t, { e with waits := rest })
  | [] => (Config.waitExcess e.waitsDrawn, { e with waitsDrawn := e.waitsDrawn + 1 })

/-- The answer to a line action. -/
def drawAnswer (s : State) : Bool × State := ((nextAnswer s.env).1, s.setEnv (nextAnswer s.env).2)

/-- One more free value about what the chip saw has been used (logs 7, 8). -/
def countChipDraw (s : State) : State := s.setEnv { s.env with chipDrawn := s.env.chipDrawn + 1 }

/-! ## Line actions -/

/-- The level of a driven line. -/
def levelOf (l : Bool) : Level := if l then .high else .low

/-- Set the latch of a pin (rule R120). -/
def setLatch (p : Pin) (l : Level) (s : State) : State :=
  match p with
  | .res => s.setLines { s.lines with resl := l }
  | .dc => s.setLines { s.lines with dcl := l }
  | .cs => s.setLines { s.lines with csl := l }

/-- What the chip sees of a driven pin: a reset when the reset line goes low. -/
def chipSeesDrive (p : Pin) (l : Bool) (s : State) : State :=
  match p with
  | .res => if l then s else s.sendWire [.resetPulse]
  | .dc => s
  | .cs => s

/-- What the chip sees of a pin whose drive failed: perhaps a reset, if it is the reset line, since
its level is unknown (log 7). -/
def chipSeesFailedDrive (p : Pin) (s : State) : State :=
  match p with
  | .res =>
    (countChipDraw s).sendWire (if Config.resetSeen s.env.chipDrawn then [.resetPulse] else [])
  | .dc => s
  | .cs => s

/-- PinSet(pin, level) (rule R120). -/
def pinSet (p : Pin) (l : Bool) (s : State) : Bool × State :=
  match drawAnswer s with
  | (true, s) => (true, chipSeesDrive p l ((setLatch p (levelOf l) s).log (.pin p l)))
  | (false, s) => (false, chipSeesFailedDrive p ((setLatch p .unknown s).log (.pinFail p)))

/-- Whether the chip is selected: chip-select at its active level, or driven by the bus (rules R6,
R79). -/
def chipSelected (s : State) : Bool :=
  !s.params.hasCsPin || decide (s.lines.csl = levelOf s.params.csActive)

/-- Entries of the command buffer as the chip receives them, if it is selected (rule R79: "The chip
ignores the bus while chip-select is not asserted"). -/
def deliver (entries : List (Bool × Byte)) (s : State) : State :=
  if chipSelected s then s.sendWire (entries.map (fun e => ChipInput.byte e.1 e.2)) else s

/-- The first k bits of one more entry, if there is one (rule R121). -/
def strayBits (k : Fin 8) : Option (Bool × Byte) → List ChipInput
  | some e => if k = 0 then [] else [.part e.1 k e.2]
  | none => []

/-- The first n entries of a burst and k bits of the next, as the chip receives them, if it is
selected. -/
def deliverPart (n : Nat) (k : Fin 8) (entries : List (Bool × Byte)) (s : State) : State :=
  if chipSelected s then
    s.sendWire ((entries.take n).map (fun e => ChipInput.byte e.1 e.2) ++ strayBits k entries[n]?)
  else s

/-- BusXfer of the bytes of TXB in order (rule R121). On failure a free number of whole bytes has
reached the chip, and a free number of bits of one more (log 8). -/
def busXfer (s : State) : Bool × State :=
  match drawAnswer s with
  | (true, s) => (true, (deliver s.txb s).log (.tx s.lines.dcl (s.txb.map (·.2))))
  | (false, s) =>
    (false, countChipDraw
      ((deliverPart (Config.bytesDelivered s.env.chipDrawn % (s.txb.length + 1))
        (Config.bitsDelivered s.env.chipDrawn) s.txb s).log
          (.txFail s.lines.dcl (s.txb.map (·.2)))))

/-- Wait(least): a drawn duration, at least the least one (rule R122). -/
def waitAtLeast (least : Nat) (s : State) : State :=
  (s.setEnv (nextExcess s.env).2).log (.wait (least + (nextExcess s.env).1))

/-- Wait(T_RES_MIN) (rule R162, RS2). -/
def waitReset (s : State) : State := waitAtLeast s.params.tResMin s

/-- The delay T_RES_POST before the first frame, none by default (rules R6, R163; log 21). -/
def waitAfterReset (s : State) : State :=
  if s.params.tResPost = 0 then s else waitAtLeast s.params.tResPost s

/-! ## The flow of an operation -/

/-- An operation in progress: going on, or ended by `raise E` (rules R11, R247). -/
inductive Flow where
  | go (s : State)
  | raised (e : ErrorCode) (s : State)
  deriving DecidableEq, Repr

/-- Go on with g unless an error was raised: no later step runs after `raise` (rule R247). -/
def Flow.andThen (f : Flow) (g : State → Flow) : Flow :=
  match f with
  | .go s => g s
  | .raised e s => .raised e s

/-- Write state after a step that has succeeded. -/
def Flow.update (f : Flow) (u : State → State) : Flow :=
  match f with
  | .go s => .go (u s)
  | .raised e s => .raised e s

/-- The next numbered step of an operation's rule: UPC takes its number (rule R37). -/
def Flow.step (f : Flow) (n : Nat) (g : State → Flow) : Flow :=
  f.andThen (fun s => g (s.setUpc (some n)))

/-- `raise E`: RSLT <- status E with val = 0, TXB emptied, UPC idle; every write made by earlier steps
stays (rule R247). -/
def raiseError (e : ErrorCode) (s : State) : State :=
  ((s.setRslt (resultWord 0 e.status)).setTxb []).setUpc none

/-- `return Ok(val)`: RSLT <- status Ok with val, UPC idle (rules R11, R37, R100). The block is then
idle and accepts the next operation, as after an error (rule R248). -/
def returnOk (val : BitVec 16) (s : State) : State :=
  (s.setRslt (resultWord val statusOk)).setUpc none

/-- The completion of an operation. -/
def finish (val : BitVec 16) (f : Flow) : State :=
  match f with
  | .go s => returnOk val s
  | .raised e s => raiseError e s

/-- Step 0 of an operation with a state guard (rules R244, R252). -/
def guardState (want : CtrlState) (s : State) : Flow :=
  (Flow.go s).step 0 (fun s => if s.ctrl = want then .go s else .raised .invalidState s)

/-- Step 0 of a pixel operation: the range check (rules R64, R243). -/
def guardRange (x y : Byte) (s : State) : Flow :=
  (Flow.go s).step 0 (fun s => if inRange x y then .go s else .raised .outOfBounds s)

/-- A numbered step that only computes values its successors use. -/
def Flow.compute (f : Flow) (n : Nat) : Flow := f.step n (fun s => .go s)

/-! ## The frame -/

/-- A line action of a frame: its failure raises BusError with TXB emptied (rules R124, R125). -/
def orBusError (r : Bool × State) : Flow :=
  if r.1 then .go r.2 else .raised .busError (r.2.setTxb [])

/-- Drive chip-select, if the block has the pin (rule R125, F1 and F4). -/
def driveCs (l : Bool) (s : State) : Bool × State :=
  if s.params.hasCsPin then pinSet .cs l s else (true, s)

/-- Frame(dc, bytes) (rules R125 to R127): F0 fill TXB, F1 assert chip-select, F2 set the mode line,
F3 transfer and empty TXB, F4 release chip-select; the first failure ends it. -/
def frame (dc : Bool) (bytes : List Byte) (s : State) : Flow :=
  (orBusError (driveCs s.params.csActive (s.setTxb (bytes.map (fun b => (dc, b))))))
    |>.andThen (fun s => orBusError (pinSet .dc dc s))
    |>.andThen (fun s => (orBusError (busXfer s)).update (fun s => s.setTxb []))
    |>.andThen (fun s => orBusError (driveCs (!s.params.csActive) s))

/-- sendCommand(b) (rule R128). -/
def sendCommand (b : Byte) (s : State) : Flow := frame false [b] s
/-- sendCommands(bs) (rule R129). -/
def sendCommands (bs : List Byte) (s : State) : Flow := frame false bs s
/-- sendData(bs) (rule R130). -/
def sendData (bs : List Byte) (s : State) : Flow := frame true bs s

/-! ## Command bytes as the block assembles them under ENC (rules R104, R107, R141 to R147) -/

/-- FS(pd, h) with V = CFG.addrmode (rule R141). -/
def fsByte (s : State) (pd h : Bool) : Byte := byteFS s.params.enc pd (vOf s.cfg.addrmode) h
/-- DISP(m) (rule R142). -/
def dispByte (e : Enc) (m : DispMode) : Byte := byteDISP e (dispD m) (dispE m)
/-- The two address bytes [SETY(band), SETX(col)] (rules R143, R144, R223). -/
def addressBytes (e : Enc) (c : Cursor) : List Byte :=
  [byteSETY e (BitVec.ofNat 3 c.band.val), byteSETX e (BitVec.ofNat 7 c.col.val)]

end Sys2Proof.Machine
end

