-- ==== Sys2Proof/Machine/Adapter.lean ====
section
/-! DEFINITION. The Pixel Drawing Adapter's operations GEOMETRY and DRAWPIXEL (rules R215 to R219):
surrounding software that drives the block through SETPIXEL and CLRPIXEL only (log 19). -/

namespace Sys2Proof.Machine

/-- GEOMETRY (rule R216). -/
def execGeometry (s : State) : Host.Outcome State Fault Refusal := .next (finish geometryVal (.go s))

/-- DRAWPIXEL x, y, colour (rule R217, DP0 and DP1): a point out of range is dropped. -/
def execDrawPixel (x y : Byte) (lit : Bool) (s : State) : Host.Outcome State Fault Refusal :=
  .next (finish 0 ((Flow.go s).step 0 (fun s =>
    if inRange x y then (Flow.go s).step 1 (fun s => .go (writePixel x y lit s)) else .go s)))

end Sys2Proof.Machine
end

