-- ==== Sys2Proof/Machine/Controller.lean ====
section
/-! DEFINITION. Block power-on NEW and the controller command sequencer: RESET, INIT, SETCONTRAST,
SETBIAS, SETTC, PWRDOWN, PWRUP (rules R160 to R173). -/

namespace Sys2Proof.Machine

/-! ## NEW (rules R160, R161) -/

/-- The configuration NEW stores: each value reduced to its width (rules R26 to R30, R160). -/
def cfgOf (contrast tc bias : Byte) (addrmode : AddrMode) (dispmode : DispMode) : Cfg where
  contrast := contrastOf contrast
  tc := tcOf tc
  bias := biasOf bias
  addrmode := addrmode
  dispmode := dispmode

/-- NEW(config): the initial state, or ConstructionError and no block (rules R160, R161; log 22). The
answer `ok` says whether pin and bus setup succeeded. -/
def powerOn (p : Params) (ok : Bool) (c : Cfg) : Host.Outcome State Fault Refusal :=
  if ok then .next (State.initial p c) else .fault .constructionError

/-! ## RESET (rules R162, R163) -/

/-- Drive the reset line; a failure leaves STATE Uninitialized and raises PinError (RS1, RS3). -/
def driveReset (l : Bool) (s : State) : Flow :=
  match pinSet .res l s with
  | (true, s) => .go s
  | (false, s) => .raised .pinError (s.setCtrl .uninitialized)

/-- FB <- 0, DIRTY <- RESET_DIRTY, CUR <- (0,0) (RS4). -/
def clearForReset (s : State) : State :=
  (setAllDirty (s.setFb []) s.params.resetDirty).setCur { col := 0, band := 0 }

/-- Steps RS1 to RS5; a T_RES_POST that is not 0 is waited for once the line is high (log 21). -/
def resetFlow (s : State) : Flow :=
  (Flow.go s).step 1 (driveReset false)
    |>.step 2 (fun s => .go (waitReset s))
    |>.step 3 (fun s => (driveReset true s).update waitAfterReset)
    |>.step 4 (fun s => .go (clearForReset s))
    |>.step 5 (fun s => .go (s.setCtrl .inReset))

/-- RESET (rule R162). -/
def execReset (s : State) : Host.Outcome State Fault Refusal := .next (finish 0 (resetFlow s))

/-! ## INIT (rules R164, R165) -/

/-- Steps I0 to I7. -/
def initFlow (s : State) : Flow :=
  guardState .inReset s
    |>.step 1 (fun s => (sendCommand (fsByte s false true) s).update
        (fun s => s.setCtrl .extendedConfig))
    |>.step 2 (fun s => sendCommand (byteVOP s.params.enc s.cfg.contrast) s)
    |>.step 3 (fun s => sendCommand (byteTC s.params.enc s.cfg.tc) s)
    |>.step 4 (fun s => sendCommand (byteBIAS s.params.enc s.cfg.bias) s)
    |>.step 5 (fun s => sendCommand (fsByte s false false) s)
    |>.step 6 (fun s => sendCommand (dispByte s.params.enc .normal) s)
    |>.step 7 (fun s => .go ((s.setCfg { s.cfg with dispmode := .normal }).setCtrl .basic))

/-- INIT (rule R164). -/
def execInit (s : State) : Host.Outcome State Fault Refusal := .next (finish 0 (initFlow s))

/-! ## The configuration operations (rules R166 to R169) -/

/-- The common shape: enter the extended instruction set, send one value and record it, return to the
basic instruction set, restore the display mode (rules R166 to R169). -/
def configFlow (b : Byte) (record : Cfg → Cfg) (s : State) : Flow :=
  guardState .basic s
    |>.step 1 (fun s => (sendCommand (fsByte s false true) s).update
        (fun s => s.setCtrl .extendedConfig))
    |>.step 2 (fun s => (sendCommand b s).update (fun s => s.setCfg (record s.cfg)))
    |>.step 3 (fun s => sendCommand (fsByte s false false) s)
    |>.step 4 (fun s => sendCommand (dispByte s.params.enc s.cfg.dispmode) s)
    |>.step 5 (fun s => .go (s.setCtrl .basic))

/-- SETCONTRAST a (rule R166, SC0 to SC5). -/
def execSetContrast (a : Byte) (s : State) : Host.Outcome State Fault Refusal :=
  .next (finish 0 (configFlow (byteVOP s.params.enc (contrastOf a))
    (fun c => { c with contrast := contrastOf a }) s))

/-- SETBIAS a (rule R167, B0 to B5). -/
def execSetBias (a : Byte) (s : State) : Host.Outcome State Fault Refusal :=
  .next (finish 0 (configFlow (byteBIAS s.params.enc (biasOf a))
    (fun c => { c with bias := biasOf a }) s))

/-- SETTC a (rule R168, T0 to T5). -/
def execSetTc (a : Byte) (s : State) : Host.Outcome State Fault Refusal :=
  .next (finish 0 (configFlow (byteTC s.params.enc (tcOf a))
    (fun c => { c with tc := tcOf a }) s))

/-! ## Power control (rules R170 to R172) -/

/-- PWRDOWN (rule R170, PD0 to PD2). -/
def execPwrDown (s : State) : Host.Outcome State Fault Refusal :=
  .next (finish 0 (guardState .basic s
    |>.step 1 (fun s => sendCommand (fsByte s true false) s)
    |>.step 2 (fun s => .go (s.setCtrl .poweredDown))))

/-- PWRUP (rule R171, Q0 to Q2). -/
def execPwrUp (s : State) : Host.Outcome State Fault Refusal :=
  .next (finish 0 (guardState .poweredDown s
    |>.step 1 (fun s => sendCommand (fsByte s false false) s)
    |>.step 2 (fun s => .go (s.setCtrl .basic))))

end Sys2Proof.Machine
end

