-- ==== Sys2Proof/Machine/Flush.lean ====
section
/-! DEFINITION. The address window SETADDR and the DDRAM write sequencer FLUSH (rules R220 to R229). -/

namespace Sys2Proof.Machine

/-- The range check of SETADDR (rule R223, A1). -/
def guardAddr (band col : Byte) (s : State) : Flow :=
  if addrInRange band col then .go s else .raised .outOfBounds s

/-- Send an address: its row byte, then its column byte, in one frame (rule R223, A2; rule R226, L2). -/
def sendAddress (c : Cursor) (s : State) : Flow := sendCommands (addressBytes s.params.enc c) s

/-- SETADDR band, col (rule R223, A0 to A3). -/
def execSetAddr (band col : Byte) (s : State) : Host.Outcome State Fault Refusal :=
  .next (finish 0 (guardState .basic s
    |>.step 1 (guardAddr band col)
    |>.step 2 (sendAddress (cursorOf band col))
    |>.step 3 (fun s => .go (s.setCur (cursorOf band col)))))

/-- L2 to L4 for one band: its address, its 84 bytes, its flag (rule R226). -/
def sendBand (b : Fin 6) (s : State) : Flow :=
  (Flow.go s).step 2 (fun s => (sendAddress { col := 0, band := b } s).update
        (fun s => s.setCur { col := 0, band := b }))
    |>.step 3 (fun s => (sendData (bandBytes s.fb b) s).update
        (fun s => s.setCur (advanceN s.cfg.addrmode 84 { col := 0, band := b })))
    |>.step 4 (fun s => .go (clearDirty s b))

/-- L1 for one band: a band that is neither dirty nor forced is skipped entirely (rule R226). -/
def flushBand (b : Fin 6) (s : State) : Flow :=
  (Flow.go s).step 1 (fun s => if s.params.flushAll || isDirty s b then sendBand b s else .go s)

/-- L1: the bands in order; an error ends FLUSH (rules R226, R227). -/
def flushBands : List (Fin 6) → State → Flow
  | [], s => .go s
  | b :: rest, s => (flushBand b s).andThen (flushBands rest)

/-- FLUSH (rule R226, L0 to L4): ascending bands, never another order. -/
def execFlush (s : State) : Host.Outcome State Fault Refusal :=
  .next (finish 0 ((guardState .basic s).andThen (flushBands [0, 1, 2, 3, 4, 5])))

end Sys2Proof.Machine
end

