-- ==== Sys2Proof/Machine/Framebuffer.lean ====
section
/-! DEFINITION. The framebuffer operations SETPIXEL, CLRPIXEL, GETPIXEL and CLEAR (rules R180 to
R190): no state guard, no line action. What GETPIXEL reads after the other three, and that a refused
write changes nothing (rule R188), follows from these and from the mapper. -/

namespace Sys2Proof.Machine

/-- Steps X0 to X3 of SETPIXEL and Y0 to Y3 of CLRPIXEL (rules R182, R183). -/
def pixelFlow (x y : Byte) (v : Bool) (s : State) : Flow :=
  (guardRange x y s).compute 1
    |>.step 2 (fun s => .go (drawBit x y v s))
    |>.step 3 (fun s => .go (markDirty s (bandOf y)))

/-- SETPIXEL x, y, on (rule R182, X0 to X3). -/
def execSetPixel (x y : Byte) (lit : Bool) (s : State) : Host.Outcome State Fault Refusal :=
  .next (finish 0 (pixelFlow x y lit s))

/-- CLRPIXEL x, y (rule R183, Y0 to Y3). -/
def execClrPixel (x y : Byte) (s : State) : Host.Outcome State Fault Refusal :=
  .next (finish 0 (pixelFlow x y false s))

/-- GETPIXEL x, y (rule R184, GP0 to GP2). -/
def execGetPixel (x y : Byte) (s : State) : Host.Outcome State Fault Refusal :=
  .next (finish (pixelVal (pixelAt s.fb x y)) ((guardRange x y s).compute 1 |>.compute 2))

/-- CLEAR (rule R185, Z1 and Z2). -/
def execClear (s : State) : Host.Outcome State Fault Refusal :=
  .next (finish 0 ((Flow.go s).step 1 (fun s => .go (s.setFb []))
    |>.step 2 (fun s => .go (setAllDirty s true))))

end Sys2Proof.Machine
end

