-- ==== Sys2Proof/Machine/Receiver.lean ====
section
/-! DEFINITION. The bytes the block sends, by their effect on the receiver as the block assumes it
(rules R78 to R84, R141 to R148; log 6). They change nothing of the block. Under which H a command is
recognised is decided where the byte is decoded (rules R84, R105). -/

namespace Sys2Proof.Machine

/-- The receiver's hardware reset (rule R82, logs 6 and 7). -/
def chipReset (c : Chip) : Chip := { Chip.afterReset with kind := c.kind, draws := c.draws }

/-! ## Bits shifted in (rules R65, R109, R121, R133; log 8) -/

/-- The eight bits of a byte in the order they go out, bit 7 first (rule R133). -/
def bitsOf (b : Byte) : List Bool := [7, 6, 5, 4, 3, 2, 1, 0].map b.getLsbD

/-- The byte that eight bits make, bit 7 first. -/
def byteOf (l : List Bool) : Byte := l.foldl (fun b v => b <<< 1 ||| (if v then 1#8 else 0#8)) 0#8

/-- Before more bits arrive: whether stray bits of an earlier transfer still stand in the shift
register is a free value each time (DESIGN CHOICE, log 8). -/
def chipSettle (c : Chip) : Chip :=
  if c.held = [] then c
  else { c with held := if Config.strayBitsKept c.draws then c.held else [], draws := c.draws + 1 }

/-- Bits shifted in: the byte they complete, if they do, and the chip with the bits left over. -/
def chipShift (bits : List Bool) (c : Chip) : Option Byte × Chip :=
  if 8 ≤ (c.held ++ bits).length then
    (some (byteOf ((c.held ++ bits).take 8)), { c with held := (c.held ++ bits).drop 8 })
  else (none, { c with held := c.held ++ bits })

/-! ## The commands and the data byte -/

/-- What a chip that is or has been powered down still holds. The spec is silent on it (rules R261,
R291, 91_not_in_source.md N14), so by the kind of chip its settings and its address counter are kept
or become free values, and its DDRAM is kept or nothing more is known of it (DESIGN CHOICE, log 23). -/
def chipLapse (c : Chip) : Chip :=
  { c with
    disp := if c.kind.settings then c.disp
      else dispOf (Config.lapsedDisplay c.draws).1 (Config.lapsedDisplay c.draws).2
    addr := if c.kind.settings then c.addr
      else { col := (Config.lapsedAddress c.draws).1, band := (Config.lapsedAddress c.draws).2 }
    tc := if c.kind.settings then c.tc else Config.lapsedTc c.draws
    bias := if c.kind.settings then c.bias else Config.lapsedBias c.draws
    vop := if c.kind.settings then c.vop else Config.lapsedVop c.draws
    ddram := if c.kind.ddram then c.ddram else [] }

/-- What a chip that enters the extended instruction set still holds: rule R83 gives two accounts, so
by the kind of chip the display mode is kept or becomes a free value (DESIGN CHOICE, log 24). -/
def chipSuspend (c : Chip) : Chip :=
  { c with
    disp := if c.kind.display then c.disp
      else dispOf (Config.suspendedDisplay c.draws).1 (Config.suspendedDisplay c.draws).2 }

/-- FUNCTION_SET: PD, V and H take the three operand values (rule R141). What the chip keeps of the
rest when it is powered down before or after the command is the model's choice (log 23), and so is
what it keeps of its display mode when H = 1 (log 24). -/
def chipFunctionSet (pd v h : Bool) (c : Chip) : Chip :=
  let powered := if c.pd || pd then chipLapse c else c
  let settled := if h then chipSuspend powered else powered
  { settled with pd := pd, v := addrModeOf v, h := h, draws := c.draws + 1 }

/-- DISPLAY_CONTROL: the display mode becomes (D, E); DDRAM is unchanged (rule R142). -/
def chipDisplayControl (d e : Bool) (c : Chip) : Chip := { c with disp := dispOf d e }

/-- The row a SET_Y operand names; one outside 0 to 5 gives a free value (rule R143, log 11). -/
def rowOf (y : BitVec 3) : Fin 6 :=
  if y.toNat < Config.bands then Fin.ofNat 6 y.toNat else Config.strayRow y

/-- The column a SET_X operand names; one outside 0 to 83 gives a free value (rule R144, log 11). -/
def columnOf (x : BitVec 7) : Fin 84 :=
  if x.toNat < Config.width then Fin.ofNat 84 x.toNat else Config.strayColumn x

/-- SET_Y: the row of the address counter becomes the operand; X is unchanged (rule R143). -/
def chipSetY (y : BitVec 3) (c : Chip) : Chip := { c with addr := { c.addr with band := rowOf y } }

/-- SET_X: the column of the address counter becomes the operand; Y is unchanged (rule R144). -/
def chipSetX (x : BitVec 7) (c : Chip) : Chip := { c with addr := { c.addr with col := columnOf x } }

/-- SET_TC: the temperature coefficient becomes the operand (rule R145). -/
def chipSetTc (t : BitVec 2) (c : Chip) : Chip := { c with tc := t }

/-- SET_BIAS: the bias system becomes the operand (rule R146). -/
def chipSetBias (b : BitVec 3) (c : Chip) : Chip := { c with bias := b }

/-- SET_VOP: the operating voltage setting becomes the operand (rule R147). -/
def chipSetVop (v : BitVec 7) (c : Chip) : Chip := { c with vop := v }

/-- A data byte: DDRAM at the address counter takes it and the counter advances (rules R79, R80,
R148); a powered-down chip ignores it (rule R81, log 12). -/
def chipData (d : Byte) (c : Chip) : Chip :=
  if c.pd then c
  else { c with
    ddram := ddramWrite c.ddram (bandIndex c.addr.band c.addr.col.val) d
    addr := advance c.v c.addr }

/-- FUNCTION_SET (rule R141). -/
def execCmdFunctionSet (pd v h : Bool) (s : State) : Host.Outcome State Fault Refusal :=
  .next (s.setChip (chipFunctionSet pd v h s.chip))

/-- DISPLAY_CONTROL (rule R142). -/
def execCmdDisplayControl (d e : Bool) (s : State) : Host.Outcome State Fault Refusal :=
  .next (s.setChip (chipDisplayControl d e s.chip))

/-- SET_Y (rule R143). -/
def execCmdSetY (y : BitVec 3) (s : State) : Host.Outcome State Fault Refusal :=
  .next (s.setChip (chipSetY y s.chip))

/-- SET_X (rule R144). -/
def execCmdSetX (x : BitVec 7) (s : State) : Host.Outcome State Fault Refusal :=
  .next (s.setChip (chipSetX x s.chip))

/-- SET_TC (rule R145). -/
def execCmdSetTc (t : BitVec 2) (s : State) : Host.Outcome State Fault Refusal :=
  .next (s.setChip (chipSetTc t s.chip))

/-- SET_BIAS (rule R146). -/
def execCmdSetBias (b : BitVec 3) (s : State) : Host.Outcome State Fault Refusal :=
  .next (s.setChip (chipSetBias b s.chip))

/-- SET_VOP (rule R147). -/
def execCmdSetVop (v : BitVec 7) (s : State) : Host.Outcome State Fault Refusal :=
  .next (s.setChip (chipSetVop v s.chip))

/-- DATA (rule R148). -/
def execData (d : Byte) (s : State) : Host.Outcome State Fault Refusal :=
  .next (s.setChip (chipData d s.chip))

end Sys2Proof.Machine
end

