-- ==== Sys2Proof/Machine/Text.lean ====
section
/-! DEFINITION. The Text Renderer's operation WRCHAR (rules R200 to R210): surrounding software that
drives the block through SETPIXEL and CLRPIXEL only (log 19). -/

namespace Sys2Proof.Machine

/-- GLYPH(c), or the solid block for a code outside GLYPH_DOMAIN (rules R203, R204). -/
def glyphOf (p : Params) (c : Byte) : Config.Glyph :=
  match p.font.find? (fun e => e.1 == c) with
  | some e => e.2
  | none => Config.solidBlock

/-- x = 6 TCOL + k (rule R206, W2). -/
def cellX (t : TextCursor) (k : Nat) : Byte := BitVec.ofNat 8 (6 * t.tcol.val + k)
/-- y = 8 TROW + n (rule R206, W2). -/
def cellY (t : TextCursor) (n : Nat) : Byte := BitVec.ofNat 8 (8 * t.trow.val + n)

/-- One glyph column, its eight pixels from top to bottom (rule R206, W2). -/
def drawColumn (g : Byte) (k : Nat) (s : State) : State :=
  [0, 1, 2, 3, 4, 5, 6, 7].foldl
    (fun s n => writePixel (cellX s.text k) (cellY s.text n) (g.getLsbD n) s) s

/-- The five glyph columns from left to right (rule R206, W2); the spacing column is not written
(rule R208). -/
def drawGlyph (g : Config.Glyph) (s : State) : State :=
  ([0, 1, 2, 3, 4] : List (Fin 5)).foldl (fun s k => drawColumn g[k] k.val s) s

/-- The row below, row 0 after the last (rules R205, R207). -/
def nextRow (r : Fin 6) : Fin 6 := Fin.ofNat 6 ((r.val + 1) % 6)

/-- The cursor after a newline (rule R205; rule R206, W0). -/
def newline (t : TextCursor) : TextCursor where
  tcol := 0
  trow := nextRow t.trow

/-- The cursor after a drawn character, wrapping eagerly (rule R206, W3; rule R207). -/
def nextCell (t : TextCursor) : TextCursor :=
  if t.tcol.val + 1 = 14 then { tcol := 0, trow := nextRow t.trow }
  else { t with tcol := Fin.ofNat 14 (t.tcol.val + 1) }

/-- Steps W1 to W3: a character that is not newline (rule R206). -/
def drawCharacter (c : Byte) (s : State) : Flow :=
  (Flow.go s).compute 1
    |>.step 2 (fun s => .go (drawGlyph (glyphOf s.params c) s))
    |>.step 3 (fun s => .go (s.setText (nextCell s.text)))

/-- WRCHAR c (rule R206, W0 to W3). -/
def execWrChar (c : Byte) (s : State) : Host.Outcome State Fault Refusal :=
  .next (finish 0 ((Flow.go s).step 0 (fun s =>
    if c = Config.newlineCode then .go (s.setText (newline s.text)) else drawCharacter c s)))

end Sys2Proof.Machine
end

