-- ==== Sys2Proof/Machine/Dispatch.lean ====
section
/-! DEFINITION. The meaning of every instruction, one arm per constructor. -/

namespace Sys2Proof.Machine

def exec (i : Instr) (s : State) : Host.Outcome State Fault Refusal :=
  match i with
  | .reset => Sys2Proof.Machine.execReset s
  | .init => Sys2Proof.Machine.execInit s
  | .setContrast a => Sys2Proof.Machine.execSetContrast a s
  | .setBias a => Sys2Proof.Machine.execSetBias a s
  | .setTc a => Sys2Proof.Machine.execSetTc a s
  | .pwrDown => Sys2Proof.Machine.execPwrDown s
  | .pwrUp => Sys2Proof.Machine.execPwrUp s
  | .setPixel x y lit => Sys2Proof.Machine.execSetPixel x y lit s
  | .clrPixel x y => Sys2Proof.Machine.execClrPixel x y s
  | .getPixel x y => Sys2Proof.Machine.execGetPixel x y s
  | .clear => Sys2Proof.Machine.execClear s
  | .setAddr band col => Sys2Proof.Machine.execSetAddr band col s
  | .flush => Sys2Proof.Machine.execFlush s
  | .wrChar c => Sys2Proof.Machine.execWrChar c s
  | .geometry => Sys2Proof.Machine.execGeometry s
  | .drawPixel x y lit => Sys2Proof.Machine.execDrawPixel x y lit s
  | .cmdFunctionSet pd v h => Sys2Proof.Machine.execCmdFunctionSet pd v h s
  | .cmdDisplayControl d e => Sys2Proof.Machine.execCmdDisplayControl d e s
  | .cmdSetY y => Sys2Proof.Machine.execCmdSetY y s
  | .cmdSetX x => Sys2Proof.Machine.execCmdSetX x s
  | .cmdSetTc t => Sys2Proof.Machine.execCmdSetTc t s
  | .cmdSetBias b => Sys2Proof.Machine.execCmdSetBias b s
  | .cmdSetVop v => Sys2Proof.Machine.execCmdSetVop v s
  | .data d => Sys2Proof.Machine.execData d s

end Sys2Proof.Machine
end

