-- ==== Sys2Proof/Machine/Fetch.lean ====
section
/-! DEFINITION. Which agent moves next and what it executes (rules R8, R37, R72). The chip first takes
what has reached it, one input a step; then the port accepts the host's next operation word. -/

namespace Sys2Proof.Machine

/-- What the next step does. -/
inductive Fetched where
  /-- Execute an instruction in a state. -/
  | instr (i : Instr) (s : State)
  /-- No instruction: the state after the step. -/
  | quiet (s : State)
  /-- The port does not accept the word. -/
  | rejected (r : Refusal)
  deriving DecidableEq, Repr

/-- Bits reach the chip: the byte they complete, if they do, is decoded under the mode line and the
chip's own H (rules R79, R84); a command byte the chip does not recognise it ignores (log 10). -/
def fetchBits (dc : Bool) (bits : List Bool) (s : State) : Fetched :=
  match chipShift bits (chipSettle s.chip) with
  | (none, c) => .quiet (s.setChip c)
  | (some b, c) =>
    match decodeChip s.params.enc dc c.h b with
    | .ok i => .instr i (s.setChip c)
    | .error _ => .quiet (s.setChip c)

/-- The chip takes one input (log 9): a reset, a byte, or part of a byte (rule R121). -/
def fetchChip (e : ChipInput) (s : State) : Fetched :=
  match e with
  | .resetPulse => .quiet (s.setChip (chipReset s.chip))
  | .byte dc b => fetchBits dc (bitsOf b) s
  | .part dc k b => fetchBits dc ((bitsOf b).take k.val) s

/-- The refusal of a word that spells no operation (rules R95, R96; log 17). -/
def refusalOf : DecodeError → Refusal
  | .undefinedOpcode => .undefinedOpcode
  | .nonzeroUnusedField => .nonzeroUnusedField
  | .unrecognisedCommand => .undefinedOpcode

/-- The port takes one operation word into OPW (rules R21, R97). -/
def fetchOperation (w : Word) (s : State) : Fetched :=
  match decodeOpw w with
  | .ok i => .instr i (s.setOpw w)
  | .error e => .rejected (refusalOf e)

/-- The next step: the chip's oldest input; with none left, the host's next word, which the port
accepts only while UPC is idle (rule R37); with no word the block is idle (rule R248). -/
def fetch (s : State) : Fetched :=
  match s.wire with
  | e :: rest => fetchChip e (s.setWire rest)
  | [] =>
    if s.upc.isSome then .quiet s
    else
      match s.hostq with
      | w :: rest => fetchOperation w (s.setHostq rest)
      | [] => .quiet s

/-- The mode line under which an instruction's byte is placed for the chip. -/
def laneOf (i : Instr) : Bool :=
  match i with
  | .data _ => true
  | _ => false

/-- The setting of the chip's H under which an instruction's byte is read as that instruction: the
present one if it is recognised under it, else the other (rule R104). -/
def hFor (i : Instr) (h : Bool) : Bool := if recognised h i then h else !h

/-- Place an operation word as the host's next (log 1). -/
def placeWord (w : Word) (s : State) : State :=
  ((s.setWire []).setUpc none).setHostq (w :: s.hostq)

/-- Place a byte as the chip's next input, with the mode line, the H and the ENC (rule R104's) under
which it is the instruction the decoder reads in it, and no stray bits before it (log 18). -/
def placeByte (b : Byte) (s : State) : State :=
  { s with
    params := { s.params with enc := Enc.datasheet }
    chip := { s.chip with h := hFor (decodeBareByte b) s.chip.h, held := [] }
    wire := .byte (laneOf (decodeBareByte b)) b :: s.wire }

end Sys2Proof.Machine
end

