-- ==== Sys2Proof/Machine/Step.lean ====
section
/-! DEFINITION. One step of the machine: fetch and execute. -/

namespace Sys2Proof.Machine

/-- One step (rules R8, R37, R72): one operation of the block, or one input taken by the chip. -/
def step (s : State) : Host.Outcome State Fault Refusal :=
  match fetch s with
  | .instr i s => exec i s
  | .quiet s => .next s
  | .rejected r => .refused r

/-- The state with an opcode-table row's bits stored where the next step fetches them (log 1, log 18). -/
def State.withFetchWord (s : State) (nbits w : Nat) : State :=
  if nbits = 8 then placeByte (BitVec.ofNat 8 w) s else placeWord (BitVec.ofNat 32 w) s

end Sys2Proof.Machine
end

