-- ==== Sys2Proof/Safety.lean ====
section
/-! DEFINITION. The terms claims are stated in: what the environment answers, what a frame leaves on
the lines, what the chip holds once it has taken all that reached it, and the invariants of a safe
run. -/

namespace Sys2Proof.Machine

/-! ## The environment's answers -/

/-- The environment's next answers are these, oldest first (true is ok): a claim about a list of
answers is a claim about every environment that gives them (rules R72, R123). -/
def answersAre : List Bool → Env → Prop
  | [], _ => True
  | a :: rest, e => (nextAnswer e).1 = a ∧ answersAre rest (nextAnswer e).2

/-- The environment's next n answers are all ok. -/
def answersOk (n : Nat) (e : Env) : Prop := answersAre (List.replicate n true) e

/-- The environment after n answers. -/
def skipAnswers : Nat → Env → Env
  | 0, e => e
  | n + 1, e => skipAnswers n (nextAnswer e).2

/-! ## A frame on the lines (rules R109, R125, R129, R130) -/

/-- How many line actions a frame has. -/
def frameActions (p : Params) : Nat := if p.hasCsPin then 4 else 2

/-- The trace of a successful frame: chip-select to its active level (if the block has the pin), the
mode line, the bytes, chip-select to its inactive level. -/
def frameEvents (p : Params) (dc : Bool) (bytes : List Byte) : List LineEvent :=
  if p.hasCsPin then
    [.pin .cs p.csActive, .pin .dc dc, .tx (levelOf dc) bytes, .pin .cs (!p.csActive)]
  else [.pin .dc dc, .tx (levelOf dc) bytes]

/-- The traces of successful command frames, one byte each, in order. -/
def commandEvents (p : Params) (bytes : List Byte) : List LineEvent :=
  bytes.flatMap (fun b => frameEvents p false [b])

/-- The traces a frame can leave that ends with BusError: one for each of its line actions that can be
the first to fail (rules R120, R121, R127). -/
def failedFrameEvents (p : Params) (dc : Bool) (bytes : List Byte) : List (List LineEvent) :=
  if p.hasCsPin then
    [[.pinFail .cs],
     [.pin .cs p.csActive, .pinFail .dc],
     [.pin .cs p.csActive, .pin .dc dc, .txFail (levelOf dc) bytes],
     [.pin .cs p.csActive, .pin .dc dc, .tx (levelOf dc) bytes, .pinFail .cs]]
  else [[.pinFail .dc], [.pin .dc dc, .txFail (levelOf dc) bytes]]

/-- The latches after a successful frame. -/
def frameLines (p : Params) (dc : Bool) (l : Lines) : Lines where
  resl := l.resl
  dcl := levelOf dc
  csl := if p.hasCsPin then levelOf (!p.csActive) else l.csl

/-- The bytes of a frame as the chip receives them. -/
def chipBytes (dc : Bool) (bytes : List Byte) : List ChipInput := bytes.map (fun b => .byte dc b)

/-- The trace of one band of FLUSH: its address frame and its data frame (rule R229). -/
def bandEvents (p : Params) (m : Memory) (b : Fin 6) : List LineEvent :=
  frameEvents p false (addressBytes p.enc { col := 0, band := b }) ++ frameEvents p true (bandBytes m b)

/-- The bands FLUSH sends, ascending (rule R226, L1). -/
def sentBands (s : State) : List (Fin 6) :=
  ([0, 1, 2, 3, 4, 5] : List (Fin 6)).filter (fun b => s.params.flushAll || isDirty s b)

/-- CUR after the bands sent: where the last data burst left it, or as it was (rule R226, L3). -/
def cursorAfter (mode : AddrMode) (sent : List (Fin 6)) (c : Cursor) : Cursor :=
  match sent.getLast? with
  | some b => advanceN mode 84 { col := 0, band := b }
  | none => c

/-! ## The command bytes of the controller's sequences -/

/-- The bytes INIT sends, one frame each (rule R164, I1 to I6). -/
def initBytes (s : State) : List Byte :=
  [fsByte s false true, byteVOP s.params.enc s.cfg.contrast, byteTC s.params.enc s.cfg.tc,
   byteBIAS s.params.enc s.cfg.bias, fsByte s false false, dispByte s.params.enc .normal]

/-- The bytes a configuration operation sends, one frame each, b being the byte of its value
(rules R166 to R168, steps 1 to 4). -/
def configBytes (b : Byte) (s : State) : List Byte :=
  [fsByte s false true, b, fsByte s false false, dispByte s.params.enc s.cfg.dispmode]

/-! ## The state guards (rule R252) -/

/-- The table of rule R252: in which controller states the guard of an operation passes. -/
def allowedIn : Instr → CtrlState → Bool
  | .init, c => decide (c = .inReset)
  | .setContrast _, c => decide (c = .basic)
  | .setBias _, c => decide (c = .basic)
  | .setTc _, c => decide (c = .basic)
  | .pwrDown, c => decide (c = .basic)
  | .pwrUp, c => decide (c = .poweredDown)
  | .setAddr _ _, c => decide (c = .basic)
  | .flush, c => decide (c = .basic)
  | .reset, _ | .setPixel _ _ _, _ | .clrPixel _ _, _ | .getPixel _ _, _ | .clear, _
  | .wrChar _, _ | .geometry, _ | .drawPixel _ _ _, _ => true
  | .cmdFunctionSet _ _ _, _ | .cmdDisplayControl _ _, _ | .cmdSetY _, _ | .cmdSetX _, _
  | .cmdSetTc _, _ | .cmdSetBias _, _ | .cmdSetVop _, _ | .data _, _ => true

/-! ## The latches and the trace (rules R35, R44) -/

/-- What one element of the trace says of the latches. -/
def replayEvent (l : Lines) (e : LineEvent) : Lines :=
  match e with
  | .pin .res v => { l with resl := levelOf v }
  | .pin .dc v => { l with dcl := levelOf v }
  | .pin .cs v => { l with csl := levelOf v }
  | .pinFail .res => { l with resl := .unknown }
  | .pinFail .dc => { l with dcl := .unknown }
  | .pinFail .cs => { l with csl := .unknown }
  | .tx _ _ => l
  | .txFail _ _ => l
  | .wait _ => l

/-- The level last driven on each line, U before the first drive, read off the trace. -/
def replayLines (lt : List LineEvent) : Lines :=
  lt.foldl replayEvent { resl := .unknown, dcl := .unknown, csl := .unknown }

/-! ## The chip after all that reached it -/

/-- The effect of a chip instruction on the receiver (rules R141 to R148). -/
def chipEffect (i : Instr) (c : Chip) : Chip :=
  match i with
  | .cmdFunctionSet pd v h => chipFunctionSet pd v h c
  | .cmdDisplayControl d e => chipDisplayControl d e c
  | .cmdSetY y => chipSetY y c
  | .cmdSetX x => chipSetX x c
  | .cmdSetTc t => chipSetTc t c
  | .cmdSetBias b => chipSetBias b c
  | .cmdSetVop v => chipSetVop v c
  | .data d => chipData d c
  | .reset | .init | .setContrast _ | .setBias _ | .setTc _ | .pwrDown | .pwrUp
  | .setPixel _ _ _ | .clrPixel _ _ | .getPixel _ _ | .clear | .setAddr _ _ | .flush
  | .wrChar _ | .geometry | .drawPixel _ _ _ => c

/-- The mode level and the bits of an input, none for a reset pulse. -/
def ChipInput.bits : ChipInput → Option (Bool × List Bool)
  | .resetPulse => none
  | .byte dc b => some (dc, bitsOf b)
  | .part dc k b => some (dc, (bitsOf b).take k.val)

/-- The bits that stand in the shift register once more have arrived where stray ones were: after
them if they are kept, else alone (log 8). -/
def bitsStanding (c : Chip) (bits : List Bool) : List Bool :=
  (if Config.strayBitsKept c.draws then c.held else []) ++ bits

/-- The receiver after some bits have been shifted in under a mode level. -/
def chipTakeBits (enc : Enc) (dc : Bool) (bits : List Bool) (c : Chip) : Chip :=
  match chipShift bits (chipSettle c) with
  | (none, c) => c
  | (some b, c) =>
    match decodeChip enc dc c.h b with
    | .ok i => chipEffect i c
    | .error _ => c

/-- The receiver after one input. -/
def chipTake (enc : Enc) (c : Chip) (e : ChipInput) : Chip :=
  match e with
  | .resetPulse => chipReset c
  | .byte dc b => chipTakeBits enc dc (bitsOf b) c
  | .part dc k b => chipTakeBits enc dc ((bitsOf b).take k.val) c

/-- The receiver once it has taken everything that reached it. -/
def drained (s : State) : Chip := s.wire.foldl (chipTake s.params.enc) s.chip

/-! ## Invariants of a safe run -/

/-- RSLT has the layout of rule R100, with a status an operation can complete with (rule R240). -/
def resultOk (w : Word) : Prop :=
  w.extractLsb' 24 8 = 0#8 ∧ (resultStatus w).toNat ≤ 4 ∧
    (resultStatus w ≠ statusOk → resultVal w = 0#16)

/-- What holds between operations in every run: TXB is empty and UPC idle (rule R46 (c)), both
memories are in canonical form, RSLT has its layout, the latches are the levels last driven
(rule R35), and the chip's shift register holds no whole byte (log 8). Rules R46 (a), (b), (d) and (f)
are in the types of State. -/
structure Inv (s : State) : Prop where
  txbEmpty : s.txb = []
  upcIdle : s.upc = none
  fbWf : Memory.wf Config.fbUnlisted s.fb = true
  ddramWf : Memory.wf Config.ddramUnlisted s.chip.ddram = true
  rsltOk : resultOk s.rslt
  latches : s.lines = replayLines s.lt
  heldShort : s.chip.held.length < 8

/-- Row b of the chip's DDRAM is band b of the framebuffer, byte for byte. -/
def rowShown (c : Chip) (m : Memory) (b : Fin 6) : Prop :=
  ∀ k < 84, ddramRead c.ddram (bandIndex b k) = some (fbRead m (bandIndex b k))

/-- The chip's mode bits are what STATE means between operations (rule R32). -/
def modesAgree (s : State) (c : Chip) : Prop :=
  (s.ctrl = .basic → c.h = false ∧ c.pd = false ∧ c.v = s.cfg.addrmode) ∧
  (s.ctrl = .poweredDown → c.h = false ∧ c.pd = true ∧ c.v = s.cfg.addrmode)

/-- The framebuffer with its dirty flags is a shadow of DDRAM: once the chip has taken all that
reached it, no stray bits stand in its shift register, its modes agree with STATE and every band whose
flag is clear is shown (rules R76, R231, R46 (e)). It rests on the receiver assumptions R79 to R84. -/
structure InSync (s : State) : Prop where
  noStrayBits : (drained s).held = []
  modes : modesAgree s (drained s)
  shown : ∀ b, isDirty s b = false → rowShown (drained s) s.fb b

end Sys2Proof.Machine
end

