-- ==== Sys2Proof/Certificates/Slice0/Obligations.lean ====
section
/-! DEFINITION. The statements for the provers. Each docstring names the rules of spec/ it rests on.
F is the number of line actions of a frame (4, or 2 without a chip-select pin). -/

open Sys2Proof Sys2Proof.Machine

/-! ## Encoding, decoding, stepping -/

/-- Rules R91 to R93, R97, R104: under every ENC that is a code, decoding the code of any instruction,
with every operand at every value its field admits and under every H that recognises it, gives the
instruction back. -/
def Obligations.DecodeOfEncodedInstruction : Prop :=
  ∀ (i : Instr) (e : Enc) (h : Bool), e.wf = true → recognised h i = true →
    decode e h (encode e i) = .ok i

/-- Rule R95: a word with a nonzero unused field spells no operation, each accepted word spells
exactly one operation with operands, and each operation with operands has exactly one word. -/
def Obligations.OperationWordsAreUnique : Prop :=
  (∀ (e : Enc) (w : Word) (i : Instr), decodeOpw w = .ok i →
    i.isOperation = true ∧ encode e i = .opw w) ∧
  (∀ (e : Enc) (i : Instr), i.isOperation = true →
    ∃ w, encode e i = .opw w ∧ decodeOpw w = .ok i ∧ ∀ w', decodeOpw w' = .ok i → w' = w) ∧
  (∀ w : Word, w.extractLsb' 1 7 ≠ 0#7 → ∀ i, decodeOpw w ≠ .ok i)

/-- A few words written out from the tables of rules R92, R93 and R104. -/
def Obligations.SpecWordsDecode : Prop :=
  decodeOpw 0x01000000#32 = .ok .reset ∧ decodeOpw 0x03C50000#32 = .ok (.setContrast 0xC5) ∧
  decodeOpw 0x10532F01#32 = .ok (.setPixel 83 47 true) ∧
  decodeOpw 0x14055300#32 = .ok (.setAddr 5 83) ∧ decodeOpw 0x15000000#32 = .ok .flush ∧
  decodeOpw 0x20480000#32 = .ok (.wrChar 0x48) ∧
  decodeOpw 0x29532F01#32 = .ok (.drawPixel 83 47 true) ∧
  decodeChip Enc.datasheet false false 0x26#8 = .ok (.cmdFunctionSet true true false) ∧
  decodeChip Enc.datasheet false false 0x0D#8 = .ok (.cmdDisplayControl true true) ∧
  decodeChip Enc.datasheet false false 0xD3#8 = .ok (.cmdSetX 83) ∧
  decodeChip Enc.datasheet false true 0xD3#8 = .ok (.cmdSetVop 0x53) ∧
  decodeChip Enc.datasheet true true 0xD3#8 = .ok (.data 0xD3)

/-- Rules R37, R97: when the chip has taken everything, the port is idle and the host's next word
spells an operation, a step takes the word into OPW and executes that operation. That a step takes the
oldest word of a list of the host's, only once the chip has taken everything, and runs the whole
operation, is the model's choice (logs 1, 9, 20). -/
def Obligations.StepRunsAcceptedOperation : Prop :=
  ∀ (s : State) (w : Word) (rest : List Word) (i : Instr),
    s.wire = [] → s.upc = none → s.hostq = w :: rest → decodeOpw w = .ok i →
    step s = exec i { s with hostq := rest, opw := w }

/-- Rules R79, R84: when a byte has reached the chip, a step has the chip take it: it executes what
the byte is under the mode line and the chip's H. With stray bits of a failed transfer in the shift
register, the byte is the first eight of the bits that stand there once the new ones have arrived, the
stray ones before them or lost, and the others wait; a byte that is no command is ignored (log 10). That
the chip takes one input a step, before the host's next word, is the model's choice (log 9), and so is
what becomes of stray bits (log 8). -/
def Obligations.StepRunsByteTheChipTakes : Prop :=
  (∀ (s : State) (dc : Bool) (b : Byte) (rest : List ChipInput) (i : Instr),
    s.wire = .byte dc b :: rest → s.chip.held = [] →
    decodeChip s.params.enc dc s.chip.h b = .ok i → step s = exec i { s with wire := rest }) ∧
  (∀ (s : State) (e : ChipInput) (dc : Bool) (bits : List Bool) (rest : List ChipInput),
    s.wire = e :: rest → e.bits = some (dc, bits) → s.chip.held ≠ [] →
    8 ≤ (bitsStanding s.chip bits).length → ∃ (b : Byte) (l : List Bool),
      bitsOf b ++ l = bitsStanding s.chip bits ∧
      (∀ i, decodeChip s.params.enc dc s.chip.h b = .ok i → step s = exec i { s with
        wire := rest, chip := { s.chip with held := l, draws := s.chip.draws + 1 } }) ∧
      (∀ err, decodeChip s.params.enc dc s.chip.h b = .error err → step s = .next { s with
        wire := rest, chip := { s.chip with held := l, draws := s.chip.draws + 1 } }))

/-- Steps that execute no instruction: a reset pulse resets the receiver (rule R82), a command byte
the chip does not recognise is ignored (the model's reading of R84, log 10; one with stray bits before
it is in StepRunsByteTheChipTakes), the first bits of a byte wait in the shift register, after the stray
bits that still stand there (log 8), a port that is not idle accepts nothing (R37), and with nothing to
do the block is idle (R248). Whatever reaches the chip, the step is the chip taking it and changes
nothing else. That the chip takes one input a step, and what its registers are after a reset, is the
model's choice (logs 6, 9). -/
def Obligations.StepWithoutInstruction : Prop :=
  (∀ (s : State) (rest : List ChipInput), s.wire = .resetPulse :: rest →
    step s = .next { s with
      wire := rest
      chip := { Chip.afterReset with kind := s.chip.kind, draws := s.chip.draws } }) ∧
  (∀ (s : State) (dc : Bool) (b : Byte) (rest : List ChipInput) (e : DecodeError),
    s.wire = .byte dc b :: rest → s.chip.held = [] →
    decodeChip s.params.enc dc s.chip.h b = .error e → step s = .next { s with wire := rest }) ∧
  (∀ (s : State) (dc : Bool) (k : Fin 8) (b : Byte) (rest : List ChipInput),
    s.wire = .part dc k b :: rest → s.chip.held = [] →
    step s = .next { s with
      wire := rest, chip := { s.chip with held := (bitsOf b).take k.val } }) ∧
  (∀ (s : State) (dc : Bool) (k : Fin 8) (b : Byte) (rest : List ChipInput),
    s.wire = .part dc k b :: rest → s.chip.held ≠ [] →
    (bitsStanding s.chip ((bitsOf b).take k.val)).length < 8 →
    step s = .next { s with
      wire := rest
      chip := { s.chip with
        held := bitsStanding s.chip ((bitsOf b).take k.val), draws := s.chip.draws + 1 } }) ∧
  (∀ (s : State) (e : ChipInput) (rest : List ChipInput), s.wire = e :: rest →
    step s = .next { s with wire := rest, chip := chipTake s.params.enc s.chip e }) ∧
  (∀ s : State, s.wire = [] → (s.upc ≠ none ∨ s.hostq = []) → step s = .next s)

/-- Rule R96: a word that spells no operation is not accepted; the step has no next state. -/
def Obligations.UndefinedWordIsRefused : Prop :=
  ∀ (s : State) (w : Word) (rest : List Word), s.wire = [] → s.upc = none → s.hostq = w :: rest →
    (∀ i, decodeOpw w ≠ .ok i) → ∃ r, step s = .refused r

/-! ## Power-on -/

/-- Rules R43, R160, R161: what NEW leaves, its configuration reduced to the field widths, and
ConstructionError with no block when setup fails (NEW is the model's `powerOn`, log 22). -/
def Obligations.PowerOnStateAsListed : Prop :=
  (∀ (p : Params) (contrast tc bias : Byte) (am : AddrMode) (dm : DispMode), ∃ s : State,
    powerOn p true (cfgOf contrast tc bias am dm) = .next s ∧
    (∀ i, fbRead s.fb i = 0x00#8) ∧ (∀ b : Fin 6, s.dirty[b] = true) ∧
    s.cur = { col := 0, band := 0 } ∧
    s.cfg = { contrast := contrast.extractLsb' 0 7, tc := tc.extractLsb' 0 2,
              bias := bias.extractLsb' 0 3, addrmode := am, dispmode := dm } ∧
    s.ctrl = .uninitialized ∧
    s.lines = { resl := .unknown, dcl := .unknown, csl := .unknown } ∧
    s.txb = [] ∧ s.upc = none ∧ s.lt = [] ∧ s.rslt = 0x00000000#32 ∧
    s.text = { tcol := 0, trow := 0 }) ∧
  (∀ (p : Params) (c : Cfg), powerOn p false c = .fault .constructionError)

/-! ## The mapper and the cursor -/

/-- Rules R62, R63: map is the stated formula, a bijection from the in-range coordinates onto the
pairs (idx, bit) with idx < 504 and bit < 8, with the stated inverse. -/
def Obligations.MapperIsBijection : Prop :=
  (∀ x y : Byte, mapPixel x y = (y.toNat / 8 * 84 + x.toNat, y.toNat % 8)) ∧
  (∀ x y : Byte, x.toNat < 84 → y.toNat < 48 →
    (mapPixel x y).1 < 504 ∧ (mapPixel x y).2 < 8 ∧
    ((mapPixel x y).1 % 84, (mapPixel x y).1 / 84 * 8 + (mapPixel x y).2) = (x.toNat, y.toNat)) ∧
  (∀ x y x' y' : Byte, x.toNat < 84 → y.toNat < 48 → x'.toNat < 84 → y'.toNat < 48 →
    mapPixel x y = mapPixel x' y' → x = x' ∧ y = y') ∧
  (∀ idx bit : Nat, idx < 504 → bit < 8 →
    ∃ x y : Byte, x.toNat < 84 ∧ y.toNat < 48 ∧ mapPixel x y = (idx, bit))

/-- Rules R221, R222: adv is the successor modulo 504 of the linear position in either mode, and 84
steps from column 0 of band b lead to the next band, or to column 14 of the same band. -/
def Obligations.CursorAdvanceIsSuccessor : Prop :=
  (∀ c : Cursor, (advance .horizontal c).band.val * 84 + (advance .horizontal c).col.val =
    (c.band.val * 84 + c.col.val + 1) % 504) ∧
  (∀ c : Cursor, (advance .vertical c).col.val * 6 + (advance .vertical c).band.val =
    (c.col.val * 6 + c.band.val + 1) % 504) ∧
  (∀ b : Fin 6, (advanceN .horizontal 84 { col := 0, band := b }).col = 0 ∧
    (advanceN .horizontal 84 { col := 0, band := b }).band.val = (b.val + 1) % 6) ∧
  (∀ b : Fin 6, advanceN .vertical 84 { col := 0, band := b } = { col := 14, band := b })

/-! ## Framebuffer operations -/

/-- Rule R182: SETPIXEL in range writes its one pixel and marks its band, every other pixel, byte and
flag unchanged; out of range it completes with OutOfBounds and changes nothing but RSLT. -/
def Obligations.SetPixelWritesOnePixel : Prop :=
  ∀ (s : State) (x y : Byte) (v : Bool),
    (x.toNat < 84 → y.toNat < 48 → ∃ t, exec (.setPixel x y v) s = .next t ∧
      (∀ x' y' : Byte, x'.toNat < 84 → y'.toNat < 48 →
        pixelAt t.fb x' y' = if x' = x ∧ y' = y then v else pixelAt s.fb x' y') ∧
      (∀ k, k ≠ mapIdx x y → fbRead t.fb k = fbRead s.fb k) ∧
      (∀ b : Fin 6, b.val = y.toNat / 8 → isDirty t b = true) ∧
      (s.params.granule = .band → ∀ b : Fin 6, b.val ≠ y.toNat / 8 → isDirty t b = isDirty s b) ∧
      t.rslt = 0x00000000#32 ∧
      t = { s with fb := t.fb, dirty := t.dirty, rslt := t.rslt, upc := none }) ∧
    (84 ≤ x.toNat ∨ 48 ≤ y.toNat → exec (.setPixel x y v) s =
      .next { s with rslt := 0x00000003#32, txb := [], upc := none })

/-- Rule R183: CLRPIXEL in range clears its one pixel and marks its band, every other pixel, byte and
flag unchanged; out of range it completes with OutOfBounds and changes nothing but RSLT. -/
def Obligations.ClrPixelClearsOnePixel : Prop :=
  ∀ (s : State) (x y : Byte),
    (x.toNat < 84 → y.toNat < 48 → ∃ t, exec (.clrPixel x y) s = .next t ∧
      (∀ x' y' : Byte, x'.toNat < 84 → y'.toNat < 48 →
        pixelAt t.fb x' y' = if x' = x ∧ y' = y then false else pixelAt s.fb x' y') ∧
      (∀ k, k ≠ mapIdx x y → fbRead t.fb k = fbRead s.fb k) ∧
      (∀ b : Fin 6, b.val = y.toNat / 8 → isDirty t b = true) ∧
      (s.params.granule = .band → ∀ b : Fin 6, b.val ≠ y.toNat / 8 → isDirty t b = isDirty s b) ∧
      t.rslt = 0x00000000#32 ∧
      t = { s with fb := t.fb, dirty := t.dirty, rslt := t.rslt, upc := none }) ∧
    (84 ≤ x.toNat ∨ 48 ≤ y.toNat → exec (.clrPixel x y) s =
      .next { s with rslt := 0x00000003#32, txb := [], upc := none })

/-- Rule R184: GETPIXEL has the word 0x12 ++ x ++ y ++ 0x00; in range it returns the pixel's bit in
RSLT and changes nothing else; out of range it completes with OutOfBounds. -/
def Obligations.GetPixelReadsOnePixel : Prop :=
  (∀ x y : Byte, decodeOpw (0x12#8 ++ x ++ y ++ 0x00#8) = .ok (.getPixel x y)) ∧
  ∀ (s : State) (x y : Byte),
    (x.toNat < 84 → y.toNat < 48 → exec (.getPixel x y) s = .next { s with
      rslt := if (fbRead s.fb (y.toNat / 8 * 84 + x.toNat)).getLsbD (y.toNat % 8)
              then 0x00000100#32 else 0x00000000#32
      upc := none }) ∧
    (84 ≤ x.toNat ∨ 48 ≤ y.toNat → exec (.getPixel x y) s =
      .next { s with rslt := 0x00000003#32, txb := [], upc := none })

/-- Rule R185: CLEAR zeroes every byte and sets every flag, and nothing else. -/
def Obligations.ClearZeroesAllAndMarksAll : Prop :=
  ∀ s : State, ∃ t, exec .clear s = .next t ∧
    (∀ k, fbRead t.fb k = 0x00#8) ∧ (∀ b : Fin 6, t.dirty[b] = true) ∧ t.rslt = 0x00000000#32 ∧
    t = { s with fb := t.fb, dirty := t.dirty, rslt := t.rslt, upc := none }

/-- Rule R188: (a) GETPIXEL after SETPIXEL on reads on; (b) after CLEAR it reads off; (c) SETPIXEL out
of range is OutOfBounds and does not change the framebuffer; (d) a SETPIXEL or a CLRPIXEL changes the
result of GETPIXEL for no other pixel in range. -/
def Obligations.PixelReadsBackAsDrawn : Prop :=
  (∀ (s : State) (x y : Byte), x.toNat < 84 → y.toNat < 48 →
    ∃ t, exec (.setPixel x y true) s = .next t ∧
      exec (.getPixel x y) t = .next { t with rslt := 0x00000100#32 }) ∧
  (∀ (s : State) (x y : Byte), x.toNat < 84 → y.toNat < 48 →
    ∃ t, exec .clear s = .next t ∧ exec (.getPixel x y) t = .next { t with rslt := 0x00000000#32 }) ∧
  (∀ (s : State) (x y : Byte) (v : Bool), 84 ≤ x.toNat ∨ 48 ≤ y.toNat →
    ∃ t, exec (.setPixel x y v) s = .next t ∧ t.rslt = 0x00000003#32 ∧ t.fb = s.fb) ∧
  (∀ (s : State) (i : Instr) (x y x' y' : Byte),
    i = .clrPixel x y ∨ (∃ v, i = .setPixel x y v) → x.toNat < 84 → y.toNat < 48 →
    x'.toNat < 84 → y'.toNat < 48 → (x', y') ≠ (x, y) → ∃ t u w, exec i s = .next t ∧
      exec (.getPixel x' y') t = .next u ∧ exec (.getPixel x' y') s = .next w ∧ u.rslt = w.rslt)

/-! ## The frame -/

/-- Rules R125, R126, R129, R130: a frame whose line actions are all answered ok appends exactly its
trace, leaves TXB empty and the lines at their levels, and its bytes reach the chip in order (that
they wait there in a list is the model's choice, log 9). -/
def Obligations.FrameSuccessOnTheLines : Prop :=
  ∀ (s : State) (dc : Bool) (bytes : List Byte),
    (s.params.hasCsPin = true → answersAre [true, true, true, true] s.env →
      ∃ t, frame dc bytes s = .go t ∧
        t.lt = s.lt ++ [.pin .cs s.params.csActive, .pin .dc dc, .tx (levelOf dc) bytes,
          .pin .cs (!s.params.csActive)] ∧
        t.lines = { s.lines with dcl := levelOf dc, csl := levelOf (!s.params.csActive) } ∧
        t.txb = [] ∧ t.wire = s.wire ++ bytes.map (fun b => .byte dc b) ∧
        t = { s with lt := t.lt, lines := t.lines, txb := t.txb, wire := t.wire, env := t.env }) ∧
    (s.params.hasCsPin = false → answersAre [true, true] s.env →
      ∃ t, frame dc bytes s = .go t ∧
        t.lt = s.lt ++ [.pin .dc dc, .tx (levelOf dc) bytes] ∧
        t.lines = { s.lines with dcl := levelOf dc } ∧
        t.txb = [] ∧ t.wire = s.wire ++ bytes.map (fun b => .byte dc b) ∧
        t = { s with lt := t.lt, lines := t.lines, txb := t.txb, wire := t.wire, env := t.env })

/-- Rules R120, R124, R127: a frame ends with BusError at its first failing line action, with no
clean-up: the trace stops there, a failed pin is at U, chip-select stays as it was driven, TXB is
empty. Of a failed burst some whole bytes and some bits of the next have reached the chip (rule R121:
any part may have); that they wait there in a list is the model's choice (logs 8, 9). -/
def Obligations.FrameFailureStopsAtOnce : Prop :=
  ∀ (s : State) (dc : Bool) (bytes : List Byte),
    (s.params.hasCsPin = true →
      (answersAre [false] s.env → ∃ t, frame dc bytes s = .raised .busError t ∧
        t.lt = s.lt ++ [.pinFail .cs] ∧ t.lines = { s.lines with csl := .unknown } ∧
        t.txb = [] ∧ t.wire = s.wire) ∧
      (answersAre [true, false] s.env → ∃ t, frame dc bytes s = .raised .busError t ∧
        t.lt = s.lt ++ [.pin .cs s.params.csActive, .pinFail .dc] ∧
        t.lines = { s.lines with dcl := .unknown, csl := levelOf s.params.csActive } ∧
        t.txb = [] ∧ t.wire = s.wire) ∧
      (answersAre [true, true, false] s.env → ∃ t, frame dc bytes s = .raised .busError t ∧
        t.lt = s.lt ++ [.pin .cs s.params.csActive, .pin .dc dc, .txFail (levelOf dc) bytes] ∧
        t.lines = { s.lines with dcl := levelOf dc, csl := levelOf s.params.csActive } ∧
        t.txb = [] ∧ ∃ (n : Nat) (k : Fin 8), n ≤ bytes.length ∧ t.wire = s.wire ++
          ((bytes.take n).map (fun b => .byte dc b) ++
            strayBits k (bytes[n]?.map fun b => (dc, b)))) ∧
      (answersAre [true, true, true, false] s.env → ∃ t, frame dc bytes s = .raised .busError t ∧
        t.lt = s.lt ++
          [.pin .cs s.params.csActive, .pin .dc dc, .tx (levelOf dc) bytes, .pinFail .cs] ∧
        t.lines = { s.lines with dcl := levelOf dc, csl := .unknown } ∧
        t.txb = [] ∧ t.wire = s.wire ++ bytes.map (fun b => .byte dc b))) ∧
    (s.params.hasCsPin = false →
      (answersAre [false] s.env → ∃ t, frame dc bytes s = .raised .busError t ∧
        t.lt = s.lt ++ [.pinFail .dc] ∧ t.lines = { s.lines with dcl := .unknown } ∧
        t.txb = [] ∧ t.wire = s.wire) ∧
      (answersAre [true, false] s.env → ∃ t, frame dc bytes s = .raised .busError t ∧
        t.lt = s.lt ++ [.pin .dc dc, .txFail (levelOf dc) bytes] ∧
        t.lines = { s.lines with dcl := levelOf dc } ∧
        t.txb = [] ∧ ∃ (n : Nat) (k : Fin 8), n ≤ bytes.length ∧ t.wire = s.wire ++
          ((bytes.take n).map (fun b => .byte dc b) ++
            strayBits k (bytes[n]?.map fun b => (dc, b)))))

/-- Rule R125 ("Flags written: none"): whatever the answers, a frame either succeeds or raises
BusError, and changes only the lines, the trace (which grows), TXB, the draws and what reaches the
chip. -/
def Obligations.FrameChangesOnlyTheLines : Prop :=
  ∀ (s : State) (dc : Bool) (bytes : List Byte), ∃ t : State,
    (frame dc bytes s = .go t ∨ frame dc bytes s = .raised .busError t) ∧
    t = { s with lt := t.lt, lines := t.lines, txb := [], wire := t.wire, env := t.env } ∧
    t.lines.resl = s.lines.resl ∧ s.lt <+: t.lt ∧ s.wire <+: t.wire

/-- Rules R104, R107: under every ENC that is a code, every command byte the block assembles is, to a
chip under an H that recognises it, the command it stands for. -/
def Obligations.AssembledBytesAreTheirCommands : Prop :=
  ∀ e : Enc, e.wf = true →
  (∀ (s : State) (pd h k : Bool), s.params.enc = e → decodeChip e false k (fsByte s pd h) =
    .ok (.cmdFunctionSet pd (decide (s.cfg.addrmode = .vertical)) h)) ∧
  (∀ m : DispMode, decodeChip e false false (dispByte e m) =
    .ok (.cmdDisplayControl (decide (m = .normal ∨ m = .inverse)) (decide (m = .allOn ∨ m = .inverse)))) ∧
  (∀ c : Cursor, (addressBytes e c).map (decodeChip e false false) =
    [.ok (.cmdSetY (BitVec.ofNat 3 c.band.val)), .ok (.cmdSetX (BitVec.ofNat 7 c.col.val))]) ∧
  (∀ v : BitVec 7, decodeChip e false true (byteVOP e v) = .ok (.cmdSetVop v)) ∧
  (∀ t : BitVec 2, decodeChip e false true (byteTC e t) = .ok (.cmdSetTc t)) ∧
  (∀ b : BitVec 3, decodeChip e false true (byteBIAS e b) = .ok (.cmdSetBias b)) ∧
  (∀ (h : Bool) (d : Byte), decodeChip e true h d = .ok (.data d))

/-- Rules R104, R107: the ENC table of R104, which the parameter ENC has by default, is a code and
gives every command the byte of R107's formulas (values from general knowledge, log 16). -/
def Obligations.CommandBytesAsTabled : Prop :=
  Params.default.enc = Enc.datasheet ∧ Enc.datasheet.wf = true ∧
  (∀ pd v h : Bool, byteFS Enc.datasheet pd v h =
    0x20#8 ||| (if pd then 0x04#8 else 0#8) ||| (if v then 0x02#8 else 0#8) |||
      (if h then 0x01#8 else 0#8)) ∧
  (dispByte Enc.datasheet .blank = 0x08#8 ∧ dispByte Enc.datasheet .allOn = 0x09#8 ∧
    dispByte Enc.datasheet .normal = 0x0C#8 ∧ dispByte Enc.datasheet .inverse = 0x0D#8) ∧
  (∀ y : BitVec 3, byteSETY Enc.datasheet y = 0x40#8 ||| y.setWidth 8) ∧
  (∀ x : BitVec 7, byteSETX Enc.datasheet x = 0x80#8 ||| x.setWidth 8) ∧
  (∀ t : BitVec 2, byteTC Enc.datasheet t = 0x04#8 ||| t.setWidth 8) ∧
  (∀ b : BitVec 3, byteBIAS Enc.datasheet b = 0x10#8 ||| b.setWidth 8) ∧
  (∀ v : BitVec 7, byteVOP Enc.datasheet v = 0x80#8 ||| v.setWidth 8)

/-! ## The controller -/

/-- Rule R162: RESET with both drives of the reset line answered ok pulses it for at least T_RES_MIN,
clears the framebuffer, sets the flags to RESET_DIRTY, homes CUR and leaves InReset, with CFG and all
else unchanged. With a T_RES_POST that is not its default 0 it then waits for at least that long
(where the wait stands in the trace is the model's choice, log 21). -/
def Obligations.ResetPulsesAndClears : Prop :=
  ∀ s : State, answersAre [true, true] s.env → ∃ (t : State) (w v : Nat), exec .reset s = .next t ∧
    s.params.tResMin ≤ w ∧ s.params.tResPost ≤ v ∧
    t.lt = s.lt ++ [.pin .res false, .wait w, .pin .res true] ++
      (if s.params.tResPost = 0 then [] else [.wait v]) ∧
    t.lines = { s.lines with resl := .high } ∧ (∀ k, fbRead t.fb k = 0x00#8) ∧
    (∀ b : Fin 6, t.dirty[b] = s.params.resetDirty) ∧ t.cur = { col := 0, band := 0 } ∧
    t.ctrl = .inReset ∧ t.rslt = 0x00000000#32 ∧
    t = { s with fb := t.fb, dirty := t.dirty, cur := t.cur, ctrl := t.ctrl, lines := t.lines,
                 lt := t.lt, env := t.env, wire := t.wire, rslt := t.rslt, upc := none }

/-- Rule R162: RESET with a failed drive of the reset line completes with PinError and STATE
Uninitialized; framebuffer, flags, cursor and CFG are as they were. -/
def Obligations.ResetPinErrorLeavesMemory : Prop :=
  ∀ s : State, ¬ answersAre [true, true] s.env → ∃ t : State, exec .reset s = .next t ∧
    t.ctrl = .uninitialized ∧ t.rslt = 0x00000002#32 ∧ t.lines = { s.lines with resl := .unknown } ∧
    (answersAre [false] s.env → t.lt = s.lt ++ [.pinFail .res]) ∧
    (answersAre [true, false] s.env → ∃ w, s.params.tResMin ≤ w ∧
      t.lt = s.lt ++ [.pin .res false, .wait w, .pinFail .res]) ∧
    t = { s with ctrl := t.ctrl, lines := t.lines, lt := t.lt, env := t.env, wire := t.wire,
                 rslt := t.rslt, txb := [], upc := none }

/-- Rule R164: INIT from InReset with all answers ok sends its six command frames in order and leaves
Basic with display mode normal recorded; in any other STATE it completes with InvalidState. -/
def Obligations.InitSendsSixCommands : Prop :=
  ∀ s : State,
    (s.ctrl = .inReset → answersOk (6 * frameActions s.params) s.env → exec .init s = .next { s with
      ctrl := .basic
      cfg := { s.cfg with dispmode := .normal }
      lt := s.lt ++ commandEvents s.params
        [fsByte s false true, byteVOP s.params.enc s.cfg.contrast, byteTC s.params.enc s.cfg.tc,
         byteBIAS s.params.enc s.cfg.bias, fsByte s false false, dispByte s.params.enc .normal]
      wire := s.wire ++ chipBytes false
        [fsByte s false true, byteVOP s.params.enc s.cfg.contrast, byteTC s.params.enc s.cfg.tc,
         byteBIAS s.params.enc s.cfg.bias, fsByte s false false, dispByte s.params.enc .normal]
      lines := frameLines s.params false s.lines
      env := skipAnswers (6 * frameActions s.params) s.env
      rslt := 0x00000000#32, txb := [], upc := none }) ∧
    (s.ctrl ≠ .inReset → exec .init s =
      .next { s with rslt := 0x00000004#32, txb := [], upc := none })

/-- Rules R165, R174: INIT with a failing line action completes with BusError: the frames before the
failing one, n of the six, stand in the trace in order, followed by what that frame did up to its
failure and by nothing of a later one; STATE stays InReset if the first frame failed and is
ExtendedConfig if a later one did, and CFG is unchanged. -/
def Obligations.InitFailureIsNotRolledBack : Prop :=
  ∀ s : State, s.ctrl = .inReset → ¬ answersOk (6 * frameActions s.params) s.env →
    ∃ (t : State) (n : Nat) (h : n < (initBytes s).length),
      exec .init s = .next t ∧ t.rslt = 0x00000001#32 ∧
      answersOk (n * frameActions s.params) s.env ∧
      ¬ answersOk ((n + 1) * frameActions s.params) s.env ∧
      (∃ l ∈ failedFrameEvents s.params false [(initBytes s)[n]],
        t.lt = s.lt ++ commandEvents s.params ((initBytes s).take n) ++ l) ∧
      t.ctrl = (if n = 0 then .inReset else .extendedConfig) ∧
      t = { s with ctrl := t.ctrl, lines := t.lines, lt := t.lt, env := t.env, wire := t.wire,
                   rslt := t.rslt, txb := [], upc := none }

/-- Rule R166: SETCONTRAST from Basic with all answers ok sends FS(0,1), VOP(a[6:0]), FS(0,0) and
DISP(CFG.dispmode) as four frames, records the value, and ends in Basic; elsewhere InvalidState. -/
def Obligations.SetContrastSendsAndRecords : Prop :=
  ∀ (s : State) (a : Byte),
    (s.ctrl = .basic → answersOk (4 * frameActions s.params) s.env →
      exec (.setContrast a) s = .next { s with
        cfg := { s.cfg with contrast := a.extractLsb' 0 7 }
        lt := s.lt ++ commandEvents s.params
          [fsByte s false true, byteVOP s.params.enc (a.extractLsb' 0 7),
           fsByte s false false, dispByte s.params.enc s.cfg.dispmode]
        wire := s.wire ++ chipBytes false
          [fsByte s false true, byteVOP s.params.enc (a.extractLsb' 0 7),
           fsByte s false false, dispByte s.params.enc s.cfg.dispmode]
        lines := frameLines s.params false s.lines
        env := skipAnswers (4 * frameActions s.params) s.env
        rslt := 0x00000000#32, txb := [], upc := none }) ∧
    (s.ctrl ≠ .basic → exec (.setContrast a) s =
      .next { s with rslt := 0x00000004#32, txb := [], upc := none })

/-- Rule R167: SETBIAS from Basic with all answers ok sends FS(0,1), BIAS(a[2:0]), FS(0,0) and
DISP(CFG.dispmode) as four frames, records the value, and ends in Basic; elsewhere InvalidState. -/
def Obligations.SetBiasSendsAndRecords : Prop :=
  ∀ (s : State) (a : Byte),
    (s.ctrl = .basic → answersOk (4 * frameActions s.params) s.env →
      exec (.setBias a) s = .next { s with
        cfg := { s.cfg with bias := a.extractLsb' 0 3 }
        lt := s.lt ++ commandEvents s.params
          [fsByte s false true, byteBIAS s.params.enc (a.extractLsb' 0 3),
           fsByte s false false, dispByte s.params.enc s.cfg.dispmode]
        wire := s.wire ++ chipBytes false
          [fsByte s false true, byteBIAS s.params.enc (a.extractLsb' 0 3),
           fsByte s false false, dispByte s.params.enc s.cfg.dispmode]
        lines := frameLines s.params false s.lines
        env := skipAnswers (4 * frameActions s.params) s.env
        rslt := 0x00000000#32, txb := [], upc := none }) ∧
    (s.ctrl ≠ .basic → exec (.setBias a) s =
      .next { s with rslt := 0x00000004#32, txb := [], upc := none })

/-- Rule R168: SETTC from Basic with all answers ok sends FS(0,1), TC(a[1:0]), FS(0,0) and
DISP(CFG.dispmode) as four frames, records the value, and ends in Basic; elsewhere InvalidState. -/
def Obligations.SetTcSendsAndRecords : Prop :=
  ∀ (s : State) (a : Byte),
    (s.ctrl = .basic → answersOk (4 * frameActions s.params) s.env →
      exec (.setTc a) s = .next { s with
        cfg := { s.cfg with tc := a.extractLsb' 0 2 }
        lt := s.lt ++ commandEvents s.params
          [fsByte s false true, byteTC s.params.enc (a.extractLsb' 0 2),
           fsByte s false false, dispByte s.params.enc s.cfg.dispmode]
        wire := s.wire ++ chipBytes false
          [fsByte s false true, byteTC s.params.enc (a.extractLsb' 0 2),
           fsByte s false false, dispByte s.params.enc s.cfg.dispmode]
        lines := frameLines s.params false s.lines
        env := skipAnswers (4 * frameActions s.params) s.env
        rslt := 0x00000000#32, txb := [], upc := none }) ∧
    (s.ctrl ≠ .basic → exec (.setTc a) s =
      .next { s with rslt := 0x00000004#32, txb := [], upc := none })

/-- Rules R169, R174: a configuration operation with a failing line action completes with BusError: the
frames before the failing one, n of the four, stand in the trace in order, followed by what that frame
did up to its failure and by nothing of a later one; the value is recorded exactly if its own frame
succeeded; STATE stays Basic if the first frame failed and is ExtendedConfig if a later one did. -/
def Obligations.ConfigFailureKeepsWhatWasSent : Prop :=
  ∀ (s : State) (i : Instr) (b : Byte) (c : Cfg),
    ((∃ a : Byte, i = .setContrast a ∧ b = byteVOP s.params.enc (a.extractLsb' 0 7) ∧
        c = { s.cfg with contrast := a.extractLsb' 0 7 }) ∨
     (∃ a : Byte, i = .setBias a ∧ b = byteBIAS s.params.enc (a.extractLsb' 0 3) ∧
        c = { s.cfg with bias := a.extractLsb' 0 3 }) ∨
     (∃ a : Byte, i = .setTc a ∧ b = byteTC s.params.enc (a.extractLsb' 0 2) ∧
        c = { s.cfg with tc := a.extractLsb' 0 2 })) →
    s.ctrl = .basic → ¬ answersOk (4 * frameActions s.params) s.env →
    ∃ (t : State) (n : Nat) (h : n < (configBytes b s).length),
      exec i s = .next t ∧ t.rslt = 0x00000001#32 ∧
      answersOk (n * frameActions s.params) s.env ∧
      ¬ answersOk ((n + 1) * frameActions s.params) s.env ∧
      (∃ l ∈ failedFrameEvents s.params false [(configBytes b s)[n]],
        t.lt = s.lt ++ commandEvents s.params ((configBytes b s).take n) ++ l) ∧
      t.ctrl = (if n = 0 then .basic else .extendedConfig) ∧
      t.cfg = (if n < 2 then s.cfg else c) ∧
      t = { s with ctrl := t.ctrl, cfg := t.cfg, lines := t.lines, lt := t.lt, env := t.env,
                   wire := t.wire, rslt := t.rslt, txb := [], upc := none }

/-- Rule R170: PWRDOWN from Basic sends FS(1,0) and leaves PoweredDown; with a failing line action it
completes with BusError and stays in Basic; elsewhere InvalidState. -/
def Obligations.PwrDownSendsOneCommand : Prop :=
  ∀ s : State,
    (s.ctrl = .basic → answersOk (frameActions s.params) s.env → exec .pwrDown s = .next { s with
      ctrl := .poweredDown
      lt := s.lt ++ frameEvents s.params false [fsByte s true false]
      wire := s.wire ++ chipBytes false [fsByte s true false]
      lines := frameLines s.params false s.lines
      env := skipAnswers (frameActions s.params) s.env
      rslt := 0x00000000#32, txb := [], upc := none }) ∧
    (s.ctrl = .basic → ¬ answersOk (frameActions s.params) s.env →
      ∃ t : State, exec .pwrDown s = .next t ∧ t.rslt = 0x00000001#32 ∧ t.ctrl = .basic ∧
        (∃ l ∈ failedFrameEvents s.params false [fsByte s true false], t.lt = s.lt ++ l) ∧
        t = { s with lines := t.lines, lt := t.lt, env := t.env, wire := t.wire, rslt := t.rslt,
                     txb := [], upc := none }) ∧
    (s.ctrl ≠ .basic → exec .pwrDown s =
      .next { s with rslt := 0x00000004#32, txb := [], upc := none })

/-- Rule R171: PWRUP from PoweredDown sends FS(0,0) and leaves Basic; with a failing line action it
completes with BusError and stays in PoweredDown; elsewhere InvalidState. -/
def Obligations.PwrUpSendsOneCommand : Prop :=
  ∀ s : State,
    (s.ctrl = .poweredDown → answersOk (frameActions s.params) s.env → exec .pwrUp s = .next { s with
      ctrl := .basic
      lt := s.lt ++ frameEvents s.params false [fsByte s false false]
      wire := s.wire ++ chipBytes false [fsByte s false false]
      lines := frameLines s.params false s.lines
      env := skipAnswers (frameActions s.params) s.env
      rslt := 0x00000000#32, txb := [], upc := none }) ∧
    (s.ctrl = .poweredDown → ¬ answersOk (frameActions s.params) s.env →
      ∃ t : State, exec .pwrUp s = .next t ∧ t.rslt = 0x00000001#32 ∧ t.ctrl = .poweredDown ∧
        (∃ l ∈ failedFrameEvents s.params false [fsByte s false false], t.lt = s.lt ++ l) ∧
        t = { s with lines := t.lines, lt := t.lt, env := t.env, wire := t.wire, rslt := t.rslt,
                     txb := [], upc := none }) ∧
    (s.ctrl ≠ .poweredDown → exec .pwrUp s =
      .next { s with rslt := 0x00000004#32, txb := [], upc := none })

/-- Rules R244, R252: every operation completes; it completes with InvalidState exactly in the states
the table of R252 refuses, and then every piece of state but RSLT is as it was (TXB and UPC, which are
empty and idle between operations, are left empty and idle). -/
def Obligations.StateGuardsAsTabled : Prop :=
  ∀ (i : Instr) (s : State), i.isOperation = true →
    (allowedIn i s.ctrl = false →
      exec i s = .next { s with rslt := 0x00000004#32, txb := [], upc := none }) ∧
    (allowedIn i s.ctrl = false → s.txb = [] → s.upc = none →
      exec i s = .next { s with rslt := 0x00000004#32 }) ∧
    (allowedIn i s.ctrl = true → ∃ t : State, exec i s = .next t ∧ resultStatus t.rslt ≠ 4#8)

/-- Rule R242: PinError is raised by RESET, when a drive of the reset line fails, and by no other
operation; a failing line action of a frame is BusError. -/
def Obligations.PinErrorOnlyFromReset : Prop :=
  (∀ (i : Instr) (s : State), i.isOperation = true → ∃ t : State, exec i s = .next t ∧
    (resultStatus t.rslt = 2#8 ↔ i = .reset ∧ ¬ answersAre [true, true] s.env)) ∧
  (∀ (s : State) (dc : Bool) (bytes : List Byte), ¬ answersOk (frameActions s.params) s.env →
    ∃ t : State, frame dc bytes s = .raised .busError t)

/-- Rule R243: OutOfBounds is the completion of SETPIXEL, CLRPIXEL and GETPIXEL exactly when x ≥ 84 or
y ≥ 48, and of SETADDR, once its guard has passed, exactly when band ≥ 6 or col ≥ 84; of no other
operation; and nothing but RSLT has been written then (TXB and UPC are left empty and idle). -/
def Obligations.OutOfBoundsExactlyWhenOutOfRange : Prop :=
  ∀ (i : Instr) (s : State), i.isOperation = true → ∃ t : State, exec i s = .next t ∧
    (resultStatus t.rslt = 3#8 ↔
      (∃ x y v, i = .setPixel x y v ∧ (84 ≤ x.toNat ∨ 48 ≤ y.toNat)) ∨
      (∃ x y, i = .clrPixel x y ∧ (84 ≤ x.toNat ∨ 48 ≤ y.toNat)) ∨
      (∃ x y, i = .getPixel x y ∧ (84 ≤ x.toNat ∨ 48 ≤ y.toNat)) ∨
      (∃ band col, i = .setAddr band col ∧ s.ctrl = .basic ∧ (6 ≤ band.toNat ∨ 84 ≤ col.toNat))) ∧
    (resultStatus t.rslt = 3#8 → t = { s with rslt := 0x00000003#32, txb := [], upc := none })

/-- Rule R253: the transitions of STATE, complete, row by row (F is a frame's number of line
actions, so `answersOk F` says that the first frame succeeds). -/
def Obligations.StateTransitionsAsTabled : Prop :=
  (∀ (p : Params) (c : Cfg) (s : State), powerOn p true c = .next s → s.ctrl = .uninitialized) ∧
  ∀ (i : Instr) (s t : State), i.isOperation = true → exec i s = .next t →
    match i with
    | .reset => (resultStatus t.rslt = 0#8 ∧ t.ctrl = .inReset) ∨
        (resultStatus t.rslt = 2#8 ∧ t.ctrl = .uninitialized)
    | .init => (resultStatus t.rslt = 0#8 ∧ s.ctrl = .inReset ∧ t.ctrl = .basic) ∨
        (resultStatus t.rslt = 1#8 ∧ s.ctrl = .inReset ∧
          ¬ answersOk (frameActions s.params) s.env ∧ t.ctrl = .inReset) ∨
        (resultStatus t.rslt = 1#8 ∧ s.ctrl = .inReset ∧
          answersOk (frameActions s.params) s.env ∧ t.ctrl = .extendedConfig) ∨
        (resultStatus t.rslt = 4#8 ∧ t.ctrl = s.ctrl)
    | .setContrast _ | .setBias _ | .setTc _ =>
        (resultStatus t.rslt = 0#8 ∧ s.ctrl = .basic ∧ t.ctrl = .basic) ∨
        (resultStatus t.rslt = 1#8 ∧ s.ctrl = .basic ∧
          ¬ answersOk (frameActions s.params) s.env ∧ t.ctrl = .basic) ∨
        (resultStatus t.rslt = 1#8 ∧ s.ctrl = .basic ∧
          answersOk (frameActions s.params) s.env ∧ t.ctrl = .extendedConfig) ∨
        (resultStatus t.rslt = 4#8 ∧ t.ctrl = s.ctrl)
    | .pwrDown => (resultStatus t.rslt = 0#8 ∧ s.ctrl = .basic ∧ t.ctrl = .poweredDown) ∨
        (resultStatus t.rslt = 1#8 ∧ s.ctrl = .basic ∧ t.ctrl = .basic) ∨
        (resultStatus t.rslt = 4#8 ∧ t.ctrl = s.ctrl)
    | .pwrUp => (resultStatus t.rslt = 0#8 ∧ s.ctrl = .poweredDown ∧ t.ctrl = .basic) ∨
        (resultStatus t.rslt = 1#8 ∧ s.ctrl = .poweredDown ∧ t.ctrl = .poweredDown) ∨
        (resultStatus t.rslt = 4#8 ∧ t.ctrl = s.ctrl)
    | _ => t.ctrl = s.ctrl

/-! ## Address window and flush -/

/-- Rules R223, R249: SETADDR in Basic and in range, all answers ok, sends the row byte and the column
byte in one frame and mirrors the address; a failing line action leaves CUR; out of range is
OutOfBounds; and the guard comes before the range. -/
def Obligations.SetAddrSendsThenMirrors : Prop :=
  ∀ (s : State) (band col : Byte),
    (s.ctrl = .basic → ∀ (hb : band.toNat < 6) (hc : col.toNat < 84),
      answersOk (frameActions s.params) s.env → exec (.setAddr band col) s = .next { s with
        cur := { col := ⟨col.toNat, hc⟩, band := ⟨band.toNat, hb⟩ }
        lt := s.lt ++ frameEvents s.params false
          [byteSETY s.params.enc (band.setWidth 3), byteSETX s.params.enc (col.setWidth 7)]
        wire := s.wire ++ chipBytes false
          [byteSETY s.params.enc (band.setWidth 3), byteSETX s.params.enc (col.setWidth 7)]
        lines := frameLines s.params false s.lines
        env := skipAnswers (frameActions s.params) s.env
        rslt := 0x00000000#32, txb := [], upc := none }) ∧
    (s.ctrl = .basic → band.toNat < 6 → col.toNat < 84 → ¬ answersOk (frameActions s.params) s.env →
      ∃ t : State, exec (.setAddr band col) s = .next t ∧ t.rslt = 0x00000001#32 ∧
        (∃ l ∈ failedFrameEvents s.params false
          [byteSETY s.params.enc (band.setWidth 3), byteSETX s.params.enc (col.setWidth 7)],
          t.lt = s.lt ++ l) ∧
        t = { s with lines := t.lines, lt := t.lt, env := t.env, wire := t.wire, rslt := t.rslt,
                     txb := [], upc := none }) ∧
    (s.ctrl = .basic → 6 ≤ band.toNat ∨ 84 ≤ col.toNat → exec (.setAddr band col) s =
      .next { s with rslt := 0x00000003#32, txb := [], upc := none }) ∧
    (s.ctrl ≠ .basic → exec (.setAddr band col) s =
      .next { s with rslt := 0x00000004#32, txb := [], upc := none })

/-- Rules R226, R229: FLUSH in Basic with all answers ok sends exactly the bands to be sent, in
ascending order, each as an address frame and a data frame of its 84 bytes; afterwards no band is
dirty, CUR is where the last burst left it, and the framebuffer is untouched. -/
def Obligations.FlushSendsExactlyDirtyBands : Prop :=
  ∀ s : State, s.ctrl = .basic →
    answersOk (2 * frameActions s.params * (sentBands s).length) s.env →
    ∃ t : State, exec .flush s = .next t ∧
      t.lt = s.lt ++ (sentBands s).flatMap (bandEvents s.params s.fb) ∧
      (∀ b : Fin 6, isDirty t b = false) ∧
      t.cur = cursorAfter s.cfg.addrmode (sentBands s) s.cur ∧ t.rslt = 0x00000000#32 ∧
      t = { s with dirty := t.dirty, cur := t.cur, lines := t.lines, lt := t.lt, env := t.env,
                   wire := t.wire, txb := t.txb, rslt := t.rslt, upc := none }

/-- Rule R227: FLUSH with a failing line action completes with BusError in Basic: the bands before the
failing one have been sent and cleared, the failing one and the later ones keep their flags, CUR has
the last value a successful step gave it, the trace holds the frames sent, what the failing frame did
up to its failure and nothing after it, and the framebuffer is untouched. -/
def Obligations.FailedFlushCanResume : Prop :=
  ∀ s : State, s.ctrl = .basic → s.params.granule = .band →
    ¬ answersOk (2 * frameActions s.params * (sentBands s).length) s.env →
    ∃ (t : State) (sent : List (Fin 6)) (b : Fin 6) (left : List (Fin 6)),
      exec .flush s = .next t ∧ t.rslt = 0x00000001#32 ∧ sentBands s = sent ++ b :: left ∧
      answersOk (2 * frameActions s.params * sent.length) s.env ∧
      ¬ answersOk (2 * frameActions s.params * (sent.length + 1)) s.env ∧
      (∀ c ∈ sent, isDirty t c = false) ∧ (∀ c, c ∉ sent → isDirty t c = isDirty s c) ∧
      (¬ answersOk (2 * frameActions s.params * sent.length + frameActions s.params) s.env →
        t.cur = cursorAfter s.cfg.addrmode sent s.cur ∧
        ∃ l ∈ failedFrameEvents s.params false (addressBytes s.params.enc { col := 0, band := b }),
          t.lt = s.lt ++ sent.flatMap (bandEvents s.params s.fb) ++ l) ∧
      (answersOk (2 * frameActions s.params * sent.length + frameActions s.params) s.env →
        t.cur = { col := 0, band := b } ∧
        ∃ l ∈ failedFrameEvents s.params true (bandBytes s.fb b),
          t.lt = s.lt ++ sent.flatMap (bandEvents s.params s.fb) ++
            frameEvents s.params false (addressBytes s.params.enc { col := 0, band := b }) ++ l) ∧
      t = { s with dirty := t.dirty, cur := t.cur, lines := t.lines, lt := t.lt, env := t.env,
                   wire := t.wire, rslt := t.rslt, txb := [], upc := none }

/-- Rule R228: with one dirty flag for the whole buffer, FLUSH with a failing line action completes
with BusError in Basic; the bands before the failing one have been sent and the flag is as it was, so
the next FLUSH sends all six bands again; CUR, the trace and the framebuffer are as rule R227 says. -/
def Obligations.FailedWholeBufferFlushSendsAllAgain : Prop :=
  ∀ s : State, s.ctrl = .basic → s.params.granule = .whole →
    ¬ answersOk (2 * frameActions s.params * (sentBands s).length) s.env →
    ∃ (t : State) (sent : List (Fin 6)) (b : Fin 6) (left : List (Fin 6)),
      exec .flush s = .next t ∧ t.rslt = 0x00000001#32 ∧
      ([0, 1, 2, 3, 4, 5] : List (Fin 6)) = sent ++ b :: left ∧
      answersOk (2 * frameActions s.params * sent.length) s.env ∧
      ¬ answersOk (2 * frameActions s.params * (sent.length + 1)) s.env ∧
      (∀ c, isDirty t c = isDirty s c) ∧ sentBands t = [0, 1, 2, 3, 4, 5] ∧
      (¬ answersOk (2 * frameActions s.params * sent.length + frameActions s.params) s.env →
        t.cur = cursorAfter s.cfg.addrmode sent s.cur ∧
        ∃ l ∈ failedFrameEvents s.params false (addressBytes s.params.enc { col := 0, band := b }),
          t.lt = s.lt ++ sent.flatMap (bandEvents s.params s.fb) ++ l) ∧
      (answersOk (2 * frameActions s.params * sent.length + frameActions s.params) s.env →
        t.cur = { col := 0, band := b } ∧
        ∃ l ∈ failedFrameEvents s.params true (bandBytes s.fb b),
          t.lt = s.lt ++ sent.flatMap (bandEvents s.params s.fb) ++
            frameEvents s.params false (addressBytes s.params.enc { col := 0, band := b }) ++ l) ∧
      t = { s with cur := t.cur, lines := t.lines, lt := t.lt, env := t.env, wire := t.wire,
                   rslt := t.rslt, txb := [], upc := none }

/-- Rule R231, under the receiver assumptions R79, R80 and R84 as the model takes them (the receiver is
log 6, its one input a step log 9): FLUSH with all answers ok, in horizontal addressing and under an
ENC that is a code, to a chip in the basic instruction set, not powered down, horizontal and without
stray bits (log 8), is followed by steps of the chip alone after which every band sent is shown byte
for byte and every byte of the other rows is as it was. -/
def Obligations.FlushMakesDdramEqual : Prop :=
  ∀ s : State, s.ctrl = .basic → s.wire = [] → s.cfg.addrmode = .horizontal →
    s.params.enc.wf = true → s.chip.held = [] →
    s.chip.h = false → s.chip.pd = false → s.chip.v = .horizontal →
    answersOk (2 * frameActions s.params * (sentBands s).length) s.env →
    ∃ t u : State, exec .flush s = .next t ∧ Host.Core.run core t.wire.length t = .next u ∧
      u.fb = s.fb ∧ u.wire = [] ∧ u = { t with chip := u.chip, wire := [] } ∧
      (∀ b ∈ sentBands s, rowShown u.chip s.fb b) ∧
      (∀ b, b ∉ sentBands s → ∀ k < 84,
        ddramRead u.chip.ddram (bandIndex b k) = ddramRead s.chip.ddram (bandIndex b k))

/-! ## Text and drawing adapters -/

/-- Rules R205, R206, R207: WRCHAR of newline moves the cursor to column 0 of the next row, row 0 after
the last, and draws nothing. -/
def Obligations.NewlineMovesToNextRow : Prop :=
  ∀ s : State, ∃ t : State, exec (.wrChar 0x0A#8) s = .next t ∧
    t.text.tcol = 0 ∧ t.text.trow.val = (s.text.trow.val + 1) % 6 ∧ t.rslt = 0x00000000#32 ∧
    t = { s with text := t.text, rslt := t.rslt, upc := none }

/-- Rules R204, R206, R207, R208: WRCHAR of another code puts the five glyph bytes of the code, or the
solid block, into its cell, leaves every other byte (the spacing column too) unchanged, marks the row's
band and moves the cursor one cell on with eager wrap. -/
def Obligations.WrCharDrawsOneCell : Prop :=
  ∀ (s : State) (c : Byte), c ≠ 0x0A#8 → ∃ t : State, exec (.wrChar c) s = .next t ∧
    (∀ g, s.params.font.find? (fun e => e.1 == c) = some g →
      ∀ (k : Nat) (hk : k < 5), fbRead t.fb (84 * s.text.trow.val + 6 * s.text.tcol.val + k) = g.2[k]) ∧
    (s.params.font.find? (fun e => e.1 == c) = none →
      ∀ k < 5, fbRead t.fb (84 * s.text.trow.val + 6 * s.text.tcol.val + k) = 0xFF#8) ∧
    (∀ a, (∀ k < 5, a ≠ 84 * s.text.trow.val + 6 * s.text.tcol.val + k) →
      fbRead t.fb a = fbRead s.fb a) ∧
    isDirty t s.text.trow = true ∧
    (s.params.granule = .band → ∀ b, b ≠ s.text.trow → isDirty t b = isDirty s b) ∧
    (s.text.tcol.val < 13 → t.text.tcol.val = s.text.tcol.val + 1 ∧ t.text.trow = s.text.trow) ∧
    (s.text.tcol.val = 13 → t.text.tcol = 0 ∧ t.text.trow.val = (s.text.trow.val + 1) % 6) ∧
    t.rslt = 0x00000000#32 ∧
    t = { s with fb := t.fb, dirty := t.dirty, text := t.text, rslt := t.rslt, upc := none }

/-- Rule R216: GEOMETRY has the word 0x28000000, returns 84 and 48 and changes nothing but RSLT. -/
def Obligations.GeometryReturnsWidthAndHeight : Prop :=
  decodeOpw 0x28000000#32 = .ok .geometry ∧
  ∀ s : State, exec .geometry s = .next { s with rslt := 0x00543000#32, upc := none }

/-- Rule R217: DRAWPIXEL has the word 0x29 ++ x ++ y ++ colour; in range it has the next state of
SETPIXEL x, y, 1 for colour 1 and of CLRPIXEL x, y for colour 0; out of range it is dropped with Ok. -/
def Obligations.DrawPixelDelegatesOrDrops : Prop :=
  (∀ (x y : Byte) (v : Bool),
    decodeOpw (0x29#8 ++ x ++ y ++ (if v then 0x01#8 else 0x00#8)) = .ok (.drawPixel x y v)) ∧
  ∀ (s : State) (x y : Byte),
    (x.toNat < 84 → y.toNat < 48 → ∃ t, exec (.drawPixel x y true) s = .next t ∧
      exec (.setPixel x y true) s = .next t ∧ t.rslt = 0x00000000#32) ∧
    (x.toNat < 84 → y.toNat < 48 → ∃ t, exec (.drawPixel x y false) s = .next t ∧
      exec (.clrPixel x y) s = .next t ∧ t.rslt = 0x00000000#32) ∧
    (84 ≤ x.toNat ∨ 48 ≤ y.toNat → ∀ v, exec (.drawPixel x y v) s =
      .next { s with rslt := 0x00000000#32, upc := none })

/-! ## The receiver -/

/-- Rules R141, R142, R145, R146, R147: FUNCTION_SET, DISPLAY_CONTROL, SET_TC, SET_BIAS and SET_VOP
give the receiver's registers their operands and change nothing of the block and nothing else of the
chip, but for what a chip does not keep: when it is powered down before or after a FUNCTION_SET, by its
kind its settings and DDRAM (rule R261 is silent; log 23), and when FUNCTION_SET enters the extended
instruction set, by its kind its display mode (rule R83 gives two accounts; log 24). -/
def Obligations.ChipModeCommandsSetTheirRegister : Prop :=
  ∀ s : State,
    (∀ pd v h, ∃ c : Chip, exec (.cmdFunctionSet pd v h) s = .next { s with chip := c } ∧
      c.pd = pd ∧ c.v = (if v then .vertical else .horizontal) ∧ c.h = h ∧
      c.held = s.chip.held ∧ c.kind = s.chip.kind ∧
      (s.chip.kind.settings = true ∨ (s.chip.pd = false ∧ pd = false) →
        c.addr = s.chip.addr ∧ c.tc = s.chip.tc ∧ c.bias = s.chip.bias ∧ c.vop = s.chip.vop ∧
        (s.chip.kind.display = true ∨ h = false → c.disp = s.chip.disp)) ∧
      (s.chip.kind.ddram = true ∨ (s.chip.pd = false ∧ pd = false) → c.ddram = s.chip.ddram) ∧
      (s.chip.kind.ddram = false → s.chip.pd = true ∨ pd = true →
        ∀ a, ddramRead c.ddram a = none)) ∧
    (exec (.cmdDisplayControl false false) s = .next { s with chip := { s.chip with disp := .blank } } ∧
     exec (.cmdDisplayControl false true) s = .next { s with chip := { s.chip with disp := .allOn } } ∧
     exec (.cmdDisplayControl true false) s = .next { s with chip := { s.chip with disp := .normal } } ∧
     exec (.cmdDisplayControl true true) s =
      .next { s with chip := { s.chip with disp := .inverse } }) ∧
    (∀ k, exec (.cmdSetTc k) s = .next { s with chip := { s.chip with tc := k } }) ∧
    (∀ k, exec (.cmdSetBias k) s = .next { s with chip := { s.chip with bias := k } }) ∧
    (∀ k, exec (.cmdSetVop k) s = .next { s with chip := { s.chip with vop := k } })

/-- Rules R143, R144: SET_Y and SET_X set the row and the column of the receiver's address counter and
change nothing else; an operand outside the range leaves some row or column there (log 11). -/
def Obligations.ChipAddressCommandsSetTheCounter : Prop :=
  ∀ s : State,
    (∀ (y : BitVec 3) (hy : y.toNat < 6), exec (.cmdSetY y) s =
      .next { s with chip := { s.chip with addr := { s.chip.addr with band := ⟨y.toNat, hy⟩ } } }) ∧
    (∀ (x : BitVec 7) (hx : x.toNat < 84), exec (.cmdSetX x) s =
      .next { s with chip := { s.chip with addr := { s.chip.addr with col := ⟨x.toNat, hx⟩ } } }) ∧
    (∀ y : BitVec 3, ∃ b, exec (.cmdSetY y) s =
      .next { s with chip := { s.chip with addr := { s.chip.addr with band := b } } }) ∧
    (∀ x : BitVec 7, ∃ c, exec (.cmdSetX x) s =
      .next { s with chip := { s.chip with addr := { s.chip.addr with col := c } } })

/-- Rules R79, R80, R81, R148: a data byte is written to DDRAM at the address counter, every other byte
of DDRAM is unchanged, and the counter advances; a powered-down chip ignores it, counter included (the
model's reading of R81, log 12). -/
def Obligations.DataByteWritesDdramAndAdvances : Prop :=
  ∀ (s : State) (d : Byte),
    (s.chip.pd = false → ∃ t : State, exec (.data d) s = .next t ∧
      (∀ a, ddramRead t.chip.ddram a =
        if a = s.chip.addr.band.val * 84 + s.chip.addr.col.val then some d
        else ddramRead s.chip.ddram a) ∧
      t.chip.addr = advance s.chip.v s.chip.addr ∧
      t = { s with chip := { s.chip with ddram := t.chip.ddram, addr := t.chip.addr } }) ∧
    (s.chip.pd = true → exec (.data d) s = .next s)

/-! ## Rules of the whole machine -/

/-- Rule R85: the chip cannot influence the block. An operation's next state is the same whatever the
chip holds, and the chip's own instructions change nothing but the chip. -/
def Obligations.ChipNeverInfluencesBlock : Prop :=
  (∀ (i : Instr) (s : State) (c : Chip), i.isOperation = true → ∃ t : State, exec i s = .next t ∧
    exec i { s with chip := c } = .next { t with chip := c }) ∧
  (∀ (i : Instr) (s : State), i.isOperation = false → ∃ c, exec i s = .next { s with chip := c })

/-- Rules R23, R29, R31, R33, R40, R45: whole-machine frame. No instruction changes the parameters, the
addressing mode or OPW; only the pixel, text, clear and reset operations write the framebuffer; only
INIT changes the display mode, and to normal; only SETADDR, FLUSH and RESET write CUR; only WRCHAR
writes the text cursor; only RESET, INIT, the configuration operations and power control write STATE;
the dirty flags are set only by the writers of the framebuffer and cleared only by FLUSH, and by RESET
when RESET_DIRTY is 0. -/
def Obligations.OnlyListedWritersWrite : Prop :=
  ∀ (i : Instr) (s t : State), exec i s = .next t →
    t.params = s.params ∧ t.opw = s.opw ∧ t.hostq = s.hostq ∧ t.cfg.addrmode = s.cfg.addrmode ∧
    (t.cfg.dispmode = s.cfg.dispmode ∨ (i = .init ∧ t.cfg.dispmode = .normal)) ∧
    (t.cfg.contrast = s.cfg.contrast ∨ ∃ a, i = .setContrast a) ∧
    (t.cfg.bias = s.cfg.bias ∨ ∃ a, i = .setBias a) ∧
    (t.cfg.tc = s.cfg.tc ∨ ∃ a, i = .setTc a) ∧
    (t.fb = s.fb ∨ i = .clear ∨ i = .reset ∨ (∃ c, i = .wrChar c) ∨ (∃ x y, i = .clrPixel x y) ∨
      (∃ x y v, i = .setPixel x y v) ∨ ∃ x y v, i = .drawPixel x y v) ∧
    (t.cur = s.cur ∨ i = .reset ∨ i = .flush ∨ ∃ b c, i = .setAddr b c) ∧
    (t.text = s.text ∨ ∃ c, i = .wrChar c) ∧
    (t.ctrl = s.ctrl ∨ i = .reset ∨ i = .init ∨ i = .pwrDown ∨ i = .pwrUp ∨
      (∃ a, i = .setContrast a) ∨ (∃ a, i = .setBias a) ∨ ∃ a, i = .setTc a) ∧
    (t.dirty = s.dirty ∨ i = .flush ∨ i = .clear ∨ i = .reset ∨ (∃ c, i = .wrChar c) ∨
      (∃ x y, i = .clrPixel x y) ∨ (∃ x y v, i = .setPixel x y v) ∨ ∃ x y v, i = .drawPixel x y v) ∧
    (∀ b, isDirty s b = true → isDirty t b = false →
      i = .flush ∨ (i = .reset ∧ s.params.resetDirty = false)) ∧
    (∀ b, isDirty s b = false → isDirty t b = true → i ≠ .flush)

/-- Rules R44, R180: the line trace only grows, and the framebuffer and adapter operations and the
chip's own instructions never extend it nor touch a line. -/
def Obligations.TraceOnlyGrows : Prop :=
  ∀ (i : Instr) (s t : State), exec i s = .next t → s.lt <+: t.lt ∧
    (i.isOperation = false ∨ i = .clear ∨ i = .geometry ∨ (∃ c, i = .wrChar c) ∨
      (∃ x y, i = .clrPixel x y) ∨ (∃ x y, i = .getPixel x y) ∨ (∃ x y v, i = .setPixel x y v) ∨
      (∃ x y v, i = .drawPixel x y v) → t.lt = s.lt ∧ t.lines = s.lines ∧ t.env = s.env)

/-- Rule R43: the invariant Inv holds after power-on with every setting of the parameters and every
configuration, and so at the model's reset state (whose configuration is the model's choice, log 4).
That the chip's shift register then holds no whole byte, and its DDRAM lists nothing, is the model's
choice (logs 6, 13). -/
def Obligations.InvariantAtReset : Prop :=
  (∀ (p : Params) (c : Cfg), Inv (State.initial p c)) ∧ Inv State.reset

/-- Rules R35, R46 (c), R100: every step from every state with Inv keeps Inv: TXB empty, UPC idle, both
memories in canonical form, RSLT in its layout, the latches the levels last driven, and no whole byte
left in the chip's shift register (log 8). -/
def Obligations.InvariantKeptByEveryStep : Prop :=
  ∀ s t : State, Inv s → step s = .next t → Inv t

/-- Rules R32, R43: the block and the chip are in step after power-on with every setting of the
parameters and every configuration, and so at the model's reset state: every band is dirty and STATE
promises nothing. That the chip's shift register is empty at power-on, which is part of being in step,
is the model's choice (log 6); no rule says what it holds then. -/
def Obligations.ShadowAtReset : Prop :=
  (∀ (p : Params) (c : Cfg), InSync (State.initial p c)) ∧ InSync State.reset

/-- Rules R32, R46 (e), R76, R105, R231, under the receiver assumptions as modelled (log 6): in
horizontal addressing, with RESET_DIRTY = 1, under an ENC that is a code and with a chip of a kind that
keeps DDRAM across power-down (log 23), every step whose line actions are answered ok (48 answers cover
every operation) keeps the framebuffer with its dirty flags a shadow of DDRAM and STATE in agreement
with the chip's modes. -/
def Obligations.ShadowKeptWithoutFailures : Prop :=
  ∀ s t : State, InSync s → s.cfg.addrmode = .horizontal → s.params.resetDirty = true →
    s.params.enc.wf = true → s.chip.kind.ddram = true →
    answersOk 48 s.env → step s = .next t → InSync t
end

