-- ==== Sys2Proof/Laws/State.lean ====
section
/-! SUPPORT. What each update of State does to each field, one lemma per field per update. -/

namespace Sys2Proof.Machine.State

variable (s : State)

@[simp] theorem setFb_params (m : Memory) : (s.setFb m).params = s.params := rfl
@[simp] theorem setFb_fb (m : Memory) : (s.setFb m).fb = m := rfl
@[simp] theorem setFb_cur (m : Memory) : (s.setFb m).cur = s.cur := rfl
@[simp] theorem setFb_cfg (m : Memory) : (s.setFb m).cfg = s.cfg := rfl
@[simp] theorem setFb_ctrl (m : Memory) : (s.setFb m).ctrl = s.ctrl := rfl
@[simp] theorem setFb_dirty (m : Memory) : (s.setFb m).dirty = s.dirty := rfl
@[simp] theorem setFb_opw (m : Memory) : (s.setFb m).opw = s.opw := rfl
@[simp] theorem setFb_rslt (m : Memory) : (s.setFb m).rslt = s.rslt := rfl
@[simp] theorem setFb_lines (m : Memory) : (s.setFb m).lines = s.lines := rfl
@[simp] theorem setFb_txb (m : Memory) : (s.setFb m).txb = s.txb := rfl
@[simp] theorem setFb_upc (m : Memory) : (s.setFb m).upc = s.upc := rfl
@[simp] theorem setFb_lt (m : Memory) : (s.setFb m).lt = s.lt := rfl
@[simp] theorem setFb_text (m : Memory) : (s.setFb m).text = s.text := rfl
@[simp] theorem setFb_env (m : Memory) : (s.setFb m).env = s.env := rfl
@[simp] theorem setFb_chip (m : Memory) : (s.setFb m).chip = s.chip := rfl
@[simp] theorem setFb_wire (m : Memory) : (s.setFb m).wire = s.wire := rfl
@[simp] theorem setFb_hostq (m : Memory) : (s.setFb m).hostq = s.hostq := rfl

@[simp] theorem setCur_params (c : Cursor) : (s.setCur c).params = s.params := rfl
@[simp] theorem setCur_fb (c : Cursor) : (s.setCur c).fb = s.fb := rfl
@[simp] theorem setCur_cur (c : Cursor) : (s.setCur c).cur = c := rfl
@[simp] theorem setCur_cfg (c : Cursor) : (s.setCur c).cfg = s.cfg := rfl
@[simp] theorem setCur_ctrl (c : Cursor) : (s.setCur c).ctrl = s.ctrl := rfl
@[simp] theorem setCur_dirty (c : Cursor) : (s.setCur c).dirty = s.dirty := rfl
@[simp] theorem setCur_opw (c : Cursor) : (s.setCur c).opw = s.opw := rfl
@[simp] theorem setCur_rslt (c : Cursor) : (s.setCur c).rslt = s.rslt := rfl
@[simp] theorem setCur_lines (c : Cursor) : (s.setCur c).lines = s.lines := rfl
@[simp] theorem setCur_txb (c : Cursor) : (s.setCur c).txb = s.txb := rfl
@[simp] theorem setCur_upc (c : Cursor) : (s.setCur c).upc = s.upc := rfl
@[simp] theorem setCur_lt (c : Cursor) : (s.setCur c).lt = s.lt := rfl
@[simp] theorem setCur_text (c : Cursor) : (s.setCur c).text = s.text := rfl
@[simp] theorem setCur_env (c : Cursor) : (s.setCur c).env = s.env := rfl
@[simp] theorem setCur_chip (c : Cursor) : (s.setCur c).chip = s.chip := rfl
@[simp] theorem setCur_wire (c : Cursor) : (s.setCur c).wire = s.wire := rfl
@[simp] theorem setCur_hostq (c : Cursor) : (s.setCur c).hostq = s.hostq := rfl

@[simp] theorem setCfg_params (c : Cfg) : (s.setCfg c).params = s.params := rfl
@[simp] theorem setCfg_fb (c : Cfg) : (s.setCfg c).fb = s.fb := rfl
@[simp] theorem setCfg_cur (c : Cfg) : (s.setCfg c).cur = s.cur := rfl
@[simp] theorem setCfg_cfg (c : Cfg) : (s.setCfg c).cfg = c := rfl
@[simp] theorem setCfg_ctrl (c : Cfg) : (s.setCfg c).ctrl = s.ctrl := rfl
@[simp] theorem setCfg_dirty (c : Cfg) : (s.setCfg c).dirty = s.dirty := rfl
@[simp] theorem setCfg_opw (c : Cfg) : (s.setCfg c).opw = s.opw := rfl
@[simp] theorem setCfg_rslt (c : Cfg) : (s.setCfg c).rslt = s.rslt := rfl
@[simp] theorem setCfg_lines (c : Cfg) : (s.setCfg c).lines = s.lines := rfl
@[simp] theorem setCfg_txb (c : Cfg) : (s.setCfg c).txb = s.txb := rfl
@[simp] theorem setCfg_upc (c : Cfg) : (s.setCfg c).upc = s.upc := rfl
@[simp] theorem setCfg_lt (c : Cfg) : (s.setCfg c).lt = s.lt := rfl
@[simp] theorem setCfg_text (c : Cfg) : (s.setCfg c).text = s.text := rfl
@[simp] theorem setCfg_env (c : Cfg) : (s.setCfg c).env = s.env := rfl
@[simp] theorem setCfg_chip (c : Cfg) : (s.setCfg c).chip = s.chip := rfl
@[simp] theorem setCfg_wire (c : Cfg) : (s.setCfg c).wire = s.wire := rfl
@[simp] theorem setCfg_hostq (c : Cfg) : (s.setCfg c).hostq = s.hostq := rfl

@[simp] theorem setCtrl_params (c : CtrlState) : (s.setCtrl c).params = s.params := rfl
@[simp] theorem setCtrl_fb (c : CtrlState) : (s.setCtrl c).fb = s.fb := rfl
@[simp] theorem setCtrl_cur (c : CtrlState) : (s.setCtrl c).cur = s.cur := rfl
@[simp] theorem setCtrl_cfg (c : CtrlState) : (s.setCtrl c).cfg = s.cfg := rfl
@[simp] theorem setCtrl_ctrl (c : CtrlState) : (s.setCtrl c).ctrl = c := rfl
@[simp] theorem setCtrl_dirty (c : CtrlState) : (s.setCtrl c).dirty = s.dirty := rfl
@[simp] theorem setCtrl_opw (c : CtrlState) : (s.setCtrl c).opw = s.opw := rfl
@[simp] theorem setCtrl_rslt (c : CtrlState) : (s.setCtrl c).rslt = s.rslt := rfl
@[simp] theorem setCtrl_lines (c : CtrlState) : (s.setCtrl c).lines = s.lines := rfl
@[simp] theorem setCtrl_txb (c : CtrlState) : (s.setCtrl c).txb = s.txb := rfl
@[simp] theorem setCtrl_upc (c : CtrlState) : (s.setCtrl c).upc = s.upc := rfl
@[simp] theorem setCtrl_lt (c : CtrlState) : (s.setCtrl c).lt = s.lt := rfl
@[simp] theorem setCtrl_text (c : CtrlState) : (s.setCtrl c).text = s.text := rfl
@[simp] theorem setCtrl_env (c : CtrlState) : (s.setCtrl c).env = s.env := rfl
@[simp] theorem setCtrl_chip (c : CtrlState) : (s.setCtrl c).chip = s.chip := rfl
@[simp] theorem setCtrl_wire (c : CtrlState) : (s.setCtrl c).wire = s.wire := rfl
@[simp] theorem setCtrl_hostq (c : CtrlState) : (s.setCtrl c).hostq = s.hostq := rfl

@[simp] theorem setDirty_params (d : Vector Bool 6) : (s.setDirty d).params = s.params := rfl
@[simp] theorem setDirty_fb (d : Vector Bool 6) : (s.setDirty d).fb = s.fb := rfl
@[simp] theorem setDirty_cur (d : Vector Bool 6) : (s.setDirty d).cur = s.cur := rfl
@[simp] theorem setDirty_cfg (d : Vector Bool 6) : (s.setDirty d).cfg = s.cfg := rfl
@[simp] theorem setDirty_ctrl (d : Vector Bool 6) : (s.setDirty d).ctrl = s.ctrl := rfl
@[simp] theorem setDirty_dirty (d : Vector Bool 6) : (s.setDirty d).dirty = d := rfl
@[simp] theorem setDirty_opw (d : Vector Bool 6) : (s.setDirty d).opw = s.opw := rfl
@[simp] theorem setDirty_rslt (d : Vector Bool 6) : (s.setDirty d).rslt = s.rslt := rfl
@[simp] theorem setDirty_lines (d : Vector Bool 6) : (s.setDirty d).lines = s.lines := rfl
@[simp] theorem setDirty_txb (d : Vector Bool 6) : (s.setDirty d).txb = s.txb := rfl
@[simp] theorem setDirty_upc (d : Vector Bool 6) : (s.setDirty d).upc = s.upc := rfl
@[simp] theorem setDirty_lt (d : Vector Bool 6) : (s.setDirty d).lt = s.lt := rfl
@[simp] theorem setDirty_text (d : Vector Bool 6) : (s.setDirty d).text = s.text := rfl
@[simp] theorem setDirty_env (d : Vector Bool 6) : (s.setDirty d).env = s.env := rfl
@[simp] theorem setDirty_chip (d : Vector Bool 6) : (s.setDirty d).chip = s.chip := rfl
@[simp] theorem setDirty_wire (d : Vector Bool 6) : (s.setDirty d).wire = s.wire := rfl
@[simp] theorem setDirty_hostq (d : Vector Bool 6) : (s.setDirty d).hostq = s.hostq := rfl

@[simp] theorem setOpw_params (w : Word) : (s.setOpw w).params = s.params := rfl
@[simp] theorem setOpw_fb (w : Word) : (s.setOpw w).fb = s.fb := rfl
@[simp] theorem setOpw_cur (w : Word) : (s.setOpw w).cur = s.cur := rfl
@[simp] theorem setOpw_cfg (w : Word) : (s.setOpw w).cfg = s.cfg := rfl
@[simp] theorem setOpw_ctrl (w : Word) : (s.setOpw w).ctrl = s.ctrl := rfl
@[simp] theorem setOpw_dirty (w : Word) : (s.setOpw w).dirty = s.dirty := rfl
@[simp] theorem setOpw_opw (w : Word) : (s.setOpw w).opw = w := rfl
@[simp] theorem setOpw_rslt (w : Word) : (s.setOpw w).rslt = s.rslt := rfl
@[simp] theorem setOpw_lines (w : Word) : (s.setOpw w).lines = s.lines := rfl
@[simp] theorem setOpw_txb (w : Word) : (s.setOpw w).txb = s.txb := rfl
@[simp] theorem setOpw_upc (w : Word) : (s.setOpw w).upc = s.upc := rfl
@[simp] theorem setOpw_lt (w : Word) : (s.setOpw w).lt = s.lt := rfl
@[simp] theorem setOpw_text (w : Word) : (s.setOpw w).text = s.text := rfl
@[simp] theorem setOpw_env (w : Word) : (s.setOpw w).env = s.env := rfl
@[simp] theorem setOpw_chip (w : Word) : (s.setOpw w).chip = s.chip := rfl
@[simp] theorem setOpw_wire (w : Word) : (s.setOpw w).wire = s.wire := rfl
@[simp] theorem setOpw_hostq (w : Word) : (s.setOpw w).hostq = s.hostq := rfl

@[simp] theorem setRslt_params (w : Word) : (s.setRslt w).params = s.params := rfl
@[simp] theorem setRslt_fb (w : Word) : (s.setRslt w).fb = s.fb := rfl
@[simp] theorem setRslt_cur (w : Word) : (s.setRslt w).cur = s.cur := rfl
@[simp] theorem setRslt_cfg (w : Word) : (s.setRslt w).cfg = s.cfg := rfl
@[simp] theorem setRslt_ctrl (w : Word) : (s.setRslt w).ctrl = s.ctrl := rfl
@[simp] theorem setRslt_dirty (w : Word) : (s.setRslt w).dirty = s.dirty := rfl
@[simp] theorem setRslt_opw (w : Word) : (s.setRslt w).opw = s.opw := rfl
@[simp] theorem setRslt_rslt (w : Word) : (s.setRslt w).rslt = w := rfl
@[simp] theorem setRslt_lines (w : Word) : (s.setRslt w).lines = s.lines := rfl
@[simp] theorem setRslt_txb (w : Word) : (s.setRslt w).txb = s.txb := rfl
@[simp] theorem setRslt_upc (w : Word) : (s.setRslt w).upc = s.upc := rfl
@[simp] theorem setRslt_lt (w : Word) : (s.setRslt w).lt = s.lt := rfl
@[simp] theorem setRslt_text (w : Word) : (s.setRslt w).text = s.text := rfl
@[simp] theorem setRslt_env (w : Word) : (s.setRslt w).env = s.env := rfl
@[simp] theorem setRslt_chip (w : Word) : (s.setRslt w).chip = s.chip := rfl
@[simp] theorem setRslt_wire (w : Word) : (s.setRslt w).wire = s.wire := rfl
@[simp] theorem setRslt_hostq (w : Word) : (s.setRslt w).hostq = s.hostq := rfl

@[simp] theorem setLines_params (l : Lines) : (s.setLines l).params = s.params := rfl
@[simp] theorem setLines_fb (l : Lines) : (s.setLines l).fb = s.fb := rfl
@[simp] theorem setLines_cur (l : Lines) : (s.setLines l).cur = s.cur := rfl
@[simp] theorem setLines_cfg (l : Lines) : (s.setLines l).cfg = s.cfg := rfl
@[simp] theorem setLines_ctrl (l : Lines) : (s.setLines l).ctrl = s.ctrl := rfl
@[simp] theorem setLines_dirty (l : Lines) : (s.setLines l).dirty = s.dirty := rfl
@[simp] theorem setLines_opw (l : Lines) : (s.setLines l).opw = s.opw := rfl
@[simp] theorem setLines_rslt (l : Lines) : (s.setLines l).rslt = s.rslt := rfl
@[simp] theorem setLines_lines (l : Lines) : (s.setLines l).lines = l := rfl
@[simp] theorem setLines_txb (l : Lines) : (s.setLines l).txb = s.txb := rfl
@[simp] theorem setLines_upc (l : Lines) : (s.setLines l).upc = s.upc := rfl
@[simp] theorem setLines_lt (l : Lines) : (s.setLines l).lt = s.lt := rfl
@[simp] theorem setLines_text (l : Lines) : (s.setLines l).text = s.text := rfl
@[simp] theorem setLines_env (l : Lines) : (s.setLines l).env = s.env := rfl
@[simp] theorem setLines_chip (l : Lines) : (s.setLines l).chip = s.chip := rfl
@[simp] theorem setLines_wire (l : Lines) : (s.setLines l).wire = s.wire := rfl
@[simp] theorem setLines_hostq (l : Lines) : (s.setLines l).hostq = s.hostq := rfl

@[simp] theorem setTxb_params (t : List (Bool × Byte)) : (s.setTxb t).params = s.params := rfl
@[simp] theorem setTxb_fb (t : List (Bool × Byte)) : (s.setTxb t).fb = s.fb := rfl
@[simp] theorem setTxb_cur (t : List (Bool × Byte)) : (s.setTxb t).cur = s.cur := rfl
@[simp] theorem setTxb_cfg (t : List (Bool × Byte)) : (s.setTxb t).cfg = s.cfg := rfl
@[simp] theorem setTxb_ctrl (t : List (Bool × Byte)) : (s.setTxb t).ctrl = s.ctrl := rfl
@[simp] theorem setTxb_dirty (t : List (Bool × Byte)) : (s.setTxb t).dirty = s.dirty := rfl
@[simp] theorem setTxb_opw (t : List (Bool × Byte)) : (s.setTxb t).opw = s.opw := rfl
@[simp] theorem setTxb_rslt (t : List (Bool × Byte)) : (s.setTxb t).rslt = s.rslt := rfl
@[simp] theorem setTxb_lines (t : List (Bool × Byte)) : (s.setTxb t).lines = s.lines := rfl
@[simp] theorem setTxb_txb (t : List (Bool × Byte)) : (s.setTxb t).txb = t := rfl
@[simp] theorem setTxb_upc (t : List (Bool × Byte)) : (s.setTxb t).upc = s.upc := rfl
@[simp] theorem setTxb_lt (t : List (Bool × Byte)) : (s.setTxb t).lt = s.lt := rfl
@[simp] theorem setTxb_text (t : List (Bool × Byte)) : (s.setTxb t).text = s.text := rfl
@[simp] theorem setTxb_env (t : List (Bool × Byte)) : (s.setTxb t).env = s.env := rfl
@[simp] theorem setTxb_chip (t : List (Bool × Byte)) : (s.setTxb t).chip = s.chip := rfl
@[simp] theorem setTxb_wire (t : List (Bool × Byte)) : (s.setTxb t).wire = s.wire := rfl
@[simp] theorem setTxb_hostq (t : List (Bool × Byte)) : (s.setTxb t).hostq = s.hostq := rfl

@[simp] theorem setUpc_params (u : Option Nat) : (s.setUpc u).params = s.params := rfl
@[simp] theorem setUpc_fb (u : Option Nat) : (s.setUpc u).fb = s.fb := rfl
@[simp] theorem setUpc_cur (u : Option Nat) : (s.setUpc u).cur = s.cur := rfl
@[simp] theorem setUpc_cfg (u : Option Nat) : (s.setUpc u).cfg = s.cfg := rfl
@[simp] theorem setUpc_ctrl (u : Option Nat) : (s.setUpc u).ctrl = s.ctrl := rfl
@[simp] theorem setUpc_dirty (u : Option Nat) : (s.setUpc u).dirty = s.dirty := rfl
@[simp] theorem setUpc_opw (u : Option Nat) : (s.setUpc u).opw = s.opw := rfl
@[simp] theorem setUpc_rslt (u : Option Nat) : (s.setUpc u).rslt = s.rslt := rfl
@[simp] theorem setUpc_lines (u : Option Nat) : (s.setUpc u).lines = s.lines := rfl
@[simp] theorem setUpc_txb (u : Option Nat) : (s.setUpc u).txb = s.txb := rfl
@[simp] theorem setUpc_upc (u : Option Nat) : (s.setUpc u).upc = u := rfl
@[simp] theorem setUpc_lt (u : Option Nat) : (s.setUpc u).lt = s.lt := rfl
@[simp] theorem setUpc_text (u : Option Nat) : (s.setUpc u).text = s.text := rfl
@[simp] theorem setUpc_env (u : Option Nat) : (s.setUpc u).env = s.env := rfl
@[simp] theorem setUpc_chip (u : Option Nat) : (s.setUpc u).chip = s.chip := rfl
@[simp] theorem setUpc_wire (u : Option Nat) : (s.setUpc u).wire = s.wire := rfl
@[simp] theorem setUpc_hostq (u : Option Nat) : (s.setUpc u).hostq = s.hostq := rfl

@[simp] theorem log_params (e : LineEvent) : (s.log e).params = s.params := rfl
@[simp] theorem log_fb (e : LineEvent) : (s.log e).fb = s.fb := rfl
@[simp] theorem log_cur (e : LineEvent) : (s.log e).cur = s.cur := rfl
@[simp] theorem log_cfg (e : LineEvent) : (s.log e).cfg = s.cfg := rfl
@[simp] theorem log_ctrl (e : LineEvent) : (s.log e).ctrl = s.ctrl := rfl
@[simp] theorem log_dirty (e : LineEvent) : (s.log e).dirty = s.dirty := rfl
@[simp] theorem log_opw (e : LineEvent) : (s.log e).opw = s.opw := rfl
@[simp] theorem log_rslt (e : LineEvent) : (s.log e).rslt = s.rslt := rfl
@[simp] theorem log_lines (e : LineEvent) : (s.log e).lines = s.lines := rfl
@[simp] theorem log_txb (e : LineEvent) : (s.log e).txb = s.txb := rfl
@[simp] theorem log_upc (e : LineEvent) : (s.log e).upc = s.upc := rfl
@[simp] theorem log_lt (e : LineEvent) : (s.log e).lt = s.lt ++ [e] := rfl
@[simp] theorem log_text (e : LineEvent) : (s.log e).text = s.text := rfl
@[simp] theorem log_env (e : LineEvent) : (s.log e).env = s.env := rfl
@[simp] theorem log_chip (e : LineEvent) : (s.log e).chip = s.chip := rfl
@[simp] theorem log_wire (e : LineEvent) : (s.log e).wire = s.wire := rfl
@[simp] theorem log_hostq (e : LineEvent) : (s.log e).hostq = s.hostq := rfl

@[simp] theorem setText_params (t : TextCursor) : (s.setText t).params = s.params := rfl
@[simp] theorem setText_fb (t : TextCursor) : (s.setText t).fb = s.fb := rfl
@[simp] theorem setText_cur (t : TextCursor) : (s.setText t).cur = s.cur := rfl
@[simp] theorem setText_cfg (t : TextCursor) : (s.setText t).cfg = s.cfg := rfl
@[simp] theorem setText_ctrl (t : TextCursor) : (s.setText t).ctrl = s.ctrl := rfl
@[simp] theorem setText_dirty (t : TextCursor) : (s.setText t).dirty = s.dirty := rfl
@[simp] theorem setText_opw (t : TextCursor) : (s.setText t).opw = s.opw := rfl
@[simp] theorem setText_rslt (t : TextCursor) : (s.setText t).rslt = s.rslt := rfl
@[simp] theorem setText_lines (t : TextCursor) : (s.setText t).lines = s.lines := rfl
@[simp] theorem setText_txb (t : TextCursor) : (s.setText t).txb = s.txb := rfl
@[simp] theorem setText_upc (t : TextCursor) : (s.setText t).upc = s.upc := rfl
@[simp] theorem setText_lt (t : TextCursor) : (s.setText t).lt = s.lt := rfl
@[simp] theorem setText_text (t : TextCursor) : (s.setText t).text = t := rfl
@[simp] theorem setText_env (t : TextCursor) : (s.setText t).env = s.env := rfl
@[simp] theorem setText_chip (t : TextCursor) : (s.setText t).chip = s.chip := rfl
@[simp] theorem setText_wire (t : TextCursor) : (s.setText t).wire = s.wire := rfl
@[simp] theorem setText_hostq (t : TextCursor) : (s.setText t).hostq = s.hostq := rfl

@[simp] theorem setEnv_params (e : Env) : (s.setEnv e).params = s.params := rfl
@[simp] theorem setEnv_fb (e : Env) : (s.setEnv e).fb = s.fb := rfl
@[simp] theorem setEnv_cur (e : Env) : (s.setEnv e).cur = s.cur := rfl
@[simp] theorem setEnv_cfg (e : Env) : (s.setEnv e).cfg = s.cfg := rfl
@[simp] theorem setEnv_ctrl (e : Env) : (s.setEnv e).ctrl = s.ctrl := rfl
@[simp] theorem setEnv_dirty (e : Env) : (s.setEnv e).dirty = s.dirty := rfl
@[simp] theorem setEnv_opw (e : Env) : (s.setEnv e).opw = s.opw := rfl
@[simp] theorem setEnv_rslt (e : Env) : (s.setEnv e).rslt = s.rslt := rfl
@[simp] theorem setEnv_lines (e : Env) : (s.setEnv e).lines = s.lines := rfl
@[simp] theorem setEnv_txb (e : Env) : (s.setEnv e).txb = s.txb := rfl
@[simp] theorem setEnv_upc (e : Env) : (s.setEnv e).upc = s.upc := rfl
@[simp] theorem setEnv_lt (e : Env) : (s.setEnv e).lt = s.lt := rfl
@[simp] theorem setEnv_text (e : Env) : (s.setEnv e).text = s.text := rfl
@[simp] theorem setEnv_env (e : Env) : (s.setEnv e).env = e := rfl
@[simp] theorem setEnv_chip (e : Env) : (s.setEnv e).chip = s.chip := rfl
@[simp] theorem setEnv_wire (e : Env) : (s.setEnv e).wire = s.wire := rfl
@[simp] theorem setEnv_hostq (e : Env) : (s.setEnv e).hostq = s.hostq := rfl

@[simp] theorem setChip_params (c : Chip) : (s.setChip c).params = s.params := rfl
@[simp] theorem setChip_fb (c : Chip) : (s.setChip c).fb = s.fb := rfl
@[simp] theorem setChip_cur (c : Chip) : (s.setChip c).cur = s.cur := rfl
@[simp] theorem setChip_cfg (c : Chip) : (s.setChip c).cfg = s.cfg := rfl
@[simp] theorem setChip_ctrl (c : Chip) : (s.setChip c).ctrl = s.ctrl := rfl
@[simp] theorem setChip_dirty (c : Chip) : (s.setChip c).dirty = s.dirty := rfl
@[simp] theorem setChip_opw (c : Chip) : (s.setChip c).opw = s.opw := rfl
@[simp] theorem setChip_rslt (c : Chip) : (s.setChip c).rslt = s.rslt := rfl
@[simp] theorem setChip_lines (c : Chip) : (s.setChip c).lines = s.lines := rfl
@[simp] theorem setChip_txb (c : Chip) : (s.setChip c).txb = s.txb := rfl
@[simp] theorem setChip_upc (c : Chip) : (s.setChip c).upc = s.upc := rfl
@[simp] theorem setChip_lt (c : Chip) : (s.setChip c).lt = s.lt := rfl
@[simp] theorem setChip_text (c : Chip) : (s.setChip c).text = s.text := rfl
@[simp] theorem setChip_env (c : Chip) : (s.setChip c).env = s.env := rfl
@[simp] theorem setChip_chip (c : Chip) : (s.setChip c).chip = c := rfl
@[simp] theorem setChip_wire (c : Chip) : (s.setChip c).wire = s.wire := rfl
@[simp] theorem setChip_hostq (c : Chip) : (s.setChip c).hostq = s.hostq := rfl

@[simp] theorem setWire_params (w : List ChipInput) : (s.setWire w).params = s.params := rfl
@[simp] theorem setWire_fb (w : List ChipInput) : (s.setWire w).fb = s.fb := rfl
@[simp] theorem setWire_cur (w : List ChipInput) : (s.setWire w).cur = s.cur := rfl
@[simp] theorem setWire_cfg (w : List ChipInput) : (s.setWire w).cfg = s.cfg := rfl
@[simp] theorem setWire_ctrl (w : List ChipInput) : (s.setWire w).ctrl = s.ctrl := rfl
@[simp] theorem setWire_dirty (w : List ChipInput) : (s.setWire w).dirty = s.dirty := rfl
@[simp] theorem setWire_opw (w : List ChipInput) : (s.setWire w).opw = s.opw := rfl
@[simp] theorem setWire_rslt (w : List ChipInput) : (s.setWire w).rslt = s.rslt := rfl
@[simp] theorem setWire_lines (w : List ChipInput) : (s.setWire w).lines = s.lines := rfl
@[simp] theorem setWire_txb (w : List ChipInput) : (s.setWire w).txb = s.txb := rfl
@[simp] theorem setWire_upc (w : List ChipInput) : (s.setWire w).upc = s.upc := rfl
@[simp] theorem setWire_lt (w : List ChipInput) : (s.setWire w).lt = s.lt := rfl
@[simp] theorem setWire_text (w : List ChipInput) : (s.setWire w).text = s.text := rfl
@[simp] theorem setWire_env (w : List ChipInput) : (s.setWire w).env = s.env := rfl
@[simp] theorem setWire_chip (w : List ChipInput) : (s.setWire w).chip = s.chip := rfl
@[simp] theorem setWire_wire (w : List ChipInput) : (s.setWire w).wire = w := rfl
@[simp] theorem setWire_hostq (w : List ChipInput) : (s.setWire w).hostq = s.hostq := rfl

@[simp] theorem sendWire_params (w : List ChipInput) : (s.sendWire w).params = s.params := rfl
@[simp] theorem sendWire_fb (w : List ChipInput) : (s.sendWire w).fb = s.fb := rfl
@[simp] theorem sendWire_cur (w : List ChipInput) : (s.sendWire w).cur = s.cur := rfl
@[simp] theorem sendWire_cfg (w : List ChipInput) : (s.sendWire w).cfg = s.cfg := rfl
@[simp] theorem sendWire_ctrl (w : List ChipInput) : (s.sendWire w).ctrl = s.ctrl := rfl
@[simp] theorem sendWire_dirty (w : List ChipInput) : (s.sendWire w).dirty = s.dirty := rfl
@[simp] theorem sendWire_opw (w : List ChipInput) : (s.sendWire w).opw = s.opw := rfl
@[simp] theorem sendWire_rslt (w : List ChipInput) : (s.sendWire w).rslt = s.rslt := rfl
@[simp] theorem sendWire_lines (w : List ChipInput) : (s.sendWire w).lines = s.lines := rfl
@[simp] theorem sendWire_txb (w : List ChipInput) : (s.sendWire w).txb = s.txb := rfl
@[simp] theorem sendWire_upc (w : List ChipInput) : (s.sendWire w).upc = s.upc := rfl
@[simp] theorem sendWire_lt (w : List ChipInput) : (s.sendWire w).lt = s.lt := rfl
@[simp] theorem sendWire_text (w : List ChipInput) : (s.sendWire w).text = s.text := rfl
@[simp] theorem sendWire_env (w : List ChipInput) : (s.sendWire w).env = s.env := rfl
@[simp] theorem sendWire_chip (w : List ChipInput) : (s.sendWire w).chip = s.chip := rfl
@[simp] theorem sendWire_wire (w : List ChipInput) : (s.sendWire w).wire = s.wire ++ w := rfl
@[simp] theorem sendWire_hostq (w : List ChipInput) : (s.sendWire w).hostq = s.hostq := rfl

@[simp] theorem setHostq_params (q : List Word) : (s.setHostq q).params = s.params := rfl
@[simp] theorem setHostq_fb (q : List Word) : (s.setHostq q).fb = s.fb := rfl
@[simp] theorem setHostq_cur (q : List Word) : (s.setHostq q).cur = s.cur := rfl
@[simp] theorem setHostq_cfg (q : List Word) : (s.setHostq q).cfg = s.cfg := rfl
@[simp] theorem setHostq_ctrl (q : List Word) : (s.setHostq q).ctrl = s.ctrl := rfl
@[simp] theorem setHostq_dirty (q : List Word) : (s.setHostq q).dirty = s.dirty := rfl
@[simp] theorem setHostq_opw (q : List Word) : (s.setHostq q).opw = s.opw := rfl
@[simp] theorem setHostq_rslt (q : List Word) : (s.setHostq q).rslt = s.rslt := rfl
@[simp] theorem setHostq_lines (q : List Word) : (s.setHostq q).lines = s.lines := rfl
@[simp] theorem setHostq_txb (q : List Word) : (s.setHostq q).txb = s.txb := rfl
@[simp] theorem setHostq_upc (q : List Word) : (s.setHostq q).upc = s.upc := rfl
@[simp] theorem setHostq_lt (q : List Word) : (s.setHostq q).lt = s.lt := rfl
@[simp] theorem setHostq_text (q : List Word) : (s.setHostq q).text = s.text := rfl
@[simp] theorem setHostq_env (q : List Word) : (s.setHostq q).env = s.env := rfl
@[simp] theorem setHostq_chip (q : List Word) : (s.setHostq q).chip = s.chip := rfl
@[simp] theorem setHostq_wire (q : List Word) : (s.setHostq q).wire = s.wire := rfl
@[simp] theorem setHostq_hostq (q : List Word) : (s.setHostq q).hostq = q := rfl

end Sys2Proof.Machine.State
end

