-- ==== Sys2Proof/Laws/Lines.lean ====
section
/-! SUPPORT. What the line actions and the frame do: their effect when every answer is ok, and what
they leave unchanged whatever the answers are. -/

namespace Sys2Proof.Machine

/-! ## Answers -/

@[simp] theorem answersAre_nil (e : Env) : answersAre [] e := trivial
@[simp] theorem answersAre_cons (a : Bool) (l : List Bool) (e : Env) :
    answersAre (a :: l) e ↔ (nextAnswer e).1 = a ∧ answersAre l (nextAnswer e).2 := Iff.rfl

theorem answersAre_append (l m : List Bool) (e : Env) :
    answersAre (l ++ m) e ↔ answersAre l e ∧ answersAre m (skipAnswers l.length e) := by
  induction l generalizing e with
  | nil => simp [skipAnswers]
  | cons a l ih => simp [ih, skipAnswers, and_assoc]

theorem answersOk_add (n m : Nat) (e : Env) :
    answersOk (n + m) e ↔ answersOk n e ∧ answersOk m (skipAnswers n e) := by
  unfold answersOk
  rw [List.replicate_add, answersAre_append, List.length_replicate]

theorem answersOk_mono {n m : Nat} (h : n ≤ m) {e : Env} (he : answersOk m e) : answersOk n e := by
  obtain ⟨k, rfl⟩ := Nat.exists_eq_add_of_le h
  exact ((answersOk_add n k e).1 he).1

theorem skipAnswers_add (n m : Nat) (e : Env) :
    skipAnswers (n + m) e = skipAnswers m (skipAnswers n e) := by
  induction n generalizing e with
  | zero => simp [skipAnswers]
  | succ n ih => rw [Nat.add_right_comm]; exact ih _

/-- Some of many ok answers: n of them after k. -/
theorem answersOk_after {k n m : Nat} {e : Env} (h : answersOk m e) (hk : k + n ≤ m) :
    answersOk n (skipAnswers k e) := ((answersOk_add k n e).1 (answersOk_mono hk h)).2

/-- A script of answers gives those answers. -/
theorem answersAre_script (l rest : List Bool) (e : Env) (h : e.answers = l ++ rest) :
    answersAre l e := by
  induction l generalizing e with
  | nil => trivial
  | cons a l ih =>
    have h' : e.answers = a :: (l ++ rest) := by simpa using h
    refine ⟨by simp [nextAnswer, h'], ih _ ?_⟩
    simp [nextAnswer, h']

/-! ## The pins of a frame -/

/-- Driving the mode line or chip-select, answered ok. -/
theorem pinSet_ok {p : Pin} (hp : p ≠ .res) (l : Bool) {s : State}
    (h : (nextAnswer s.env).1 = true) :
    pinSet p l s = (true, (setLatch p (levelOf l) (s.setEnv (nextAnswer s.env).2)).log (.pin p l)) := by
  cases p <;> simp_all [pinSet, drawAnswer, chipSeesDrive]

/-- Driving the mode line or chip-select, answered fail. -/
theorem pinSet_fail {p : Pin} (hp : p ≠ .res) (l : Bool) {s : State}
    (h : (nextAnswer s.env).1 = false) :
    pinSet p l s = (false, (setLatch p .unknown (s.setEnv (nextAnswer s.env).2)).log (.pinFail p)) := by
  cases p <;> simp_all [pinSet, drawAnswer, chipSeesFailedDrive]

/-- A transfer answered ok, to a selected chip. -/
theorem busXfer_ok {s : State} (h : (nextAnswer s.env).1 = true) (hs : chipSelected s = true) :
    busXfer s = (true, ((s.setEnv (nextAnswer s.env).2).sendWire
      (s.txb.map (fun e => ChipInput.byte e.1 e.2))).log (.tx s.lines.dcl (s.txb.map (·.2)))) := by
  have hs' : chipSelected (s.setEnv (nextAnswer s.env).2) = true := hs
  simp [busXfer, drawAnswer, h, deliver, hs']

/-! ## The frame -/

/-- A frame whose line actions are all answered ok (rules R125, R126, R129, R130). -/
theorem frame_ok {s : State} (dc : Bool) (bytes : List Byte)
    (h : answersOk (frameActions s.params) s.env) :
    frame dc bytes s = .go { s with
      txb := []
      lt := s.lt ++ frameEvents s.params dc bytes
      lines := frameLines s.params dc s.lines
      wire := s.wire ++ chipBytes dc bytes
      env := skipAnswers (frameActions s.params) s.env } := by
  by_cases hc : s.params.hasCsPin = true
  · simp only [frameActions, hc, if_true, answersOk, List.replicate, answersAre_cons] at h
    obtain ⟨h1, h2, h3, h4, -⟩ := h
    simp [frame, driveCs, hc, pinSet, drawAnswer, chipSeesDrive, setLatch, orBusError,
      Flow.andThen, Flow.update, busXfer, deliver, chipSelected, h1, h2, h3, h4, frameEvents,
      frameLines, chipBytes, frameActions, skipAnswers, Function.comp_def, State.setTxb,
      State.setEnv, State.setLines, State.log, State.sendWire]
  · simp only [frameActions, hc, answersOk] at h
    obtain ⟨h1, h2, -⟩ := h
    simp [frame, driveCs, hc, pinSet, drawAnswer, chipSeesDrive, setLatch, orBusError,
      Flow.andThen, Flow.update, busXfer, deliver, chipSelected, h1, h2, frameEvents,
      frameLines, chipBytes, frameActions, skipAnswers, Function.comp_def, State.setTxb,
      State.setEnv, State.setLines, State.log, State.sendWire]

/-! ## What a line action can change -/

/-- Only lines, trace, inputs of the chip, draws and TXB differ; the trace has only grown; the chip
only has more to take. -/
structure LineOnly (s t : State) : Prop where
  rest : t = { s with lines := t.lines, lt := t.lt, env := t.env, wire := t.wire, txb := t.txb }
  grown : s.lt <+: t.lt
  sent : s.wire <+: t.wire
  replayed : s.lines = replayLines s.lt → t.lines = replayLines t.lt

theorem LineOnly.refl (s : State) : LineOnly s s :=
  ⟨rfl, List.prefix_rfl, List.prefix_rfl, id⟩

theorem LineOnly.trans {s t u : State} (h : LineOnly s t) (k : LineOnly t u) : LineOnly s u := by
  refine ⟨?_, h.grown.trans k.grown, h.sent.trans k.sent, k.replayed ∘ h.replayed⟩
  have h1 := h.rest
  have k1 := k.rest
  rw [h1] at k1
  simpa using k1

theorem LineOnly.setTxb (s : State) (x : List (Bool × Byte)) : LineOnly s (s.setTxb x) :=
  ⟨rfl, List.prefix_rfl, List.prefix_rfl, id⟩

theorem LineOnly.setEnv (s : State) (x : Env) : LineOnly s (s.setEnv x) :=
  ⟨rfl, List.prefix_rfl, List.prefix_rfl, id⟩

theorem LineOnly.sendWire (s : State) (x : List ChipInput) : LineOnly s (s.sendWire x) :=
  ⟨rfl, List.prefix_rfl, List.prefix_append _ _, id⟩

theorem replayLines_append (l : List LineEvent) (e : LineEvent) :
    replayLines (l ++ [e]) = replayEvent (replayLines l) e := by simp [replayLines]

/-- A pin event logged with the latch it says. -/
theorem LineOnly.pin (p : Pin) (l : Bool) (s : State) :
    LineOnly s ((setLatch p (levelOf l) s).log (.pin p l)) := by
  refine ⟨by cases p <;> rfl, by cases p <;> exact List.prefix_append _ _,
    by cases p <;> exact List.prefix_rfl, fun h => ?_⟩
  cases p <;> simp [setLatch, replayLines_append, ← h, replayEvent]

theorem LineOnly.pinFail (p : Pin) (s : State) :
    LineOnly s ((setLatch p .unknown s).log (.pinFail p)) := by
  refine ⟨by cases p <;> rfl, by cases p <;> exact List.prefix_append _ _,
    by cases p <;> exact List.prefix_rfl, fun h => ?_⟩
  cases p <;> simp [setLatch, replayLines_append, ← h, replayEvent]

/-- An event logged that says nothing of a latch. -/
theorem LineOnly.log {e : LineEvent} (he : ∀ l, replayEvent l e = l) (s : State) :
    LineOnly s (s.log e) :=
  ⟨rfl, List.prefix_append _ _, List.prefix_rfl, fun h => by simp [replayLines_append, he, h]⟩

theorem deliver_lineOnly (x : List (Bool × Byte)) (s : State) : LineOnly s (deliver x s) := by
  unfold deliver
  split
  · exact .sendWire _ _
  · exact .refl _

theorem deliverPart_lineOnly (n : Nat) (k : Fin 8) (x : List (Bool × Byte)) (s : State) :
    LineOnly s (deliverPart n k x s) := by
  unfold deliverPart
  split
  · exact .sendWire _ _
  · exact .refl _

theorem chipSeesDrive_lineOnly (p : Pin) (l : Bool) (s : State) :
    LineOnly s (chipSeesDrive p l s) := by
  unfold chipSeesDrive
  split <;> (try split) <;> first | exact .refl _ | exact .sendWire _ _

theorem chipSeesFailedDrive_lineOnly (p : Pin) (s : State) :
    LineOnly s (chipSeesFailedDrive p s) := by
  unfold chipSeesFailedDrive countChipDraw
  split <;> first | exact .refl _ | exact (LineOnly.setEnv _ _).trans (.sendWire _ _)

theorem pinSet_lineOnly (p : Pin) (l : Bool) (s : State) : LineOnly s (pinSet p l s).2 := by
  unfold pinSet drawAnswer
  rcases nextAnswer s.env with ⟨_ | _, e⟩
  · exact ((LineOnly.setEnv s e).trans (.pinFail p _)).trans (chipSeesFailedDrive_lineOnly _ _)
  · exact ((LineOnly.setEnv s e).trans (.pin p l _)).trans (chipSeesDrive_lineOnly _ _ _)

theorem driveCs_lineOnly (l : Bool) (s : State) : LineOnly s (driveCs l s).2 := by
  unfold driveCs
  split
  · exact pinSet_lineOnly _ _ _
  · exact .refl _

theorem busXfer_lineOnly (s : State) : LineOnly s (busXfer s).2 := by
  unfold busXfer drawAnswer
  rcases nextAnswer s.env with ⟨_ | _, e⟩
  · exact (((LineOnly.setEnv s e).trans (deliverPart_lineOnly _ _ _ _)).trans
      (.log (fun _ => rfl) _)).trans (.setEnv _ _)
  · exact ((LineOnly.setEnv s e).trans (deliver_lineOnly _ _)).trans (.log (fun _ => rfl) _)

theorem waitAtLeast_lineOnly (n : Nat) (s : State) : LineOnly s (waitAtLeast n s) :=
  (LineOnly.setEnv _ _).trans (.log (fun _ => rfl) _)

theorem waitAfterReset_lineOnly (s : State) : LineOnly s (waitAfterReset s) := by
  unfold waitAfterReset
  split
  · exact .refl s
  · exact waitAtLeast_lineOnly _ s

/-- The state a flow has reached. -/
def Flow.state : Flow → State
  | .go s => s
  | .raised _ s => s

/-- Whether a flow has not raised an error. -/
def Flow.isGo : Flow → Bool
  | .go _ => true
  | .raised _ _ => false

theorem orBusError_lineOnly {s : State} {r : Bool × State} (h : LineOnly s r.2) :
    LineOnly s (orBusError r).state := by
  unfold orBusError
  split
  · exact h
  · exact h.trans (.setTxb _ _)

theorem Flow.andThen_lineOnly {s : State} {f : Flow} {g : State → Flow}
    (hf : LineOnly s f.state) (hg : ∀ t, LineOnly t (g t).state) :
    LineOnly s (f.andThen g).state := by
  cases f with
  | go t => exact hf.trans (hg t)
  | raised e t => exact hf

theorem Flow.update_lineOnly {s : State} {f : Flow} {u : State → State}
    (hf : LineOnly s f.state) (hu : ∀ t, LineOnly t (u t)) : LineOnly s (f.update u).state := by
  cases f with
  | go t => exact hf.trans (hu t)
  | raised e t => exact hf

/-- A frame changes only lines, trace, inputs of the chip, draws and TXB, whatever the answers
(rule R125: "Flags written: none. State written: DCL, CSL, TXB (empty again at the end), LT"). -/
theorem frame_lineOnly (dc : Bool) (bytes : List Byte) (s : State) :
    LineOnly s (frame dc bytes s).state := by
  unfold frame
  refine Flow.andThen_lineOnly (Flow.andThen_lineOnly (Flow.andThen_lineOnly ?_ ?_) ?_) ?_
  · exact orBusError_lineOnly ((LineOnly.setTxb _ _).trans (driveCs_lineOnly _ _))
  · exact fun t => orBusError_lineOnly (pinSet_lineOnly _ _ _)
  · exact fun t => Flow.update_lineOnly (orBusError_lineOnly (busXfer_lineOnly _))
      (fun t => .setTxb _ _)
  · exact fun t => orBusError_lineOnly (driveCs_lineOnly _ _)

theorem driveCs_txb (l : Bool) (s : State) : (driveCs l s).2.txb = s.txb := by
  unfold driveCs pinSet drawAnswer
  split
  · rcases nextAnswer s.env with ⟨_ | _, e⟩ <;> rfl
  · rfl

/-- An error ends a frame with TXB empty (rule R125). -/
def Flow.CleanRaise (f : Flow) : Prop := ∀ e t, f = .raised e t → t.txb = [] ∧ e = .busError

theorem orBusError_clean (r : Bool × State) : (orBusError r).CleanRaise := by
  intro e t h
  unfold orBusError at h
  split at h
  · cases h
  · cases h; exact ⟨rfl, rfl⟩

theorem Flow.CleanRaise.andThen {f : Flow} {g : State → Flow} (hf : f.CleanRaise)
    (hg : ∀ t, (g t).CleanRaise) : (f.andThen g).CleanRaise := by
  cases f with
  | go t => exact hg t
  | raised e t => exact hf

theorem Flow.CleanRaise.update {f : Flow} {u : State → State} (hf : f.CleanRaise) :
    (f.update u).CleanRaise := by
  cases f with
  | go t => intro e t h; cases h
  | raised e t => exact hf

/-- The only error of a frame is BusError (rule R124), and it leaves TXB empty. -/
theorem frame_clean (dc : Bool) (bytes : List Byte) (s : State) :
    (frame dc bytes s).CleanRaise := by
  unfold frame
  exact (((orBusError_clean _).andThen fun _ => orBusError_clean _).andThen
    fun _ => (orBusError_clean _).update).andThen fun _ => orBusError_clean _

theorem Flow.andThen_eq_go {f : Flow} {g : State → Flow} {t : State} :
    f.andThen g = .go t ↔ ∃ s, f = .go s ∧ g s = .go t := by
  cases f <;> simp [Flow.andThen]

theorem Flow.update_eq_go {f : Flow} {u : State → State} {t : State} :
    f.update u = .go t ↔ ∃ s, f = .go s ∧ u s = t := by
  cases f <;> simp [Flow.update]

theorem orBusError_eq_go {r : Bool × State} {t : State} :
    orBusError r = .go t ↔ r.1 = true ∧ r.2 = t := by
  unfold orBusError
  split <;> simp_all

/-- A frame that succeeds leaves TXB empty (rules R36, R125). -/
theorem frame_go_txb {dc : Bool} {bytes : List Byte} {s t : State}
    (h : frame dc bytes s = .go t) : t.txb = [] := by
  obtain ⟨u, hu, hd⟩ := Flow.andThen_eq_go.1 h
  obtain ⟨v, -, hv⟩ := Flow.andThen_eq_go.1 hu
  obtain ⟨w, -, rfl⟩ := Flow.update_eq_go.1 hv
  obtain ⟨-, rfl⟩ := orBusError_eq_go.1 hd
  rw [driveCs_txb]
  rfl

end Sys2Proof.Machine
end

