-- ==== Sys2Proof/Laws/Memory.lean ====
section
/-! SUPPORT. Laws of memory: a read after a write, and the canonical form. -/

namespace Sys2Proof.Machine

/-! ## Listing and unlisting an address -/

theorem byteAt_put (m : Memory) (a k : Nat) (v : Byte) :
    Memory.byteAt (Memory.put m a v) k = if k = a then some v else Memory.byteAt m k := by
  induction m with
  | nil => by_cases h : k = a <;> simp [Memory.put, Memory.byteAt, h, eq_comm (a := a)]
  | cons c rest ih =>
    obtain ⟨j, w⟩ := c
    simp only [Memory.put]
    split
    · by_cases h : k = a <;> simp [Memory.byteAt, h, eq_comm (a := a)]
    · split
      · subst_vars
        by_cases h : k = j <;> simp [Memory.byteAt, h, eq_comm (a := j)]
      · simp only [Memory.byteAt, ih]
        by_cases h : j = k <;> by_cases h' : k = a <;> simp_all

/-- Every address listed in `rest` lies above k. -/
theorem rising_cons {k : Nat} {w : Byte} {rest : Memory} :
    Memory.rising ((k, w) :: rest) = true ↔
      (∀ c ∈ rest, k < c.1) ∧ Memory.rising rest = true := by
  simp [Memory.rising]

theorem byteAt_drop (m : Memory) (a k : Nat) :
    Memory.byteAt (Memory.drop m a) k = if k = a then none else Memory.byteAt m k := by
  induction m with
  | nil => simp [Memory.drop, Memory.byteAt]
  | cons c rest ih =>
    obtain ⟨j, w⟩ := c
    simp only [Memory.drop]
    split
    · subst_vars
      by_cases h : k = j
      · subst h; simpa using ih
      · simp [Memory.byteAt, ih, h, eq_comm (a := j)]
    · simp only [Memory.byteAt, ih]
      by_cases h : j = k <;> by_cases h' : k = a <;> simp_all

theorem mem_put {m : Memory} {a : Nat} {v : Byte} {c : Host.Cell}
    (h : c ∈ Memory.put m a v) : c = (a, v) ∨ c ∈ m := by
  induction m with
  | nil => simpa [Memory.put] using h
  | cons d rest ih =>
    obtain ⟨j, w⟩ := d
    simp only [Memory.put] at h
    split at h
    · simpa using h
    · split at h
      · rcases List.mem_cons.1 h with h | h
        · exact .inl h
        · exact .inr (by simp [h])
      · rcases List.mem_cons.1 h with h | h
        · exact .inr (by simp [h])
        · exact (ih h).imp id fun h => by simp [h]

theorem mem_drop {m : Memory} {a : Nat} {c : Host.Cell} (h : c ∈ Memory.drop m a) : c ∈ m := by
  induction m with
  | nil => simp [Memory.drop] at h
  | cons d rest ih =>
    obtain ⟨j, w⟩ := d
    simp only [Memory.drop] at h
    split at h
    · simp [ih h]
    · rcases List.mem_cons.1 h with h | h
      · simp [h]
      · simp [ih h]

theorem rising_put {m : Memory} (hm : Memory.rising m = true) (a : Nat) (v : Byte) :
    Memory.rising (Memory.put m a v) = true := by
  induction m with
  | nil => rfl
  | cons c rest ih =>
    obtain ⟨j, w⟩ := c
    obtain ⟨hlow, hrest⟩ := rising_cons.1 hm
    simp only [Memory.put]
    split
    · refine rising_cons.2 ⟨fun c hc => ?_, hm⟩
      rcases List.mem_cons.1 hc with rfl | hc
      · assumption
      · exact lt_trans ‹_› (hlow c hc)
    · split
      · subst_vars; exact rising_cons.2 ⟨hlow, hrest⟩
      · refine rising_cons.2 ⟨fun c hc => ?_, ih hrest⟩
        rcases mem_put hc with rfl | hc
        · dsimp only; omega
        · exact hlow c hc

theorem rising_drop {m : Memory} (hm : Memory.rising m = true) (a : Nat) :
    Memory.rising (Memory.drop m a) = true := by
  induction m with
  | nil => rfl
  | cons c rest ih =>
    obtain ⟨j, w⟩ := c
    obtain ⟨hlow, hrest⟩ := rising_cons.1 hm
    simp only [Memory.drop]
    split
    · exact ih hrest
    · exact rising_cons.2 ⟨fun c hc => hlow c (mem_drop hc), ih hrest⟩

/-! ## The canonical form -/

theorem wf_iff {u : Option Byte} {m : Memory} :
    Memory.wf u m = true ↔
      Memory.rising m = true ∧ ∀ c ∈ m, c.1 < Config.fbBytes ∧ u ≠ some c.2 := by
  simp [Memory.wf]

theorem rising_of_wf {u : Option Byte} {m : Memory} (h : Memory.wf u m = true) :
    Memory.rising m = true := (wf_iff.1 h).1

@[simp] theorem wf_nil (u : Option Byte) : Memory.wf u [] = true := rfl

/-- A write inside the space keeps the canonical form. -/
theorem write_wf {u : Option Byte} {m : Memory} (hm : Memory.wf u m = true) {a : Nat}
    (ha : a < Config.fbBytes) (v : Byte) : Memory.wf u (Memory.write u m a v) = true := by
  obtain ⟨hr, hc⟩ := wf_iff.1 hm
  unfold Memory.write
  split
  · exact wf_iff.2 ⟨rising_drop hr a, fun c h => hc c (mem_drop h)⟩
  · refine wf_iff.2 ⟨rising_put hr a v, fun c h => ?_⟩
    rcases mem_put h with rfl | h
    · exact ⟨ha, ‹_›⟩
    · exact hc c h

/-! ## Read after write -/

theorem read_write (u : Option Byte) (m : Memory) (a k : Nat) (v : Byte) :
    Memory.read u (Memory.write u m a v) k = if k = a then some v else Memory.read u m k := by
  unfold Memory.read Memory.write
  by_cases hu : u = some v
  · rw [if_pos hu, byteAt_drop]
    by_cases h : k = a <;> simp [h, hu]
  · rw [if_neg hu, byteAt_put]
    by_cases h : k = a <;> simp [h]

theorem fbRead_fbWrite (m : Memory) (i k : Nat) (v : Byte) :
    fbRead (fbWrite m i v) k = if k = i then v else fbRead m k := by
  unfold fbRead fbWrite
  rw [read_write]
  split <;> rfl

theorem ddramRead_ddramWrite (m : Memory) (i k : Nat) (v : Byte) :
    ddramRead (ddramWrite m i v) k = if k = i then some v else ddramRead m k :=
  read_write _ m i k v

@[simp] theorem fbRead_nil (i : Nat) : fbRead [] i = 0#8 := rfl
@[simp] theorem ddramRead_nil (i : Nat) : ddramRead [] i = none := rfl

theorem fbWrite_wf {m : Memory} (hm : Memory.wf Config.fbUnlisted m = true) {i : Nat}
    (hi : i < Config.fbBytes) (v : Byte) : Memory.wf Config.fbUnlisted (fbWrite m i v) = true :=
  write_wf hm hi v

theorem ddramWrite_wf {m : Memory} (hm : Memory.wf Config.ddramUnlisted m = true) {i : Nat}
    (hi : i < Config.fbBytes) (v : Byte) :
    Memory.wf Config.ddramUnlisted (ddramWrite m i v) = true := write_wf hm hi v

end Sys2Proof.Machine
end

