-- ==== Sys2Proof/Laws/Operations.lean ====
section
/-! SUPPORT. What the shared operations do, once each: the flow of an operation and its guards, a
frame that fails, the dirty flags, and a pixel written. -/

namespace Sys2Proof.Machine

/-! ## The flow -/

@[simp] theorem Flow.step_go (s : State) (n : Nat) (g : State → Flow) :
    (Flow.go s).step n g = g (s.setUpc (some n)) := rfl
@[simp] theorem Flow.step_raised (e : ErrorCode) (s : State) (n : Nat) (g : State → Flow) :
    (Flow.raised e s).step n g = .raised e s := rfl
@[simp] theorem Flow.andThen_go (s : State) (g : State → Flow) : (Flow.go s).andThen g = g s := rfl
@[simp] theorem Flow.andThen_raised (e : ErrorCode) (s : State) (g : State → Flow) :
    (Flow.raised e s).andThen g = .raised e s := rfl
@[simp] theorem Flow.update_go (s : State) (u : State → State) : (Flow.go s).update u = .go (u s) :=
  rfl
@[simp] theorem Flow.update_raised (e : ErrorCode) (s : State) (u : State → State) :
    (Flow.raised e s).update u = .raised e s := rfl
@[simp] theorem finish_go (v : BitVec 16) (s : State) : finish v (.go s) = returnOk v s := rfl
@[simp] theorem finish_raised (v : BitVec 16) (e : ErrorCode) (s : State) :
    finish v (.raised e s) = raiseError e s := rfl

theorem guardState_pass {c : CtrlState} {s : State} (h : s.ctrl = c) :
    guardState c s = .go (s.setUpc (some 0)) := if_pos h
theorem guardState_refuse {c : CtrlState} {s : State} (h : s.ctrl ≠ c) :
    guardState c s = .raised .invalidState (s.setUpc (some 0)) := if_neg h

theorem inRange_iff (x y : Byte) : inRange x y = true ↔ x.toNat < 84 ∧ y.toNat < 48 := by
  simp [inRange]

theorem guardRange_pass {x y : Byte} (hx : x.toNat < 84) (hy : y.toNat < 48) (s : State) :
    guardRange x y s = .go (s.setUpc (some 0)) := if_pos ((inRange_iff x y).2 ⟨hx, hy⟩)
theorem guardRange_refuse {x y : Byte} (h : 84 ≤ x.toNat ∨ 48 ≤ y.toNat) (s : State) :
    guardRange x y s = .raised .outOfBounds (s.setUpc (some 0)) :=
  if_neg fun hr => by have := (inRange_iff x y).1 hr; omega

/-- The fields of a result word (rule R100). -/
theorem resultWord_fields (v : BitVec 16) (st : Byte) : (resultWord v st).extractLsb' 24 8 = 0#8 ∧
    resultStatus (resultWord v st) = st ∧ resultVal (resultWord v st) = v := by
  have h : (resultWord v st).toNat = v.toNat * 256 + st.toNat := by
    have := v.isLt
    have := st.isLt
    simp only [resultWord, BitVec.toNat_append, BitVec.toNat_ofNat, Nat.shiftLeft_eq,
      Nat.zero_mod, Nat.zero_mul, Nat.zero_or]
    rw [← Nat.shiftLeft_eq, ← Nat.shiftLeft_add_eq_or_of_lt st.isLt, Nat.shiftLeft_eq]
  have := v.isLt
  have := st.isLt
  refine ⟨?_, ?_, ?_⟩ <;> apply BitVec.eq_of_toNat_eq <;>
    simp only [resultStatus, resultVal, BitVec.extractLsb'_toNat, h, Nat.shiftRight_eq_div_pow,
      BitVec.toNat_ofNat] <;> omega

/-- The status of a completion: Ok if the operation went to its end, else the error's (rule R240). -/
theorem resultStatus_go (v : BitVec 16) (s : State) :
    resultStatus (finish v (.go s)).rslt = statusOk := (resultWord_fields v statusOk).2.1
theorem resultStatus_raised (v : BitVec 16) (e : ErrorCode) (s : State) :
    resultStatus (finish v (.raised e s)).rslt = e.status := (resultWord_fields 0 e.status).2.1

/-! ## A frame that fails -/

theorem pinSet_fst (p : Pin) (l : Bool) (s : State) : (pinSet p l s).1 = (nextAnswer s.env).1 := by
  unfold pinSet drawAnswer
  rcases nextAnswer s.env with ⟨_ | _, e⟩ <;> rfl

theorem busXfer_fst (s : State) : (busXfer s).1 = (nextAnswer s.env).1 := by
  unfold busXfer drawAnswer
  rcases nextAnswer s.env with ⟨_ | _, e⟩ <;> rfl

/-- A frame succeeds only if every answer was ok. -/
theorem frame_go_answers {dc : Bool} {bytes : List Byte} {s t : State}
    (h : frame dc bytes s = .go t) : answersOk (frameActions s.params) s.env := by
  by_contra hn
  unfold frame driveCs at h
  by_cases hc : s.params.hasCsPin = true
  · simp only [frameActions, hc, if_true, answersOk, List.replicate, answersAre_cons,
      answersAre_nil, and_true, not_and] at hn
    by_cases h1 : (nextAnswer s.env).1 = true
    · by_cases h2 : (nextAnswer (nextAnswer s.env).2).1 = true
      · by_cases h3 : (nextAnswer (nextAnswer (nextAnswer s.env).2).2).1 = true
        · simp [hc, pinSet, drawAnswer, chipSeesDrive, setLatch, orBusError, Flow.andThen,
            Flow.update, busXfer, deliver, chipSelected, h1, h2, h3, hn h1 h2 h3] at h
        · simp [hc, pinSet, drawAnswer, chipSeesDrive, setLatch, orBusError, Flow.andThen,
            Flow.update, busXfer, h1, h2, h3] at h
      · simp [hc, pinSet, drawAnswer, chipSeesDrive, setLatch, orBusError, Flow.andThen,
          h1, h2] at h
    · simp [hc, pinSet, drawAnswer, orBusError, Flow.andThen, h1] at h
  · simp only [frameActions, hc, answersOk, List.replicate, answersAre_cons, answersAre_nil,
      and_true, not_and, Bool.false_eq_true, if_false] at hn
    by_cases h1 : (nextAnswer s.env).1 = true
    · simp [hc, pinSet, drawAnswer, chipSeesDrive, setLatch, orBusError, Flow.andThen,
        Flow.update, busXfer, h1, hn h1] at h
    · simp [hc, pinSet, drawAnswer, orBusError, Flow.andThen, h1] at h

/-- The trace of a frame that fails (rules R120, R121, R127). -/
theorem frame_fail_events {s t : State} {dc : Bool} {bytes : List Byte} {e : ErrorCode}
    (h : frame dc bytes s = .raised e t) :
    ∃ l ∈ failedFrameEvents s.params dc bytes, t.lt = s.lt ++ l := by
  unfold frame driveCs at h
  unfold failedFrameEvents
  by_cases hc : s.params.hasCsPin = true <;> by_cases h1 : (nextAnswer s.env).1 = true <;>
    by_cases h2 : (nextAnswer (nextAnswer s.env).2).1 = true <;>
    by_cases h3 : (nextAnswer (nextAnswer (nextAnswer s.env).2).2).1 = true <;>
    by_cases h4 : (nextAnswer (nextAnswer (nextAnswer (nextAnswer s.env).2).2).2).1 = true <;>
    simp [hc, pinSet, drawAnswer, chipSeesDrive, chipSeesFailedDrive, setLatch, orBusError,
      Flow.andThen, Flow.update, busXfer, deliver, deliverPart, chipSelected, countChipDraw,
      h1, h2, h3, h4] at h <;>
    obtain ⟨-, rfl⟩ := h <;>
    simp [hc]

/-- A frame one of whose line actions is answered fail (rules R124, R127). -/
theorem frame_fail {s : State} (dc : Bool) (bytes : List Byte)
    (h : ¬ answersOk (frameActions s.params) s.env) :
    ∃ t, frame dc bytes s = .raised .busError t ∧ LineOnly s t ∧ t.txb = [] ∧
      ∃ l ∈ failedFrameEvents s.params dc bytes, t.lt = s.lt ++ l := by
  cases hf : frame dc bytes s with
  | go t => exact absurd (frame_go_answers hf) h
  | raised e t =>
    obtain ⟨ht, rfl⟩ := frame_clean dc bytes s e t hf
    have hl := frame_lineOnly dc bytes s
    rw [hf] at hl
    exact ⟨t, rfl, hl, ht, frame_fail_events hf⟩

theorem frameLines_frameLines (p : Params) (d e : Bool) (l : Lines) :
    frameLines p d (frameLines p e l) = frameLines p d l := by
  simp only [frameLines]
  split <;> rfl

/-- What a frame does whatever the answers: all of it, or BusError with only the lines touched. -/
theorem frame_cases (dc : Bool) (bytes : List Byte) (s : State) :
    (answersOk (frameActions s.params) s.env ∧ frame dc bytes s = .go { s with
      txb := []
      lt := s.lt ++ frameEvents s.params dc bytes
      lines := frameLines s.params dc s.lines
      wire := s.wire ++ chipBytes dc bytes
      env := skipAnswers (frameActions s.params) s.env }) ∨
    (¬ answersOk (frameActions s.params) s.env ∧
      ∃ t, frame dc bytes s = .raised .busError t ∧ LineOnly s t ∧ t.txb = [] ∧
        ∃ l ∈ failedFrameEvents s.params dc bytes, t.lt = s.lt ++ l) := by
  by_cases h : answersOk (frameActions s.params) s.env
  · exact .inl ⟨h, frame_ok dc bytes h⟩
  · exact .inr ⟨h, frame_fail dc bytes h⟩

/-! ## A run of frames -/

/-- Only lines, trace, draws, inputs of the chip, TXB and UPC differ, and the trace has grown. -/
structure OnLines (s t : State) : Prop where
  rest : t = { s with lines := t.lines, lt := t.lt, env := t.env, wire := t.wire, txb := t.txb,
                      upc := t.upc }
  grown : s.lt <+: t.lt

theorem OnLines.refl (s : State) : OnLines s s := ⟨rfl, List.prefix_rfl⟩

theorem OnLines.trans {s t u : State} (h : OnLines s t) (k : OnLines t u) : OnLines s u := by
  refine ⟨?_, h.grown.trans k.grown⟩
  have h1 := h.rest
  have k1 := k.rest
  rw [h1] at k1
  simpa using k1

theorem LineOnly.onLines {s t : State} (h : LineOnly s t) : OnLines s t := by
  refine ⟨?_, h.grown⟩
  have h1 := h.rest
  have hu : t.upc = s.upc := by rw [h1]
  rw [hu]
  exact h1

theorem OnLines.setUpc (s : State) (u : Option Nat) : OnLines s (s.setUpc u) :=
  ⟨rfl, List.prefix_rfl⟩

/-- Lines, trace, draws, inputs of the chip and TXB are the same. -/
structure SameLines (s t : State) : Prop where
  env : t.env = s.env
  lt : t.lt = s.lt
  lines : t.lines = s.lines
  wire : t.wire = s.wire
  txb : t.txb = s.txb

/-- The lines after the command bytes bs have been sent from s0, one frame each. -/
structure SentLines (s0 : State) (bs : List Byte) (t : State) : Prop where
  env : t.env = skipAnswers (bs.length * frameActions s0.params) s0.env
  lt : t.lt = s0.lt ++ commandEvents s0.params bs
  wire : t.wire = s0.wire ++ chipBytes false bs
  again : frameLines s0.params false t.lines = frameLines s0.params false s0.lines
  lines : bs ≠ [] → t.lines = frameLines s0.params false s0.lines
  txb : bs ≠ [] → t.txb = []

theorem SentLines.start (s : State) (u : Option Nat) : SentLines s [] (s.setUpc u) :=
  ⟨by simp [skipAnswers], by simp [commandEvents], by simp [chipBytes], rfl, fun h => absurd rfl h,
    fun h => absurd rfl h⟩

theorem SentLines.same {s0 t u : State} {bs : List Byte} (h : SentLines s0 bs t)
    (k : SameLines t u) : SentLines s0 bs u :=
  ⟨k.env.trans h.env, k.lt.trans h.lt, k.wire.trans h.wire, by rw [k.lines]; exact h.again,
    fun hb => k.lines.trans (h.lines hb), fun hb => k.txb.trans (h.txb hb)⟩

/-- A flow that began at s0 and sends the command bytes bs, one frame each; `base n` is the state,
but for the lines, after n of them. It has sent them all, or it stopped with BusError in the frame of
one of them, after the frames before it. -/
def Flow.Sends (s0 : State) (base : Nat → State) (bs : List Byte) : Flow → Prop
  | .go t => OnLines (base bs.length) t ∧ answersOk (bs.length * frameActions s0.params) s0.env ∧
      SentLines s0 bs t
  | .raised e t => e = .busError ∧ ∃ (n : Nat) (h : n < bs.length), OnLines (base n) t ∧
      answersOk (n * frameActions s0.params) s0.env ∧
      ¬ answersOk ((n + 1) * frameActions s0.params) s0.env ∧
      ∃ l ∈ failedFrameEvents s0.params false [bs[n]],
        t.lt = s0.lt ++ commandEvents s0.params (bs.take n) ++ l

theorem Flow.sends_start {s0 : State} {base : Nat → State} (h : base 0 = s0) (u : Option Nat) :
    (Flow.go (s0.setUpc u)).Sends s0 base [] :=
  ⟨h ▸ .setUpc s0 u, by simp [answersOk], .start s0 u⟩

/-- One more numbered step that sends a command byte c, and what it writes when that has succeeded. -/
theorem Flow.Sends.send {s0 : State} {base : Nat → State} {bs : List Byte} {f : Flow}
    (hf : f.Sends s0 base bs) (n : Nat) {b : State → Byte} {c : Byte} {u : State → State}
    (hp : (base bs.length).params = s0.params)
    (hb : ∀ t, OnLines (base bs.length) t → b t = c)
    (hu : ∀ t, OnLines (base bs.length) t →
      OnLines (base (bs.length + 1)) (u t) ∧ SameLines t (u t)) :
    (f.step n fun s => (sendCommand (b s) s).update u).Sends s0 base (bs ++ [c]) := by
  cases f with
  | raised e t =>
    obtain ⟨he, k, hk, h1, h2, h3, l, hl, ht⟩ := hf
    refine ⟨he, k, by simp; omega, h1, h2, h3, l, ?_, ?_⟩
    · rwa [List.getElem_append_left hk]
    · rw [ht, List.take_append_of_le_length (by omega)]
  | go s =>
    obtain ⟨hl, ha, hs⟩ := hf
    have he := hs.env
    have ht := hs.lt
    have hl' := hl.trans (.setUpc s (some n))
    have hsp : (s.setUpc (some n)).params = s0.params := by
      rw [hl'.rest]
      exact hp
    have hse : (s.setUpc (some n)).env = s.env := rfl
    simp only [Flow.step_go, sendCommand, hb _ hl']
    have hsucc : (bs.length + 1) * frameActions s0.params =
        bs.length * frameActions s0.params + frameActions s0.params := by ring
    obtain ⟨hok, e⟩ | ⟨hno, t, e, hlt, -, l, hl1, hl2⟩ := frame_cases false [c] (s.setUpc (some n))
    · have hgo := frame_lineOnly false [c] (s.setUpc (some n))
      rw [e] at hgo
      simp only [Flow.state] at hgo
      rw [hsp, hse, he] at hok
      obtain ⟨h1, h2⟩ := hu _ (hl'.trans hgo.onLines)
      rw [e]
      refine ⟨?_, ?_, SentLines.same ⟨?_, ?_, ?_, ?_, ?_, ?_⟩ h2⟩
      · rw [List.length_append]
        exact h1
      · rw [List.length_append, List.length_singleton, hsucc]
        exact (answersOk_add _ _ _).2 ⟨ha, hok⟩
      · rw [List.length_append, List.length_singleton, hsucc, skipAnswers_add, ← he]
        simp only [hsp, hse]
      · simp only [State.setUpc_lt, hsp, ht, commandEvents, List.flatMap_append,
          List.flatMap_cons, List.flatMap_nil, List.append_nil, List.append_assoc]
      · simp only [State.setUpc_wire, hs.wire, chipBytes, List.map_append, List.append_assoc]
      · simp only [State.setUpc_lines, hsp, hs.again, frameLines_frameLines]
      · intro
        simp only [State.setUpc_lines, hsp, hs.again]
      · intro
        rfl
    · rw [hsp, hse, he] at hno
      rw [e]
      refine ⟨rfl, bs.length, by simp, hl'.trans hlt.onLines, ha, ?_, l, ?_, ?_⟩
      · rw [hsucc, answersOk_add]
        exact fun h => hno h.2
      · rw [hsp] at hl1
        simpa using hl1
      · rw [hl2, List.take_append_of_le_length (by omega), List.take_length, State.setUpc_lt, ht]

/-- The same for a step that writes nothing. -/
theorem Flow.Sends.sendOnly {s0 : State} {base : Nat → State} {bs : List Byte} {f : Flow}
    (hf : f.Sends s0 base bs) (n : Nat) {b : State → Byte} {c : Byte}
    (hp : (base bs.length).params = s0.params)
    (hb : ∀ t, OnLines (base bs.length) t → b t = c) (hu : base (bs.length + 1) = base bs.length) :
    (f.step n fun s => sendCommand (b s) s).Sends s0 base (bs ++ [c]) := by
  have h := hf.send n (u := id) hp hb fun t ht => ⟨hu ▸ ht, rfl, rfl, rfl, rfl, rfl⟩
  have hid : ∀ g : Flow, g.update id = g := fun g => by cases g <;> rfl
  simpa only [hid] using h

/-! ## The reset line -/

/-- Driving the reset line, answered ok. -/
theorem driveReset_ok {l : Bool} {s : State} (h : (nextAnswer s.env).1 = true) :
    driveReset l s = .go { s with
      lines := { s.lines with resl := levelOf l }
      lt := s.lt ++ [.pin .res l]
      wire := if l then s.wire else s.wire ++ [.resetPulse]
      env := (nextAnswer s.env).2 } := by
  cases l <;>
    simp [driveReset, pinSet, drawAnswer, h, chipSeesDrive, setLatch, State.setEnv, State.setLines,
      State.log, State.sendWire]

/-- Driving the reset line, answered fail (rules R120, R162). -/
theorem driveReset_fail {l : Bool} {s : State} (h : (nextAnswer s.env).1 = false) :
    ∃ e w, driveReset l s = .raised .pinError { s with
      ctrl := .uninitialized
      lines := { s.lines with resl := .unknown }
      lt := s.lt ++ [.pinFail .res]
      wire := w
      env := e } ∧ s.wire <+: w := by
  refine ⟨{ (nextAnswer s.env).2 with chipDrawn := (nextAnswer s.env).2.chipDrawn + 1 },
    s.wire ++ (if Config.resetSeen (nextAnswer s.env).2.chipDrawn then [.resetPulse] else []),
    ?_, List.prefix_append _ _⟩
  simp [driveReset, pinSet, drawAnswer, h, chipSeesFailedDrive, setLatch, State.setEnv,
    State.setLines, State.log, State.sendWire, countChipDraw, State.setCtrl]
  rfl

/-- The draw of a wait leaves the answers to come as they are. -/
theorem nextAnswer_nextExcess (e : Env) : (nextAnswer (nextExcess e).2).1 = (nextAnswer e).1 := by
  unfold nextAnswer nextExcess
  cases e.answers <;> cases e.waits <;> rfl

/-- The duration a RESET waits, if it gets to wait. -/
def resetWait (s : State) : Nat := s.params.tResMin + (nextExcess (nextAnswer s.env).2).1

/-- The environment's draws once the reset line has gone high again. -/
def resetEnv (s : State) : Env := (nextAnswer (nextExcess (nextAnswer s.env).2).2).2

/-- RESET with both drives answered ok. -/
theorem resetFlow_ok {s : State} (h : answersAre [true, true] s.env) :
    resetFlow s = .go { s with
      fb := []
      dirty := Vector.replicate 6 s.params.resetDirty
      cur := { col := 0, band := 0 }
      ctrl := .inReset
      lines := { s.lines with resl := .high }
      lt := s.lt ++ [.pin .res false, .wait (resetWait s), .pin .res true] ++
        (if s.params.tResPost = 0 then [] else
          [.wait (s.params.tResPost + (nextExcess (resetEnv s)).1)])
      wire := s.wire ++ [.resetPulse]
      env := if s.params.tResPost = 0 then resetEnv s else (nextExcess (resetEnv s)).2
      upc := some 5 } := by
  obtain ⟨h1, h2, -⟩ := h
  unfold resetFlow
  simp only [Flow.step_go]
  rw [driveReset_ok (by exact h1)]
  simp only [Flow.step_go]
  rw [driveReset_ok (by exact (nextAnswer_nextExcess _).trans h2)]
  simp only [Flow.update_go, Flow.step_go, waitAfterReset]
  by_cases hp : s.params.tResPost = 0 <;>
    simp [hp, clearForReset, setAllDirty, waitReset, waitAtLeast, State.setUpc, State.setEnv,
      State.log, State.setFb, State.setDirty, State.setCur, State.setCtrl, resetWait, resetEnv,
      levelOf]

/-- RESET with a failed drive. -/
theorem resetFlow_fail {s : State} (h : ¬ answersAre [true, true] s.env) :
    ∃ e w u, resetFlow s = .raised .pinError { s with
      ctrl := .uninitialized
      lines := { s.lines with resl := .unknown }
      lt := s.lt ++ (if (nextAnswer s.env).1 then
        [.pin .res false, .wait (resetWait s), .pinFail .res] else [.pinFail .res])
      wire := w
      env := e
      upc := u } ∧ s.wire <+: w := by
  unfold resetFlow
  simp only [Flow.step_go]
  by_cases h1 : (nextAnswer s.env).1 = true
  · have h2 : (nextAnswer (nextExcess (nextAnswer s.env).2).2).1 = false := by
      rw [nextAnswer_nextExcess]
      by_contra hh
      exact h ⟨h1, by simpa using hh, trivial⟩
    rw [driveReset_ok (by exact h1)]
    simp only [Flow.step_go]
    obtain ⟨e, w, hf, hw⟩ := driveReset_fail (l := true) (s := (waitReset { s with
      lines := { s.lines with resl := levelOf false }
      lt := s.lt ++ [.pin .res false]
      wire := s.wire ++ [.resetPulse]
      upc := some 2
      env := (nextAnswer s.env).2 }).setUpc (some 3)) (by exact h2)
    refine ⟨e, w, some 3, ?_, (List.prefix_append _ _).trans hw⟩
    have hd := congrArg (fun f => ((f.update waitAfterReset).step 4
      (fun s => .go (clearForReset s))).step 5 (fun s => .go (s.setCtrl .inReset))) hf
    refine hd.trans ?_
    simp [h1, waitReset, waitAtLeast, State.setUpc, State.setEnv, State.log, resetWait]
  · obtain ⟨e, w, hf, hw⟩ := driveReset_fail (l := false) (s := s.setUpc (some 1)) (by simpa using h1)
    exact ⟨e, w, some 1, by rw [hf]; simp [h1, State.setUpc], hw⟩

/-! ## The dirty flags -/

theorem flag_set (d : Vector Bool 6) (b c : Fin 6) (v : Bool) :
    (d.set b.val v)[c.val] = if c = b then v else d[c.val] := by
  simp only [Vector.getElem_set, Fin.ext_iff, eq_comm]

@[simp] theorem markDirty_params (s : State) (b : Fin 6) : (markDirty s b).params = s.params := by
  unfold markDirty; split <;> rfl
@[simp] theorem markDirty_fb (s : State) (b : Fin 6) : (markDirty s b).fb = s.fb := by
  unfold markDirty; split <;> rfl
@[simp] theorem markDirty_text (s : State) (b : Fin 6) : (markDirty s b).text = s.text := by
  unfold markDirty; split <;> rfl

theorem markDirty_rest (s : State) (b : Fin 6) :
    markDirty s b = { s with dirty := (markDirty s b).dirty } := by
  unfold markDirty; split <;> rfl

theorem isDirty_markDirty_self (s : State) (b : Fin 6) : isDirty (markDirty s b) b = true := by
  unfold isDirty markDirty
  cases h : s.params.granule <;> simp [h]

theorem isDirty_markDirty (s : State) (b c : Fin 6) (h : isDirty s c = true ∨ c = b) :
    isDirty (markDirty s b) c = true := by
  unfold isDirty markDirty at *
  cases hg : s.params.granule
  · simp only [hg] at h ⊢
    by_cases hc : c = b <;> simp_all [flag_set]
  · simp [hg]

theorem isDirty_markDirty_other {s : State} (hg : s.params.granule = .band) {b c : Fin 6}
    (h : c ≠ b) : isDirty (markDirty s b) c = isDirty s c := by
  simp [isDirty, markDirty, hg, flag_set, h]

theorem isDirty_clearDirty_other {s : State} (hg : s.params.granule = .band) {b c : Fin 6}
    (h : c ≠ b) : isDirty (clearDirty s b) c = isDirty s c := by
  simp [isDirty, clearDirty, hg, flag_set, h]

theorem isDirty_clearDirty_self {s : State} (hg : s.params.granule = .band) (b : Fin 6) :
    isDirty (clearDirty s b) b = false := by
  simp [isDirty, clearDirty, hg]

theorem clearDirty_rest (s : State) (b : Fin 6) :
    clearDirty s b = { s with dirty := (clearDirty s b).dirty } := by
  unfold clearDirty; split <;> (try split) <;> rfl

/-! ## A pixel written -/

theorem withBit_get (b : Byte) (k j : Nat) (v : Bool) (hj : j < 8) :
    (withBit b k v).getLsbD j = if j = k then v else b.getLsbD j := by
  unfold withBit
  by_cases h : j = k
  · subst h; cases v <;> simp [hj]
  · have hb : (1#8 <<< k).getLsbD j = false := by
      simp only [BitVec.getLsbD_shiftLeft, BitVec.getLsbD_one]
      by_cases hk : j < k <;> simp [hk]
      omega
    cases v <;>
      simp only [h, if_true, if_false, Bool.false_eq_true, BitVec.getLsbD_or, BitVec.getLsbD_and,
        BitVec.getLsbD_not, hb, hj] <;> simp

theorem writePixel_rest (x y : Byte) (v : Bool) (s : State) :
    writePixel x y v s =
      { s with fb := (writePixel x y v s).fb, dirty := (writePixel x y v s).dirty } := by
  unfold writePixel drawBit
  rw [markDirty_rest]
  rfl

@[simp] theorem writePixel_params (x y : Byte) (v : Bool) (s : State) :
    (writePixel x y v s).params = s.params := by simp [writePixel, drawBit]
@[simp] theorem writePixel_text (x y : Byte) (v : Bool) (s : State) :
    (writePixel x y v s).text = s.text := by simp [writePixel, drawBit]

/-- The step number plays no part in writing a pixel. -/
theorem writePixel_setUpc (x y : Byte) (v : Bool) (s : State) (u : Option Nat) :
    writePixel x y v (s.setUpc u) = (writePixel x y v s).setUpc u := by
  unfold writePixel drawBit markDirty
  simp only [State.setFb_params, State.setUpc_params]
  split <;> rfl

theorem writePixel_fb (x y : Byte) (v : Bool) (s : State) : (writePixel x y v s).fb =
    fbWrite s.fb (mapIdx x y) (withBit (fbRead s.fb (mapIdx x y)) (mapBit y) v) := by
  simp [writePixel, drawBit]

theorem fbRead_writePixel (x y : Byte) (v : Bool) (s : State) (k : Nat) :
    fbRead (writePixel x y v s).fb k =
      if k = mapIdx x y then withBit (fbRead s.fb k) (mapBit y) v else fbRead s.fb k := by
  rw [writePixel_fb, fbRead_fbWrite]
  split <;> simp_all

/-- Different pixels in range have different places (rule R63). -/
theorem mapPixel_injective {x y x' y' : Byte} (hx : x.toNat < 84) (hx' : x'.toNat < 84)
    (hi : mapIdx x' y' = mapIdx x y) (hb : mapBit y' = mapBit y) : x' = x ∧ y' = y := by
  simp only [mapIdx, mapBit, Config.width] at hi hb
  constructor <;> apply BitVec.eq_of_toNat_eq <;> omega

/-- A pixel written reads as written, and no other pixel in range changes (rule R188 (a), (d)). -/
theorem pixelAt_writePixel {x y x' y' : Byte} (hx : x.toNat < 84) (hx' : x'.toNat < 84) (v : Bool)
    (s : State) : pixelAt (writePixel x y v s).fb x' y' =
      if x' = x ∧ y' = y then v else pixelAt s.fb x' y' := by
  unfold pixelAt
  rw [fbRead_writePixel]
  by_cases hi : mapIdx x' y' = mapIdx x y
  · rw [if_pos hi, withBit_get _ _ _ _ (show mapBit y' < 8 from Nat.mod_lt _ (by decide))]
    by_cases hb : mapBit y' = mapBit y
    · rw [if_pos hb, if_pos (mapPixel_injective hx hx' hi hb)]
    · rw [if_neg hb, if_neg fun h => hb (by rw [h.2])]
  · rw [if_neg hi, if_neg fun h => hi (by rw [h.1, h.2])]

theorem bandOf_val {y : Byte} (hy : y.toNat < 48) : (bandOf y).val = y.toNat / 8 := by
  simp only [bandOf, Fin.ofNat]; omega

theorem isDirty_writePixel_self (x y : Byte) (v : Bool) (s : State) :
    isDirty (writePixel x y v s) (bandOf y) = true := isDirty_markDirty_self _ _

theorem isDirty_writePixel_other {s : State} (hg : s.params.granule = .band) (x : Byte) {y : Byte}
    (v : Bool) {c : Fin 6} (h : c ≠ bandOf y) : isDirty (writePixel x y v s) c = isDirty s c :=
  isDirty_markDirty_other (s := drawBit x y v s) hg h

/-- The numbered steps of a pixel operation in range write the pixel (rules R182, R183). -/
theorem pixelFlow_pass {x y : Byte} (hx : x.toNat < 84) (hy : y.toNat < 48) (v : Bool) (s : State) :
    pixelFlow x y v s = .go (writePixel x y v (s.setUpc (some 3))) := by
  unfold pixelFlow
  rw [guardRange_pass hx hy]
  rfl

theorem pixelFlow_refuse {x y : Byte} (h : 84 ≤ x.toNat ∨ 48 ≤ y.toNat) (v : Bool) (s : State) :
    pixelFlow x y v s = .raised .outOfBounds (s.setUpc (some 0)) := by
  unfold pixelFlow
  rw [guardRange_refuse h]
  rfl

/-! ## The cursor advance -/

theorem advanceN_add (mode : AddrMode) (n m : Nat) (c : Cursor) :
    advanceN mode (n + m) c = advanceN mode m (advanceN mode n c) := by
  induction n generalizing c with
  | zero => simp [advanceN]
  | succ n ih => rw [Nat.add_right_comm]; exact ih _

/-- Inside a band the horizontal cursor moves along it (rule R221). -/
theorem advanceN_horizontal (n : Nat) (h : n < 84) (b : Fin 6) :
    advanceN .horizontal n { col := 0, band := b } = { col := ⟨n, h⟩, band := b } := by
  induction n with
  | zero => rfl
  | succ n ih =>
    have hc : (⟨n, by omega⟩ : Fin 84) < 83 := Fin.lt_def.2 (by show n < 83; omega)
    rw [advanceN_add, ih (by omega)]
    simp only [advanceN, advance, if_pos hc, Cursor.mk.injEq, and_true]
    apply Fin.ext
    simp only [Fin.val_add]
    show (n + 1) % 84 = n + 1
    omega

end Sys2Proof.Machine
end

