-- ==== Sys2Proof/Laws/Flush.lean ====
section
/-! SUPPORT. What FLUSH does, band by band: the bands sent, the flags cleared, and where it stands when
a line action fails (rules R226, R227). -/

namespace Sys2Proof.Machine

/-- Whether FLUSH sends a band (rule R226, L1). -/
def wanted (s : State) (b : Fin 6) : Bool := s.params.flushAll || isDirty s b

theorem sentBands_eq (s : State) : sentBands s = ([0, 1, 2, 3, 4, 5] : List (Fin 6)).filter (wanted s) :=
  rfl

/-! ## One band -/

/-- The state after a band has been sent, its address and its data frame answered ok. -/
def afterBand (b : Fin 6) (s : State) : State :=
  clearDirty { s with
    cur := advanceN s.cfg.addrmode 84 { col := 0, band := b }
    lines := frameLines s.params true s.lines
    lt := s.lt ++ bandEvents s.params s.fb b
    wire := s.wire ++ (chipBytes false (addressBytes s.params.enc { col := 0, band := b }) ++
      chipBytes true (bandBytes s.fb b))
    env := skipAnswers (2 * frameActions s.params) s.env
    txb := []
    upc := some 4 } b

theorem sendBand_ok {b : Fin 6} {s : State} (h : answersOk (2 * frameActions s.params) s.env) :
    sendBand b s = .go (afterBand b s) := by
  have h1 : answersOk (frameActions s.params) s.env := answersOk_mono (by omega) h
  have h2 := answersOk_after (k := frameActions s.params) (n := frameActions s.params) h (by omega)
  have e2 : skipAnswers (frameActions s.params) (skipAnswers (frameActions s.params) s.env) =
      skipAnswers (2 * frameActions s.params) s.env := by
    rw [← skipAnswers_add]; congr 1; omega
  unfold sendBand sendAddress sendCommands sendData
  simp only [Flow.step_go]
  rw [frame_ok _ _ (by exact h1)]
  simp only [Flow.update_go, Flow.step_go]
  rw [frame_ok _ _ (by exact h2)]
  simp only [Flow.update_go, Flow.step_go]
  simp [State.setUpc, State.setCur, afterBand, e2, frameLines_frameLines, bandEvents]

/-- A band whose address frame fails: nothing but the lines is touched. -/
theorem sendBand_fail_address {b : Fin 6} {s : State}
    (h : ¬ answersOk (frameActions s.params) s.env) :
    ∃ t, sendBand b s = .raised .busError t ∧ OnLines s t ∧
      ∃ l ∈ failedFrameEvents s.params false (addressBytes s.params.enc { col := 0, band := b }),
        t.lt = s.lt ++ l := by
  obtain ⟨t, e, hl, -, he⟩ := frame_fail (s := s.setUpc (some 2)) false
    (addressBytes s.params.enc { col := 0, band := b }) h
  refine ⟨t, ?_, (OnLines.setUpc s _).trans hl.onLines, he⟩
  unfold sendBand sendAddress sendCommands
  simp only [Flow.step_go, State.setUpc_params]
  rw [e]
  rfl

/-- A band whose data frame fails: the address has been sent and mirrored, the flag stays. -/
theorem sendBand_fail_data {b : Fin 6} {s : State} (h : answersOk (frameActions s.params) s.env)
    (h' : ¬ answersOk (2 * frameActions s.params) s.env) :
    ∃ t, sendBand b s = .raised .busError t ∧ OnLines (s.setCur { col := 0, band := b }) t ∧
      ∃ l ∈ failedFrameEvents s.params true (bandBytes s.fb b), t.lt = s.lt ++
        (frameEvents s.params false (addressBytes s.params.enc { col := 0, band := b }) ++ l) := by
  have h2 : ¬ answersOk (frameActions s.params) (skipAnswers (frameActions s.params) s.env) :=
    fun hh => h' (by rw [Nat.two_mul]; exact (answersOk_add _ _ _).2 ⟨h, hh⟩)
  unfold sendBand sendAddress sendCommands sendData
  simp only [Flow.step_go]
  rw [frame_ok _ _ (by exact h)]
  simp only [Flow.update_go, Flow.step_go]
  generalize hu : State.setUpc (State.setCur _ { col := 0, band := b }) (some 3) = u
  have hl : OnLines (s.setCur { col := 0, band := b }) u := by
    subst hu
    exact ⟨rfl, List.prefix_append _ _⟩
  have hlt : u.lt = s.lt ++
      frameEvents s.params false (addressBytes s.params.enc { col := 0, band := b }) := by
    subst hu
    rfl
  have hn : ¬ answersOk (frameActions u.params) u.env := by
    subst hu
    exact h2
  have hfb : u.fb = s.fb := by rw [hl.rest]; rfl
  have hp : u.params = s.params := by rw [hl.rest]; rfl
  obtain ⟨t, e, ht, -, l, hm, hl2⟩ := frame_fail (s := u) true (bandBytes u.fb b) hn
  rw [hfb, hp] at hm
  refine ⟨t, by rw [e]; rfl, hl.trans ht.onLines, l, hm, ?_⟩
  rw [hl2, hlt, List.append_assoc]

theorem afterBand_rest (b : Fin 6) (s : State) : afterBand b s =
    { s with
      dirty := (afterBand b s).dirty
      cur := advanceN s.cfg.addrmode 84 { col := 0, band := b }
      lines := frameLines s.params true s.lines
      lt := s.lt ++ bandEvents s.params s.fb b
      wire := s.wire ++ (chipBytes false (addressBytes s.params.enc { col := 0, band := b }) ++
        chipBytes true (bandBytes s.fb b))
      env := skipAnswers (2 * frameActions s.params) s.env
      txb := []
      upc := some 4 } := clearDirty_rest _ b

/-- A band that has been sent changes nothing about the bands above it. -/
theorem wanted_afterBand {b c : Fin 6} (h : b < c) (s : State) :
    wanted (afterBand b s) c = wanted s c := by
  unfold wanted
  have hp : (afterBand b s).params = s.params := by rw [afterBand_rest]
  rw [hp]
  congr 1
  cases hg : s.params.granule
  · exact isDirty_clearDirty_other (by exact hg) (ne_of_gt h)
  · have h5 : b ≠ 5 := fun hb => by subst hb; exact absurd h (by revert c; decide)
    simp [afterBand, clearDirty, isDirty, hg, h5]

/-! ## Several bands, ascending -/

/-- The bands of a list FLUSH has sent, one after the other. -/
def afterBands : List (Fin 6) → State → State
  | [], s => s
  | b :: rest, s => afterBands rest (afterBand b s)

theorem afterBands_append (l : List (Fin 6)) (b : Fin 6) (s : State) :
    afterBands (l ++ [b]) s = afterBand b (afterBands l s) := by
  induction l generalizing s with
  | nil => rfl
  | cons c l ih => exact ih _

theorem filter_wanted_afterBand {b : Fin 6} {l : List (Fin 6)} (h : ∀ c ∈ l, b < c) (s : State) :
    l.filter (wanted (afterBand b s)) = l.filter (wanted s) :=
  List.filter_congr fun c hc => wanted_afterBand (h c hc) s

theorem afterBand_params (b : Fin 6) (s : State) : (afterBand b s).params = s.params := by
  rw [afterBand_rest]
theorem afterBand_env (b : Fin 6) (s : State) :
    (afterBand b s).env = skipAnswers (2 * frameActions s.params) s.env := by
  rw [afterBand_rest]

theorem afterBands_setUpc (l : List (Fin 6)) (s : State) (u v : Option Nat) :
    (afterBands l (s.setUpc u)).setUpc v = (afterBands l s).setUpc v := by
  cases l <;> rfl

/-- The step number plays no part in what sending bands leaves. -/
theorem OnLines.of_setUpc {l : List (Fin 6)} {s t : State} {u : Option Nat}
    (h : OnLines (afterBands l (s.setUpc u)) t) : OnLines (afterBands l s) t := by
  refine OnLines.trans (t := (afterBands l s).setUpc none) (.setUpc _ _) (OnLines.trans ?_ h)
  rw [← afterBands_setUpc l s u none]
  exact ⟨rfl, List.prefix_rfl⟩

theorem flushBands_wanted {b : Fin 6} {s : State} (h : wanted s b = true) (l : List (Fin 6)) :
    flushBands (b :: l) s = (sendBand b s).andThen (flushBands l) :=
  congrArg (fun f => Flow.andThen f (flushBands l)) (if_pos h)
theorem flushBands_unwanted {b : Fin 6} {s : State} (h : ¬ wanted s b = true) (l : List (Fin 6)) :
    flushBands (b :: l) s = flushBands l (s.setUpc (some 1)) :=
  congrArg (fun f => Flow.andThen f (flushBands l)) (if_neg h)

/-- All answers ok: FLUSH's loop sends the wanted bands and goes on. -/
theorem flushBands_ok {l : List (Fin 6)} (hl : l.Pairwise (· < ·)) {s : State}
    (h : answersOk (2 * frameActions s.params * (l.filter (wanted s)).length) s.env) :
    ∃ u, flushBands l s = .go ((afterBands (l.filter (wanted s)) s).setUpc u) := by
  induction l generalizing s with
  | nil => exact ⟨s.upc, rfl⟩
  | cons b l ih =>
    obtain ⟨hb, hl⟩ := List.pairwise_cons.1 hl
    by_cases hw : wanted s b = true
    · rw [List.filter_cons_of_pos hw, List.length_cons, Nat.mul_add, Nat.mul_one, Nat.add_comm] at h
      have hs := (answersOk_add _ _ _).1 h
      rw [flushBands_wanted hw, sendBand_ok hs.1, List.filter_cons_of_pos hw, Flow.andThen_go]
      obtain ⟨u, hu⟩ := ih (s := afterBand b s) hl (by
        rw [filter_wanted_afterBand hb, afterBand_params, afterBand_env]
        exact hs.2)
      exact ⟨u, by rw [hu, filter_wanted_afterBand hb]; rfl⟩
    · rw [List.filter_cons_of_neg hw] at h ⊢
      rw [flushBands_unwanted hw]
      obtain ⟨u, hu⟩ := ih (s := s.setUpc (some 1)) hl h
      exact ⟨u, hu.trans (congrArg Flow.go (afterBands_setUpc _ s _ u))⟩

/-- Where FLUSH's loop stands when a line action fails: some of the wanted bands have been sent, and
the next one, b, fails in its address frame or in its data frame. -/
structure FailedBands (l : List (Fin 6)) (s t : State) (sent : List (Fin 6)) (b : Fin 6)
    (left : List (Fin 6)) : Prop where
  bands : l.filter (wanted s) = sent ++ b :: left
  flow : flushBands l s = .raised .busError t
  before : answersOk (2 * frameActions s.params * sent.length) s.env
  failed : ¬ answersOk (2 * frameActions s.params * (sent.length + 1)) s.env
  address : ¬ answersOk (2 * frameActions s.params * sent.length + frameActions s.params) s.env →
    OnLines (afterBands sent s) t ∧
      ∃ e ∈ failedFrameEvents s.params false (addressBytes s.params.enc { col := 0, band := b }),
        t.lt = (afterBands sent s).lt ++ e
  data : answersOk (2 * frameActions s.params * sent.length + frameActions s.params) s.env →
    OnLines ((afterBands sent s).setCur { col := 0, band := b }) t ∧
      ∃ e ∈ failedFrameEvents s.params true (bandBytes s.fb b), t.lt = (afterBands sent s).lt ++
        (frameEvents s.params false (addressBytes s.params.enc { col := 0, band := b }) ++ e)

theorem flushBands_fail {l : List (Fin 6)} (hl : l.Pairwise (· < ·)) {s : State}
    (h : ¬ answersOk (2 * frameActions s.params * (l.filter (wanted s)).length) s.env) :
    ∃ t sent b left, FailedBands l s t sent b left := by
  induction l generalizing s with
  | nil => exact absurd trivial h
  | cons b l ih =>
    obtain ⟨hb, hl⟩ := List.pairwise_cons.1 hl
    by_cases hw : wanted s b = true
    · by_cases h2 : answersOk (2 * frameActions s.params) s.env
      · rw [List.filter_cons_of_pos hw, List.length_cons, Nat.mul_add, Nat.mul_one, Nat.add_comm,
          answersOk_add] at h
        have hr := fun hh => h ⟨h2, hh⟩
        obtain ⟨t, sent, c, left, k⟩ := ih (s := afterBand b s) hl (by
          rw [filter_wanted_afterBand hb, afterBand_params, afterBand_env]; exact hr)
        have hfb : (afterBand b s).fb = s.fb := by rw [afterBand_rest]
        have key : ∀ n, answersOk n (skipAnswers (2 * frameActions s.params) s.env) ↔
            answersOk (2 * frameActions s.params + n) s.env := fun n => by
          rw [answersOk_add]; exact ⟨fun hh => ⟨h2, hh⟩, fun hh => hh.2⟩
        obtain ⟨e, ht, a1, a2, a3, a4⟩ := k
        rw [filter_wanted_afterBand hb] at e
        rw [afterBand_params, afterBand_env, key] at a1 a2 a3 a4
        rw [hfb] at a4
        have hlen : 2 * frameActions s.params * (b :: sent).length =
            2 * frameActions s.params + 2 * frameActions s.params * sent.length := by
          rw [List.length_cons, Nat.mul_add, Nat.mul_one, Nat.add_comm]
        have hlen' : 2 * frameActions s.params * ((b :: sent).length + 1) =
            2 * frameActions s.params + 2 * frameActions s.params * (sent.length + 1) := by
          rw [List.length_cons, Nat.mul_add _ (sent.length + 1), Nat.mul_one, Nat.add_comm]
        refine ⟨t, b :: sent, c, left, ?_, ?_, ?_, ?_, ?_, ?_⟩
        · rw [List.filter_cons_of_pos hw, e]; rfl
        · rw [flushBands_wanted hw, sendBand_ok h2]; exact ht
        · rw [hlen]; exact a1
        · rw [hlen']; exact a2
        · rw [hlen, Nat.add_assoc]; exact a3
        · rw [hlen, Nat.add_assoc]; exact a4
      · by_cases h1 : answersOk (frameActions s.params) s.env
        · obtain ⟨t, e, ht⟩ := sendBand_fail_data h1 h2 (b := b)
          exact ⟨t, [], b, _, by rw [List.filter_cons_of_pos hw]; rfl,
            by rw [flushBands_wanted hw, e]; rfl, trivial, by simpa using h2,
            fun hh => absurd (by simpa using h1) hh, fun _ => ht⟩
        · obtain ⟨t, e, ht⟩ := sendBand_fail_address h1 (b := b)
          exact ⟨t, [], b, _, by rw [List.filter_cons_of_pos hw]; rfl,
            by rw [flushBands_wanted hw, e]; rfl, trivial, by simpa using h2, fun _ => ht,
            fun hh => absurd (by simpa using hh) h1⟩
    · rw [List.filter_cons_of_neg hw] at h
      obtain ⟨t, sent, c, left, e, ht, a1, a2, a3, a4⟩ := ih (s := s.setUpc (some 1)) hl h
      have hlt : (afterBands sent (s.setUpc (some 1))).lt = (afterBands sent s).lt := by
        have he := congrArg State.lt (afterBands_setUpc sent s (some 1) none)
        exact he
      rw [hlt] at a3 a4
      refine ⟨t, sent, c, left, by rw [List.filter_cons_of_neg hw]; exact e,
        (flushBands_unwanted hw l).trans ht, a1, a2,
        fun hh => ⟨(a3 hh).1.of_setUpc, (a3 hh).2⟩, fun hh => ⟨?_, (a4 hh).2⟩⟩
      have := (a4 hh).1
      refine OnLines.trans (t := ((afterBands sent s).setCur { col := 0, band := c }).setUpc none)
        (.setUpc _ _) (OnLines.trans ?_ this)
      have he := congrArg (fun x => x.setCur { col := 0, band := c })
        (afterBands_setUpc sent s (some 1) none)
      exact (show ((afterBands sent s).setCur _).setUpc none =
        ((afterBands sent (s.setUpc (some 1))).setCur { col := 0, band := c }).setUpc none
          from he.symm) ▸ ⟨rfl, List.prefix_rfl⟩

/-- What sending bands leaves (rules R226, R229). -/
theorem afterBands_rest (l : List (Fin 6)) (s : State) : afterBands l s =
    { s with
      dirty := (afterBands l s).dirty
      cur := cursorAfter s.cfg.addrmode l s.cur
      lines := (afterBands l s).lines
      lt := s.lt ++ l.flatMap (bandEvents s.params s.fb)
      wire := s.wire ++ l.flatMap (fun b => chipBytes false (addressBytes s.params.enc { col := 0, band := b }) ++
        chipBytes true (bandBytes s.fb b))
      env := skipAnswers (2 * frameActions s.params * l.length) s.env
      txb := (afterBands l s).txb
      upc := (afterBands l s).upc } := by
  induction l using List.reverseRecOn with
  | nil => simp [afterBands, cursorAfter, skipAnswers]
  | append_singleton l b ih =>
    rw [afterBands_append, afterBand_rest, ih]
    simp [cursorAfter, bandEvents, ← skipAnswers_add, Nat.mul_add]

/-- The flags after bands have been sent, at the granularity of a band. -/
theorem isDirty_afterBands {s : State} (hg : s.params.granule = .band) (l : List (Fin 6))
    (c : Fin 6) : isDirty (afterBands l s) c = if c ∈ l then false else isDirty s c := by
  induction l using List.reverseRecOn with
  | nil => rfl
  | append_singleton l b ih =>
    have hp : (afterBands l s).params.granule = .band := by rw [afterBands_rest]; exact hg
    rw [afterBands_append]
    unfold afterBand
    by_cases hc : c = b
    · subst hc; rw [isDirty_clearDirty_self (by exact hp)]; simp
    · rw [isDirty_clearDirty_other (by exact hp) hc]
      exact ih.trans (by simp [hc])

/-- The flags after bands have been sent, when one flag serves the whole buffer. -/
theorem isDirty_afterBands_whole {s : State} (hg : s.params.granule = .whole) {l : List (Fin 6)}
    (h5 : 5 ∈ l) (c : Fin 6) : isDirty (afterBands l s) c = false := by
  induction l using List.reverseRecOn with
  | nil => cases h5
  | append_singleton l b ih =>
    have hp : (afterBands l s).params.granule = .whole := by rw [afterBands_rest]; exact hg
    rw [afterBands_append]
    by_cases hb : b = 5
    · subst hb
      simp [afterBand, clearDirty, isDirty, hp]
    · have := ih (by simpa [eq_comm (a := (5 : Fin 6)), hb] using h5)
      simpa [afterBand, clearDirty, isDirty, hp, hb] using this

/-- With one flag for the whole buffer, bands before the last leave the flags as they are (rule
R228). -/
theorem dirty_afterBands_whole {s : State} (hg : s.params.granule = .whole) {l : List (Fin 6)}
    (h5 : 5 ∉ l) : (afterBands l s).dirty = s.dirty := by
  induction l using List.reverseRecOn with
  | nil => rfl
  | append_singleton l b ih =>
    have hp : (afterBands l s).params.granule = .whole := by rw [afterBands_rest]; exact hg
    simp only [List.mem_append, List.mem_singleton, not_or] at h5
    rw [afterBands_append]
    have hb : b ≠ 5 := fun h => h5.2 h.symm
    simpa [afterBand, clearDirty, hp, hb] using ih h5.1

/-- The bands FLUSH has sent before the failing one do not reach band 5. -/
theorem last_not_sent {s : State} {sent left : List (Fin 6)} {b : Fin 6}
    (h : sentBands s = sent ++ b :: left) : 5 ∉ sent := by
  have hs : (sentBands s).Pairwise (· < ·) := List.Pairwise.filter _ (by decide)
  rw [h] at hs
  intro h5
  have hlt := Fin.lt_def.1 ((List.pairwise_append.1 hs).2.2 5 h5 b (by simp))
  have hb := b.isLt
  simp only [Fin.isValue, show ((5 : Fin 6) : Nat) = 5 from rfl] at hlt
  omega

end Sys2Proof.Machine
end

