-- ==== Sys2Proof/Laws/PerInstr.lean ====
section
/-! SUPPORT. The statements made per instruction: the family Encoding says that under every ENC that
is a code, decoding an instruction's code, under a setting of H that recognises it, gives the
instruction back. -/

namespace Sys2Proof

/-! ## The fields of an assembled word -/

theorem opWord_toNat (o a b c : Byte) :
    (opWord o a b c).toNat = ((o.toNat * 256 + a.toNat) * 256 + b.toNat) * 256 + c.toNat := by
  have ha := a.isLt
  have hb := b.isLt
  have hc := c.isLt
  simp only [opWord, BitVec.toNat_append, Nat.shiftLeft_eq]
  rw [← Nat.shiftLeft_eq o.toNat, ← Nat.shiftLeft_eq b.toNat, ← Nat.shiftLeft_add_eq_or_of_lt ha,
    ← Nat.shiftLeft_add_eq_or_of_lt hc, ← Nat.shiftLeft_eq,
    ← Nat.shiftLeft_add_eq_or_of_lt (by simp only [Nat.shiftLeft_eq]; omega)]
  simp only [Nat.shiftLeft_eq]
  omega

@[simp] theorem opcOf_opWord (o a b c : Byte) : opcOf (opWord o a b c) = o := by
  apply BitVec.eq_of_toNat_eq
  simp only [opcOf, BitVec.extractLsb'_toNat, opWord_toNat, Nat.shiftRight_eq_div_pow]
  have := o.isLt; have := a.isLt; have := b.isLt; have := c.isLt
  omega

@[simp] theorem aOf_opWord (o a b c : Byte) : aOf (opWord o a b c) = a := by
  apply BitVec.eq_of_toNat_eq
  simp only [aOf, BitVec.extractLsb'_toNat, opWord_toNat, Nat.shiftRight_eq_div_pow]
  have := o.isLt; have := a.isLt; have := b.isLt; have := c.isLt
  omega

@[simp] theorem bOf_opWord (o a b c : Byte) : bOf (opWord o a b c) = b := by
  apply BitVec.eq_of_toNat_eq
  simp only [bOf, BitVec.extractLsb'_toNat, opWord_toNat, Nat.shiftRight_eq_div_pow]
  have := o.isLt; have := a.isLt; have := b.isLt; have := c.isLt
  omega

@[simp] theorem cOf_opWord (o a b c : Byte) : cOf (opWord o a b c) = c := by
  apply BitVec.eq_of_toNat_eq
  simp only [cOf, BitVec.extractLsb'_toNat, opWord_toNat, Nat.shiftRight_eq_div_pow]
  have := o.isLt; have := a.isLt; have := b.isLt; have := c.isLt
  omega

/-- A word is assembled from its own fields. -/
theorem opWord_fields (w : Word) : opWord (opcOf w) (aOf w) (bOf w) (cOf w) = w := by
  apply BitVec.eq_of_toNat_eq
  simp only [opWord_toNat, opcOf, aOf, bOf, cOf, BitVec.extractLsb'_toNat,
    Nat.shiftRight_eq_div_pow]
  have := w.isLt
  omega

theorem bitByte_high (v : Bool) : (bitByte v).extractLsb' 1 7 = 0#7 := by cases v <;> rfl
@[simp] theorem bitByte_low (v : Bool) : (bitByte v)[0] = v := by cases v <;> rfl

/-! ## Rows of ENC -/

theorem placeBits_other {ps : List Nat} {q : Nat} (h : q ∉ ps) (v : Nat) :
    (placeBits ps v).getLsbD q = false := by
  induction ps generalizing v with
  | nil => simp [placeBits]
  | cons p ps ih =>
    simp only [List.mem_cons, not_or] at h
    have hs : (1#8 <<< p).getLsbD q = false := by
      simp only [BitVec.getLsbD_shiftLeft, BitVec.getLsbD_one]
      by_cases hq : q < p <;> simp [hq]; omega
    simp only [placeBits, BitVec.getLsbD_or, ih h.2, Bool.or_false]
    split
    · exact hs
    · simp

theorem maskBits_getLsbD {ps : List Nat} {q : Nat} (hq : q < 8) :
    (maskBits ps).getLsbD q = decide (q ∈ ps) := by
  induction ps with
  | nil => simp [maskBits]
  | cons p ps ih =>
    have hs : (1#8 <<< p).getLsbD q = decide (q = p) := by
      simp only [BitVec.getLsbD_shiftLeft, BitVec.getLsbD_one]
      by_cases hqp : q < p
      · simp [hqp]; omega
      · simp [hqp, hq]
        omega
    simp [maskBits, ih, hs, Bool.decide_or]

theorem gatherBits_placeBits {ps : List Nat} (hn : ps.Nodup) (hlt : ∀ p ∈ ps, p < 8) {b : Byte}
    (hb : ∀ p ∈ ps, b.getLsbD p = false) (v : Nat) :
    gatherBits ps (b ||| placeBits ps v) = v % 2 ^ ps.length := by
  induction ps generalizing b v with
  | nil => simp [gatherBits, Nat.mod_one]
  | cons p ps ih =>
    obtain ⟨hp, hn⟩ := List.nodup_cons.1 hn
    have hp8 : p < 8 := hlt p (by simp)
    have hbit : (b ||| placeBits (p :: ps) v).getLsbD p = decide (v % 2 = 1) := by
      simp only [BitVec.getLsbD_or, hb p (by simp), placeBits, placeBits_other hp, Bool.false_or,
        Bool.or_false]
      split <;> simp_all
    have hrest : gatherBits ps (b ||| placeBits (p :: ps) v) = v / 2 % 2 ^ ps.length := by
      simp only [placeBits, ← BitVec.or_assoc]
      refine ih hn (fun q hq => hlt q (by simp [hq])) (fun q hq => ?_) _
      have hne : q ≠ p := fun h => hp (h ▸ hq)
      have hs : (1#8 <<< p).getLsbD q = false := by
        simp only [BitVec.getLsbD_shiftLeft, BitVec.getLsbD_one]
        by_cases hqp : q < p <;> simp [hqp]; omega
      rw [BitVec.getLsbD_or, hb q (by simp [hq]), Bool.false_or]
      split
      · exact hs
      · simp
    simp only [gatherBits, hbit, hrest, List.length_cons, Nat.pow_succ]
    have := Nat.mod_mul (a := 2) (b := 2 ^ ps.length) (x := v)
    rw [Nat.mul_comm (2 ^ ps.length), this]
    rcases Nat.mod_two_eq_zero_or_one v with h | h <;> simp [h]

theorem EncRow.wf_iff (r : EncRow) (n : Nat) : r.wf n = true ↔ r.bits.length = n ∧ r.bits.Nodup ∧
    (∀ p ∈ r.bits, p < 8) ∧ ∀ p ∈ r.bits, r.base.getLsbD p = false := by
  simp only [EncRow.wf, Bool.and_eq_true, decide_eq_true_eq, List.all_eq_true, beq_iff_eq, and_assoc]
  refine and_congr_right fun _ => and_congr_right fun _ => and_congr_right fun hlt => ?_
  constructor
  · intro h p hp
    have hb := congrArg (fun w : Byte => w.getLsbD p) h
    simpa [BitVec.getLsbD_and, maskBits_getLsbD (hlt p hp), hp] using hb
  · intro h
    apply BitVec.eq_of_getLsbD_eq
    intro i hi
    by_cases hp : i ∈ r.bits
    · simp [BitVec.getLsbD_and, h i hp]
    · simp [BitVec.getLsbD_and, maskBits_getLsbD hi, hp]

/-- A byte of a well-formed row carries its operand. -/
theorem EncRow.operand_byte {r : EncRow} {n : Nat} (h : r.wf n = true) {v : Nat} (hv : v < 2 ^ n) :
    r.operand (r.byte v) = v := by
  obtain ⟨hl, hn, hlt, hb⟩ := (r.wf_iff n).1 h
  unfold EncRow.operand EncRow.byte
  rw [gatherBits_placeBits hn hlt hb, hl, Nat.mod_eq_of_lt hv]

/-- A byte of a well-formed row spells it. -/
theorem EncRow.spells_byte {r : EncRow} {n : Nat} (h : r.wf n = true) (v : Nat) :
    r.spells (r.byte v) = true := by
  obtain ⟨-, -, -, hb⟩ := (r.wf_iff n).1 h
  simp only [EncRow.spells, EncRow.byte, beq_iff_eq]
  apply BitVec.eq_of_getLsbD_eq
  intro i hi
  by_cases hp : i ∈ r.bits
  · simp [BitVec.getLsbD_and, BitVec.getLsbD_not, maskBits_getLsbD hi, hp, hb i hp]
  · simp only [BitVec.getLsbD_and, BitVec.getLsbD_or, BitVec.getLsbD_not, maskBits_getLsbD hi, hp, hi,
      placeBits_other hp, decide_false, decide_true, Bool.not_false, Bool.and_true, Bool.or_false]

/-- A byte of a row spells no row apart from it. -/
theorem EncRow.not_spells_byte {r q : EncRow} (h : r.apart q = true) (v : Nat) :
    q.spells (r.byte v) = false := by
  by_contra hs
  simp only [EncRow.spells, Bool.not_eq_false, beq_iff_eq] at hs
  simp only [EncRow.apart, bne_iff_ne, ne_eq] at h
  apply h
  apply BitVec.eq_of_getLsbD_eq
  intro i hi
  have hb := congrArg (fun w : Byte => w.getLsbD i) hs
  simp only [BitVec.getLsbD_and, BitVec.getLsbD_not, maskBits_getLsbD hi, EncRow.byte,
    BitVec.getLsbD_or, hi, decide_true, Bool.true_and] at hb
  simp only [BitVec.getLsbD_and, BitVec.getLsbD_not, BitVec.getLsbD_xor, BitVec.getLsbD_or,
    maskBits_getLsbD hi, hi, decide_true, Bool.true_and, BitVec.getLsbD_zero]
  by_cases hr : i ∈ r.bits
  · simp [hr]
  · by_cases hq : i ∈ q.bits
    · simp [hq]
    · simp only [placeBits_other hr, hq] at hb
      simp at hb
      simp [hb]

theorem EncRow.apart_comm (r q : EncRow) : r.apart q = q.apart r := by
  simp only [EncRow.apart, BitVec.xor_comm r.base, BitVec.or_comm (maskBits r.bits)]

/-- What a well-formed ENC gives, part by part. -/
theorem Enc.wf_iff (e : Enc) : e.wf = true ↔
    (e.functionSet.wf 3 = true ∧ e.displayControl.wf 2 = true ∧ e.setY.wf 3 = true ∧
      e.setX.wf 7 = true ∧ e.setTc.wf 2 = true ∧ e.setBias.wf 3 = true ∧ e.setVop.wf 7 = true) ∧
    (e.functionSet.apart e.displayControl = true ∧ e.functionSet.apart e.setY = true ∧
      e.functionSet.apart e.setX = true ∧ e.functionSet.apart e.setTc = true ∧
      e.functionSet.apart e.setBias = true ∧ e.functionSet.apart e.setVop = true) ∧
    (e.displayControl.apart e.setY = true ∧ e.displayControl.apart e.setX = true ∧
      e.setY.apart e.setX = true) ∧
    (e.setTc.apart e.setBias = true ∧ e.setTc.apart e.setVop = true ∧
      e.setBias.apart e.setVop = true) := by
  simp [Enc.wf]
  tauto

/-- The table of rule R104 is a code. -/
theorem Enc.datasheet_wf : Enc.datasheet.wf = true := by decide

namespace Laws.Encoding

/-- Under every ENC that is a code, decoding the code of an instruction gives it back, under every H
that recognises it. -/
def Statement (i : Instr) : Prop :=
  ∀ (e : Enc) (h : Bool), e.wf = true → recognised h i = true → decode e h (encode e i) = .ok i

theorem formZ_ok (o : Byte) (i : Instr) : formZ (opWord o 0#8 0#8 0#8) i = .ok i := by
  simp [formZ, ifZero]
theorem formV_ok (o a : Byte) (f : Byte → Instr) : formV (opWord o a 0#8 0#8) f = .ok (f a) := by
  simp [formV, ifZero]
theorem formAB_ok (o a b : Byte) (f : Byte → Byte → Instr) :
    formAB (opWord o a b 0#8) f = .ok (f a b) := by simp [formAB, ifZero]
theorem formXYC_ok (o a b : Byte) (v : Bool) (f : Byte → Byte → Bool → Instr) :
    formXYC (opWord o a b (bitByte v)) f = .ok (f a b v) := by
  simp [formXYC, ifZero, bitByte_high]

theorem reset : Statement .reset := fun e h _ _ => by
  simp [decode, encode, decodeOpw, formZ_ok]
theorem init : Statement .init := fun e h _ _ => by
  simp [decode, encode, decodeOpw, formZ_ok]
theorem setContrast (a : Byte) : Statement (.setContrast a) := fun e h _ _ => by
  simp [decode, encode, decodeOpw, formV_ok]
theorem setBias (a : Byte) : Statement (.setBias a) := fun e h _ _ => by
  simp [decode, encode, decodeOpw, formV_ok]
theorem setTc (a : Byte) : Statement (.setTc a) := fun e h _ _ => by
  simp [decode, encode, decodeOpw, formV_ok]
theorem pwrDown : Statement .pwrDown := fun e h _ _ => by
  simp [decode, encode, decodeOpw, formZ_ok]
theorem pwrUp : Statement .pwrUp := fun e h _ _ => by
  simp [decode, encode, decodeOpw, formZ_ok]
theorem setPixel (x y : Byte) (v : Bool) : Statement (.setPixel x y v) := fun e h _ _ => by
  simp [decode, encode, decodeOpw, formXYC_ok]
theorem clrPixel (x y : Byte) : Statement (.clrPixel x y) := fun e h _ _ => by
  simp [decode, encode, decodeOpw, formAB_ok]
theorem getPixel (x y : Byte) : Statement (.getPixel x y) := fun e h _ _ => by
  simp [decode, encode, decodeOpw, formAB_ok]
theorem clear : Statement .clear := fun e h _ _ => by
  simp [decode, encode, decodeOpw, formZ_ok]
theorem setAddr (b c : Byte) : Statement (.setAddr b c) := fun e h _ _ => by
  simp [decode, encode, decodeOpw, formAB_ok]
theorem flush : Statement .flush := fun e h _ _ => by
  simp [decode, encode, decodeOpw, formZ_ok]
theorem wrChar (c : Byte) : Statement (.wrChar c) := fun e h _ _ => by
  simp [decode, encode, decodeOpw, formV_ok]
theorem geometry : Statement .geometry := fun e h _ _ => by
  simp [decode, encode, decodeOpw, formZ_ok]
theorem drawPixel (x y : Byte) (v : Bool) : Statement (.drawPixel x y v) := fun e h _ _ => by
  simp [decode, encode, decodeOpw, formXYC_ok]
theorem cmdFunctionSet (pd v k : Bool) : Statement (.cmdFunctionSet pd v k) := fun e h hw _ => by
  obtain ⟨⟨hf, -⟩, -⟩ := e.wf_iff.1 hw
  have hv : 4 * pd.toNat + 2 * v.toNat + k.toNat < 2 ^ 3 := by
    cases pd <;> cases v <;> cases k <;> decide
  simp only [decode, encode, decodeChip, decodeCmd, byteFS, EncRow.spells_byte hf,
    EncRow.operand_byte hf hv, functionSetOf, if_true, Bool.false_eq_true, if_false]
  cases pd <;> cases v <;> cases k <;> rfl
theorem cmdDisplayControl (d k : Bool) : Statement (.cmdDisplayControl d k) := fun e h hw hr => by
  obtain ⟨⟨-, hd, -⟩, ⟨hfd, -⟩, -⟩ := e.wf_iff.1 hw
  rw [EncRow.apart_comm] at hfd
  have hv : 2 * d.toNat + k.toNat < 2 ^ 2 := by
    cases d <;> cases k <;> decide
  obtain rfl : h = false := by simpa [recognised] using hr
  simp only [decode, encode, decodeChip, decodeCmd, byteDISP, EncRow.spells_byte hd,
    EncRow.not_spells_byte hfd, EncRow.operand_byte hd hv, displayControlOf, if_true,
    Bool.false_eq_true, if_false]
  cases d <;> cases k <;> rfl
theorem cmdSetY (y : BitVec 3) : Statement (.cmdSetY y) := fun e h hw hr => by
  obtain ⟨⟨-, -, hy, -⟩, ⟨-, hfy, -⟩, ⟨hdy, -⟩, -⟩ := e.wf_iff.1 hw
  rw [EncRow.apart_comm] at hfy hdy
  obtain rfl : h = false := by simpa [recognised] using hr
  simp [decode, encode, decodeChip, decodeCmd, byteSETY, EncRow.spells_byte hy,
    EncRow.not_spells_byte hfy, EncRow.not_spells_byte hdy, EncRow.operand_byte hy y.isLt]
theorem cmdSetX (x : BitVec 7) : Statement (.cmdSetX x) := fun e h hw hr => by
  obtain ⟨⟨-, -, -, hx, -⟩, ⟨-, -, hfx, -⟩, ⟨-, hdx, hyx⟩, -⟩ := e.wf_iff.1 hw
  rw [EncRow.apart_comm] at hfx hdx hyx
  obtain rfl : h = false := by simpa [recognised] using hr
  simp [decode, encode, decodeChip, decodeCmd, byteSETX, EncRow.spells_byte hx,
    EncRow.not_spells_byte hfx, EncRow.not_spells_byte hdx, EncRow.not_spells_byte hyx,
    EncRow.operand_byte hx x.isLt]
theorem cmdSetTc (t : BitVec 2) : Statement (.cmdSetTc t) := fun e h hw hr => by
  obtain ⟨⟨-, -, -, -, ht, -⟩, ⟨-, -, -, hft, -⟩, -⟩ := e.wf_iff.1 hw
  rw [EncRow.apart_comm] at hft
  obtain rfl : h = true := by simpa [recognised] using hr
  simp [decode, encode, decodeChip, decodeCmd, byteTC, EncRow.spells_byte ht,
    EncRow.not_spells_byte hft, EncRow.operand_byte ht t.isLt]
theorem cmdSetBias (b : BitVec 3) : Statement (.cmdSetBias b) := fun e h hw hr => by
  obtain ⟨⟨-, -, -, -, -, hb, -⟩, ⟨-, -, -, -, hfb, -⟩, -, ⟨htb, -⟩⟩ := e.wf_iff.1 hw
  rw [EncRow.apart_comm] at hfb htb
  obtain rfl : h = true := by simpa [recognised] using hr
  simp [decode, encode, decodeChip, decodeCmd, byteBIAS, EncRow.spells_byte hb,
    EncRow.not_spells_byte hfb, EncRow.not_spells_byte htb, EncRow.operand_byte hb b.isLt]
theorem cmdSetVop (v : BitVec 7) : Statement (.cmdSetVop v) := fun e h hw hr => by
  obtain ⟨⟨-, -, -, -, -, -, hv⟩, ⟨-, -, -, -, -, hfv⟩, -, ⟨-, htv, hbv⟩⟩ := e.wf_iff.1 hw
  rw [EncRow.apart_comm] at hfv htv hbv
  obtain rfl : h = true := by simpa [recognised] using hr
  simp [decode, encode, decodeChip, decodeCmd, byteVOP, EncRow.spells_byte hv,
    EncRow.not_spells_byte hfv, EncRow.not_spells_byte htv, EncRow.not_spells_byte hbv,
    EncRow.operand_byte hv v.isLt]
theorem data (d : Byte) : Statement (.data d) := fun e h _ _ => by simp [decode, encode, decodeChip]

end Laws.Encoding

end Sys2Proof
end

