-- ==== Sys2Proof/Laws/Chip.lean ====
section
/-! SUPPORT. What the chip does with what reaches it: one step takes one input, and the bytes of a
band put its 84 bytes into its row of DDRAM. -/

namespace Sys2Proof.Machine

/-! ## One input a step -/

/-- A chip byte decodes to a chip instruction. -/
theorem decodeChip_chip {e : Enc} {dc h : Bool} {b : Byte} {i : Instr}
    (hd : decodeChip e dc h b = .ok i) :
    i.isOperation = false := by
  unfold decodeChip decodeCmd functionSetOf displayControlOf at hd
  split at hd
  · cases hd; rfl
  · repeat' split at hd
    all_goals first | (cases hd; rfl) | cases hd

/-- A chip instruction changes the chip by its effect, and nothing else. -/
theorem exec_chip {i : Instr} (hi : i.isOperation = false) (s : State) :
    exec i s = .next (s.setChip (chipEffect i s.chip)) := by
  cases i <;> first | rfl | cases hi

/-- What fetching bits leads to is the chip having taken them. -/
theorem step_bits (dc : Bool) (bits : List Bool) (s : State) :
    (match fetchBits dc bits s with
      | .instr i s => exec i s
      | .quiet s => .next s
      | .rejected r => .refused r) =
    .next (s.setChip (chipTakeBits s.params.enc dc bits s.chip)) := by
  unfold fetchBits chipTakeBits
  rcases chipShift bits (chipSettle s.chip) with ⟨_ | b, c⟩
  · rfl
  · simp only
    cases hd : decodeChip s.params.enc dc c.h b with
    | ok i => exact exec_chip (decodeChip_chip hd) _
    | error e => rfl

/-- With something on the wire, a step has the chip take the oldest of it. -/
theorem step_wire {s : State} {e : ChipInput} {rest : List ChipInput} (h : s.wire = e :: rest) :
    step s = .next ((s.setWire rest).setChip (chipTake s.params.enc s.chip e)) := by
  unfold step fetch
  rw [h]
  cases e with
  | resetPulse => rfl
  | byte dc b => exact step_bits dc _ _
  | part dc k b => exact step_bits dc _ _

/-- Once the chip has taken all that reached it. -/
theorem run_wire (s : State) : Host.Core.run core s.wire.length s =
    .next ((s.setWire []).setChip (drained s)) := by
  generalize hw : s.wire = w
  induction w generalizing s with
  | nil =>
    simp only [drained, hw, List.length_nil, Host.Core.run, List.foldl_nil]
    cases s
    simp only at hw
    subst hw
    rfl
  | cons e rest ih =>
    have hs : core.step s = .next ((s.setWire rest).setChip (chipTake s.params.enc s.chip e)) :=
      step_wire hw
    simp only [List.length_cons, Host.Core.run, hs]
    refine (ih ((s.setWire rest).setChip (chipTake s.params.enc s.chip e)) rfl).trans ?_
    simp [drained, hw, State.setChip, State.setWire]

/-! ## Bits -/

theorem bitsOf_length (b : Byte) : (bitsOf b).length = 8 := rfl

/-- Eight bits, in order, are those of the byte they make (rule R133). -/
theorem bitsOf_byteOf {l : List Bool} (h : l.length = 8) : bitsOf (byteOf l) = l := by
  match l, h with
  | [a, b, c, d, e, f, g, i], _ => revert a b c d e f g i; decide

theorem byteOf_bitsOf (b : Byte) : byteOf (bitsOf b) = b := by
  have h := bitsOf_byteOf (bitsOf_length b)
  simp only [bitsOf, List.map_cons, List.map_nil, List.cons.injEq, and_true] at h
  obtain ⟨h7, h6, h5, h4, h3, h2, h1, h0⟩ := h
  apply BitVec.eq_of_getLsbD_eq
  intro i hi
  have : i = 0 ∨ i = 1 ∨ i = 2 ∨ i = 3 ∨ i = 4 ∨ i = 5 ∨ i = 6 ∨ i = 7 := by omega
  rcases this with rfl | rfl | rfl | rfl | rfl | rfl | rfl | rfl <;> assumption

/-- With stray bits, the bits that stand in the shift register once more have arrived (log 8). -/
theorem chipSettle_bits {c : Chip} (h : c.held ≠ []) (bits : List Bool) :
    (chipSettle c).held ++ bits = bitsStanding c bits := by
  unfold chipSettle bitsStanding
  rw [if_neg h]

/-- An input that carries bits is taken as those bits. -/
theorem chipTake_bits {e : ChipInput} {dc : Bool} {bits : List Bool} (h : e.bits = some (dc, bits))
    (en : Enc) (c : Chip) : chipTake en c e = chipTakeBits en dc bits c := by
  cases e <;> simp only [ChipInput.bits, Option.some.injEq, Prod.mk.injEq, reduceCtorEq] at h <;>
    obtain ⟨rfl, rfl⟩ := h <;> rfl

/-- Without stray bits a byte arrives as it was sent. -/
theorem chipShift_byte {c : Chip} (h : c.held = []) (b : Byte) :
    chipShift (bitsOf b) (chipSettle c) = (some b, c) := by
  have hc : ({ c with held := [] } : Chip) = c := by cases c; simp_all
  have ht : (bitsOf b).take 8 = bitsOf b := rfl
  have hd : (bitsOf b).drop 8 = [] := rfl
  simp [chipSettle, h, chipShift, bitsOf_length, ht, hd, byteOf_bitsOf, hc]

/-- What the chip does with a byte that arrives as it was sent. -/
theorem chipTake_byte {c : Chip} (h : c.held = []) (e : Enc) (dc : Bool) (b : Byte) :
    chipTake e c (.byte dc b) = match decodeChip e dc c.h b with
      | .ok i => chipEffect i c
      | .error _ => c := by
  cases hd : decodeChip e dc c.h b <;> simp only [chipTake, chipTakeBits, chipShift_byte h, hd]

/-- No whole byte is left in the shift register. -/
theorem chipTakeBits_held {c : Chip} (h : c.held.length < 8) (e : Enc) (dc : Bool) {l : List Bool}
    (hl : l.length ≤ 8) : (chipTakeBits e dc l c).held.length < 8 := by
  have hs : (chipSettle c).held.length < 8 := by
    unfold chipSettle
    split
    · exact h
    · dsimp only
      split
      · exact h
      · decide
  have heff : ∀ (i : Instr) (d : Chip), (chipEffect i d).held = d.held := fun i d => by
    cases i <;> simp only [chipEffect, chipFunctionSet, chipDisplayControl, chipSetY, chipSetX,
      chipSetTc, chipSetBias, chipSetVop, chipData, chipLapse, chipSuspend] <;>
      repeat' (split <;> try rfl)
  unfold chipTakeBits chipShift
  split
  · rename_i c' he
    split at he
    · cases he
    · cases he
      simp only [List.length_append] at *
      omega
  · rename_i b c' he
    split at he
    · cases he
      have hlen : (((chipSettle c).held ++ l).drop 8).length < 8 := by
        simp only [List.length_drop, List.length_append]
        omega
      split
      · rw [heff]
        exact hlen
      · exact hlen
    · cases he

/-! ## One command byte -/

theorem take_functionSet {e : Enc} (he : e.wf = true) {c : Chip} (hc : c.held = []) (pd v h : Bool) :
    chipTake e c (.byte false (byteFS e pd v h)) = chipFunctionSet pd v h c := by
  have hd := Laws.Encoding.cmdFunctionSet pd v h e c.h he rfl
  simp only [decode, encode] at hd
  simp only [chipTake_byte hc, hd, chipEffect]

theorem take_displayControl {e : Enc} (he : e.wf = true) {c : Chip} (hc : c.held = [])
    (h : c.h = false) (d k : Bool) :
    chipTake e c (.byte false (byteDISP e d k)) = chipDisplayControl d k c := by
  have hd := Laws.Encoding.cmdDisplayControl d k e false he rfl
  simp only [decode, encode] at hd
  simp only [chipTake_byte hc, h, hd, chipEffect]

theorem take_setVop {e : Enc} (he : e.wf = true) {c : Chip} (hc : c.held = []) (h : c.h = true)
    (v : BitVec 7) : chipTake e c (.byte false (byteVOP e v)) = chipSetVop v c := by
  have hd := Laws.Encoding.cmdSetVop v e true he rfl
  simp only [decode, encode] at hd
  simp only [chipTake_byte hc, h, hd, chipEffect]

theorem take_setTc {e : Enc} (he : e.wf = true) {c : Chip} (hc : c.held = []) (h : c.h = true)
    (k : BitVec 2) : chipTake e c (.byte false (byteTC e k)) = chipSetTc k c := by
  have hd := Laws.Encoding.cmdSetTc k e true he rfl
  simp only [decode, encode] at hd
  simp only [chipTake_byte hc, h, hd, chipEffect]

theorem take_setBias {e : Enc} (he : e.wf = true) {c : Chip} (hc : c.held = []) (h : c.h = true)
    (b : BitVec 3) : chipTake e c (.byte false (byteBIAS e b)) = chipSetBias b c := by
  have hd := Laws.Encoding.cmdSetBias b e true he rfl
  simp only [decode, encode] at hd
  simp only [chipTake_byte hc, h, hd, chipEffect]

/-- A function-set command sets its three bits, keeps the shift register, and keeps DDRAM unless the
chip is or was powered down and is of a kind that loses it. -/
theorem chipFunctionSet_keeps (pd v h : Bool) (c : Chip) :
    (chipFunctionSet pd v h c).pd = pd ∧ (chipFunctionSet pd v h c).v = addrModeOf v ∧
      (chipFunctionSet pd v h c).h = h ∧ (chipFunctionSet pd v h c).held = c.held ∧
      (chipFunctionSet pd v h c).kind = c.kind ∧
      (c.kind.ddram = true ∨ (c.pd = false ∧ pd = false) →
        (chipFunctionSet pd v h c).ddram = c.ddram) := by
  unfold chipFunctionSet chipSuspend chipLapse
  cases h <;> cases hc : c.pd <;> cases pd <;> simp_all

@[simp] theorem addrModeOf_vOf (a : AddrMode) : addrModeOf (vOf a) = a := by cases a <;> rfl

/-! ## The bytes of a band -/

theorem rowOf_band (b : Fin 6) : rowOf (BitVec.ofNat 3 b.val) = b := by revert b; decide

theorem columnOf_col (c : Fin 84) : columnOf (BitVec.ofNat 7 c.val) = c := by
  have h := c.isLt
  have hn : (BitVec.ofNat 7 c.val).toNat = c.val := by simp; omega
  unfold columnOf
  rw [if_pos (by rw [hn]; exact h), hn]
  apply Fin.ext
  show c.val % 84 = c.val
  omega

/-- A chip in the basic instruction set takes an address (rules R79, R143, R144). -/
theorem take_address {e : Enc} (he : e.wf = true) {c : Chip} (hc : c.held = []) (h : c.h = false)
    (a : Cursor) :
    (chipBytes false (addressBytes e a)).foldl (chipTake e) c = { c with addr := a } := by
  have hy := Laws.Encoding.cmdSetY (BitVec.ofNat 3 a.band.val) e false he rfl
  have hx := Laws.Encoding.cmdSetX (BitVec.ofNat 7 a.col.val) e false he rfl
  simp only [decode, encode] at hy hx
  simp only [chipBytes, addressBytes, List.map_cons, List.map_nil, List.foldl_cons, List.foldl_nil,
    chipTake_byte hc, h, hy, chipEffect, chipSetY, rowOf_band]
  rw [chipTake_byte (by exact hc)]
  simp only [hx, chipEffect, chipSetX, columnOf_col]

/-- Data bytes taken inside a row, in horizontal addressing and not powered down
(rules R79, R80, R148). -/
theorem take_data (en : Enc) {c : Chip} (hc : c.held = []) (hp : c.pd = false)
    (hv : c.v = .horizontal) (l : List Byte) (n : Nat) (hn : n + l.length ≤ 84) (b : Fin 6)
    (ha : c.addr = advanceN .horizontal n { col := 0, band := b }) :
    ∃ m, (chipBytes true l).foldl (chipTake en) c =
        { c with ddram := m, addr := advanceN .horizontal (n + l.length) { col := 0, band := b } } ∧
      (∀ k (hk : k < l.length), ddramRead m (bandIndex b (n + k)) = some l[k]) ∧
      (∀ a, (∀ k < l.length, a ≠ bandIndex b (n + k)) → ddramRead m a = ddramRead c.ddram a) := by
  induction l generalizing c n with
  | nil => exact ⟨c.ddram, by simp [chipBytes, ← ha], fun k hk => absurd hk (by simp), fun _ _ => rfl⟩
  | cons d l ih =>
    have hlen : n + 1 + l.length ≤ 84 := by simp at hn; omega
    have hpos : bandIndex c.addr.band c.addr.col.val = bandIndex b n := by
      rw [ha, advanceN_horizontal n (by omega)]
    have hadv : advance .horizontal c.addr = advanceN .horizontal (n + 1) { col := 0, band := b } := by
      rw [ha, advanceN_add]; rfl
    obtain ⟨m, e, h1, h2⟩ := ih (c := { c with
      ddram := ddramWrite c.ddram (bandIndex b n) d, addr := advance .horizontal c.addr })
      hc hp hv (n + 1) hlen hadv
    refine ⟨m, ?_, fun k hk => ?_, fun a hne => ?_⟩
    · have ht : chipTake en c (.byte true d) = { c with
          ddram := ddramWrite c.ddram (bandIndex b n) d, addr := advance .horizontal c.addr } := by
        simp [chipTake_byte hc, decodeChip, chipEffect, chipData, hp, hv, hpos]
      simp only [chipBytes, List.map_cons, List.foldl_cons, ht]
      refine e.trans ?_
      simp [Nat.add_assoc, Nat.add_comm]
    · cases k with
      | zero =>
        refine (h2 _ fun k hk => ?_).trans ?_
        · simp only [bandIndex]; omega
        · rw [ddramRead_ddramWrite, Nat.add_zero, if_pos rfl]; rfl
      | succ k =>
        have := h1 k (by simpa using hk)
        rw [Nat.add_assoc, Nat.add_comm 1] at this
        exact this
    · refine (h2 a fun k hk => ?_).trans ?_
      · have := hne (k + 1) (by simpa using hk)
        rwa [Nat.add_assoc, Nat.add_comm 1]
      · rw [ddramRead_ddramWrite, if_neg (show a ≠ bandIndex b n from hne 0 (by simp))]

theorem bandBytes_length (m : Memory) (b : Fin 6) : (bandBytes m b).length = 84 := by
  simp [bandBytes]

/-- The address and the 84 bytes of a band, taken by a chip in the basic instruction set, horizontal
and not powered down: row b of DDRAM is band b, the other rows are as they were (rule R231). -/
theorem take_band {e : Enc} (he : e.wf = true) {c : Chip} (hc : c.held = []) (hh : c.h = false)
    (hp : c.pd = false) (hv : c.v = .horizontal)
    (fb : Memory) (b : Fin 6) :
    ∃ m a, (chipBytes false (addressBytes e { col := 0, band := b }) ++
        chipBytes true (bandBytes fb b)).foldl (chipTake e) c = { c with ddram := m, addr := a } ∧
      (∀ k < 84, ddramRead m (bandIndex b k) = some (fbRead fb (bandIndex b k))) ∧
      (∀ r, r ≠ b → ∀ k < 84, ddramRead m (bandIndex r k) = ddramRead c.ddram (bandIndex r k)) := by
  rw [List.foldl_append, take_address he hc hh]
  obtain ⟨m, eq, h1, h2⟩ := take_data e (c := { c with addr := { col := 0, band := b } }) hc hp hv
    (bandBytes fb b) 0 (by rw [bandBytes_length]) b rfl
  refine ⟨m, _, eq, fun k hk => ?_, fun r hr k hk => h2 _ fun j hj => ?_⟩
  · have := h1 k (by rw [bandBytes_length]; exact hk)
    rw [Nat.zero_add] at this
    rw [this]
    simp [bandBytes]
  · rw [bandBytes_length] at hj
    have : r.val ≠ b.val := fun h => hr (Fin.ext h)
    simp only [bandIndex, Config.width]
    omega

/-- Several bands, one after the other. -/
theorem take_bands {e : Enc} (he : e.wf = true) {c : Chip} (hc : c.held = []) (hh : c.h = false)
    (hp : c.pd = false) (hv : c.v = .horizontal)
    (fb : Memory) (l : List (Fin 6)) :
    ∃ m a, (l.flatMap fun b => chipBytes false (addressBytes e { col := 0, band := b }) ++
        chipBytes true (bandBytes fb b)).foldl (chipTake e) c = { c with ddram := m, addr := a } ∧
      (∀ b ∈ l, ∀ k < 84, ddramRead m (bandIndex b k) = some (fbRead fb (bandIndex b k))) ∧
      (∀ b, b ∉ l → ∀ k < 84, ddramRead m (bandIndex b k) = ddramRead c.ddram (bandIndex b k)) := by
  induction l using List.reverseRecOn with
  | nil => exact ⟨c.ddram, c.addr, rfl, fun _ h => absurd h (by simp), fun _ _ _ _ => rfl⟩
  | append_singleton l b ih =>
    obtain ⟨m, a, eq, h1, h2⟩ := ih
    obtain ⟨m', a', eq', h1', h2'⟩ :=
      take_band he (c := { c with ddram := m, addr := a }) hc hh hp hv fb b
    refine ⟨m', a', ?_, fun r hr k hk => ?_, fun r hr k hk => ?_⟩
    · rw [List.flatMap_append, List.foldl_append, eq]
      simpa using eq'
    · by_cases hb : r = b
      · subst hb; exact h1' k hk
      · rw [h2' r hb k hk]
        exact h1 r (by simpa [hb] using hr) k hk
    · simp only [List.mem_append, List.mem_singleton, not_or] at hr
      rw [h2' r hr.2 k hk]
      exact h2 r hr.1 k hk

end Sys2Proof.Machine
end

