-- ==== Sys2Proof/Laws/Controller.lean ====
section
/-! SUPPORT. What INIT and the configuration operations do: their frames when every line action is
answered ok, and where they stand when one is not (rules R164 to R169, R174). -/

namespace Sys2Proof.Machine

theorem OnLines.params {s t : State} (h : OnLines s t) : t.params = s.params := by rw [h.rest]
theorem OnLines.cfg {s t : State} (h : OnLines s t) : t.cfg = s.cfg := by rw [h.rest]
theorem OnLines.ctrl {s t : State} (h : OnLines s t) : t.ctrl = s.ctrl := by rw [h.rest]

theorem OnLines.setCtrl {s t : State} (h : OnLines s t) (c : CtrlState) :
    OnLines (s.setCtrl c) (t.setCtrl c) := by
  refine ⟨?_, h.grown⟩
  have h1 := h.rest
  rw [h1]
  rfl

theorem OnLines.setCfg {s t : State} (h : OnLines s t) (c : Cfg) :
    OnLines (s.setCfg c) (t.setCfg c) := by
  refine ⟨?_, h.grown⟩
  have h1 := h.rest
  rw [h1]
  rfl

theorem OnLines.fsByte {s t : State} (h : OnLines s t) (pd k : Bool) :
    fsByte t pd k = fsByte s pd k := by simp only [Machine.fsByte, h.params, h.cfg]

/-! ## INIT -/

/-- STATE after n frames of INIT (rule R165). -/
def initBase (s : State) (n : Nat) : State := if n = 0 then s else s.setCtrl .extendedConfig

/-- The frames of INIT, I1 to I6. -/
def initFrames (s : State) : Flow :=
  guardState .inReset s
    |>.step 1 (fun s => (sendCommand (fsByte s false true) s).update
        (fun s => s.setCtrl .extendedConfig))
    |>.step 2 (fun s => sendCommand (byteVOP s.params.enc s.cfg.contrast) s)
    |>.step 3 (fun s => sendCommand (byteTC s.params.enc s.cfg.tc) s)
    |>.step 4 (fun s => sendCommand (byteBIAS s.params.enc s.cfg.bias) s)
    |>.step 5 (fun s => sendCommand (fsByte s false false) s)
    |>.step 6 (fun s => sendCommand (dispByte s.params.enc .normal) s)

theorem initFlow_eq (s : State) : initFlow s = (initFrames s).step 7
    (fun s => .go ((s.setCfg { s.cfg with dispmode := .normal }).setCtrl .basic)) := rfl

theorem initFrames_sends {s : State} (hc : s.ctrl = .inReset) :
    (initFrames s).Sends s (initBase s) (initBytes s) := by
  unfold initFrames
  rw [guardState_pass hc]
  have h0 := Flow.sends_start (base := initBase s) rfl (some 0)
  refine (((((h0.send 1 rfl (c := fsByte s false true) (fun t ht => ht.fsByte _ _)
    (fun t ht => ⟨ht.setCtrl _, rfl, rfl, rfl, rfl, rfl⟩)).sendOnly 2 rfl (fun t ht => ?_) rfl).sendOnly 3 rfl
    (fun t ht => ?_) rfl).sendOnly 4 rfl (fun t ht => ?_) rfl).sendOnly 5 rfl
    (fun t ht => ht.fsByte _ _) rfl).sendOnly 6 rfl (fun t ht => ?_) rfl <;>
    rw [ht.params] <;> first | rfl | (rw [ht.cfg]; rfl)

/-- All of INIT, every line action answered ok (rules R164, R174). -/
theorem initFlow_ok {s : State} (hc : s.ctrl = .inReset)
    (h : answersOk (6 * frameActions s.params) s.env) : ∃ u, initFlow s = .go { s with
      cfg := { s.cfg with dispmode := .normal }
      ctrl := .basic
      lt := s.lt ++ commandEvents s.params (initBytes s)
      wire := s.wire ++ chipBytes false (initBytes s)
      lines := frameLines s.params false s.lines
      env := skipAnswers (6 * frameActions s.params) s.env
      txb := []
      upc := u } := by
  have hs := initFrames_sends hc
  rw [initFlow_eq]
  cases hf : initFrames s with
  | raised e t =>
    rw [hf] at hs
    obtain ⟨-, n, hn, -, -, hno, -⟩ := hs
    exact absurd (answersOk_mono (Nat.mul_le_mul_right _ hn) h) hno
  | go t =>
    rw [hf] at hs
    obtain ⟨hl, -, hsl⟩ := hs
    have hr := hl.rest
    rw [hsl.env, hsl.lt, hsl.wire, hsl.lines (by simp [initBytes]), hsl.txb (by simp [initBytes])] at hr
    exact ⟨some 7, by rw [hr]; rfl⟩

/-- INIT with a failing line action: which frame failed, and what stands (rules R165, R174). -/
theorem initFlow_fail {s : State} (hc : s.ctrl = .inReset)
    (h : ¬ answersOk (6 * frameActions s.params) s.env) : ∃ t, initFlow s = .raised .busError t ∧
      (Flow.raised .busError t).Sends s (initBase s) (initBytes s) := by
  have hs := initFrames_sends hc
  rw [initFlow_eq]
  cases hf : initFrames s with
  | raised e t =>
    rw [hf] at hs
    obtain rfl := hs.1
    exact ⟨t, rfl, hs⟩
  | go t =>
    rw [hf] at hs
    exact absurd hs.2.1 h

/-! ## The configuration operations -/

/-- STATE and CFG after n frames of a configuration operation (rule R169). -/
def configBase (record : Cfg → Cfg) (s : State) (n : Nat) : State :=
  if n = 0 then s
  else if n = 1 then s.setCtrl .extendedConfig
  else (s.setCtrl .extendedConfig).setCfg (record s.cfg)

/-- The frames of a configuration operation, steps 1 to 4. -/
def configFrames (b : Byte) (record : Cfg → Cfg) (s : State) : Flow :=
  guardState .basic s
    |>.step 1 (fun s => (sendCommand (fsByte s false true) s).update
        (fun s => s.setCtrl .extendedConfig))
    |>.step 2 (fun s => (sendCommand b s).update (fun s => s.setCfg (record s.cfg)))
    |>.step 3 (fun s => sendCommand (fsByte s false false) s)
    |>.step 4 (fun s => sendCommand (dispByte s.params.enc s.cfg.dispmode) s)

theorem configFlow_eq (b : Byte) (record : Cfg → Cfg) (s : State) : configFlow b record s =
    (configFrames b record s).step 5 (fun s => .go (s.setCtrl .basic)) := rfl

theorem configFrames_sends {s : State} {b : Byte} {record : Cfg → Cfg} (hc : s.ctrl = .basic)
    (hrec : ∀ c, (record c).addrmode = c.addrmode ∧ (record c).dispmode = c.dispmode) :
    (configFrames b record s).Sends s (configBase record s) (configBytes b s) := by
  unfold configFrames
  rw [guardState_pass hc]
  have h0 := Flow.sends_start (base := configBase record s) rfl (some 0)
  refine (((h0.send 1 rfl (c := fsByte s false true) (fun t ht => ht.fsByte _ _)
    (fun t ht => ⟨ht.setCtrl _, rfl, rfl, rfl, rfl, rfl⟩)).send 2 rfl (c := b)
    (u := fun s => s.setCfg (record s.cfg)) (fun t ht => rfl) (fun t ht => ⟨?_, rfl, rfl, rfl, rfl, rfl⟩)).sendOnly 3 rfl
    (c := fsByte s false false) (fun t ht => ?_) rfl).sendOnly 4 rfl (fun t ht => ?_) rfl
  · rw [ht.cfg]
    exact ht.setCfg _
  · rw [ht.fsByte]
    simp [fsByte, configBase, (hrec s.cfg).1]
  · rw [ht.params, ht.cfg]
    simp [configBase, (hrec s.cfg).2]

/-- All of a configuration operation, every line action answered ok (rules R166 to R168, R174). -/
theorem configFlow_ok {s : State} {b : Byte} {record : Cfg → Cfg} (hc : s.ctrl = .basic)
    (hrec : ∀ c, (record c).addrmode = c.addrmode ∧ (record c).dispmode = c.dispmode)
    (h : answersOk (4 * frameActions s.params) s.env) : ∃ u, configFlow b record s = .go { s with
      cfg := record s.cfg
      lt := s.lt ++ commandEvents s.params (configBytes b s)
      wire := s.wire ++ chipBytes false (configBytes b s)
      lines := frameLines s.params false s.lines
      env := skipAnswers (4 * frameActions s.params) s.env
      txb := []
      upc := u } := by
  have hs := configFrames_sends hc hrec (b := b)
  rw [configFlow_eq]
  cases hf : configFrames b record s with
  | raised e t =>
    rw [hf] at hs
    obtain ⟨-, n, hn, -, -, hno, -⟩ := hs
    exact absurd (answersOk_mono (Nat.mul_le_mul_right _ hn) h) hno
  | go t =>
    rw [hf] at hs
    obtain ⟨hl, -, hsl⟩ := hs
    have hr := hl.rest
    rw [hsl.env, hsl.lt, hsl.wire, hsl.lines (by simp [configBytes]),
      hsl.txb (by simp [configBytes])] at hr
    exact ⟨some 5, by rw [hr]; simp [configBase, configBytes, State.setUpc, State.setCtrl,
      State.setCfg, hc]⟩

/-- A configuration operation with a failing line action: which frame failed, and what stands
(rules R169, R174). -/
theorem configFlow_fail {s : State} {b : Byte} {record : Cfg → Cfg} (hc : s.ctrl = .basic)
    (hrec : ∀ c, (record c).addrmode = c.addrmode ∧ (record c).dispmode = c.dispmode)
    (h : ¬ answersOk (4 * frameActions s.params) s.env) :
    ∃ t, configFlow b record s = .raised .busError t ∧
      (Flow.raised .busError t).Sends s (configBase record s) (configBytes b s) := by
  have hs := configFrames_sends hc hrec (b := b)
  rw [configFlow_eq]
  cases hf : configFrames b record s with
  | raised e t =>
    rw [hf] at hs
    obtain rfl := hs.1
    exact ⟨t, rfl, hs⟩
  | go t =>
    rw [hf] at hs
    exact absurd hs.2.1 h

end Sys2Proof.Machine
end

