-- ==== Sys2Proof/Laws/Text.lean ====
section
/-! SUPPORT. What WRCHAR draws: a glyph column is one byte of the row's band, a glyph is five of them,
and nothing else is written (rules R206, R208). -/

namespace Sys2Proof.Machine

/-- Where column k of the character cell lies in the framebuffer (rule R202). -/
def cellIndex (t : TextCursor) (k : Nat) : Nat := 84 * t.trow.val + 6 * t.tcol.val + k

theorem mapIdx_cell (t : TextCursor) {k n : Nat} (hk : k < 6) (hn : n < 8) :
    mapIdx (cellX t k) (cellY t n) = cellIndex t k := by
  have h1 := t.trow.isLt
  have h2 := t.tcol.isLt
  simp only [mapIdx, cellX, cellY, cellIndex, Config.width, BitVec.toNat_ofNat]
  omega

theorem mapBit_cell (t : TextCursor) {n : Nat} (hn : n < 8) : mapBit (cellY t n) = n := by
  have h1 := t.trow.isLt
  simp only [mapBit, cellY, BitVec.toNat_ofNat]
  omega

theorem bandOf_cell (t : TextCursor) {n : Nat} (hn : n < 8) : bandOf (cellY t n) = t.trow := by
  have h1 := t.trow.isLt
  apply Fin.ext
  simp only [bandOf, cellY, BitVec.toNat_ofNat, Fin.ofNat]
  omega

/-- Eight pixels written, from top to bottom, make the byte. -/
theorem withBit_all (b g : Byte) : ([0, 1, 2, 3, 4, 5, 6, 7] : List Nat).foldl
    (fun b n => withBit b n (g.getLsbD n)) b = g := by
  apply BitVec.eq_of_getLsbD_eq
  intro j hj
  simp only [List.foldl_cons, List.foldl_nil]
  simp only [withBit_get _ _ _ _ hj]
  have : j = 0 ∨ j = 1 ∨ j = 2 ∨ j = 3 ∨ j = 4 ∨ j = 5 ∨ j = 6 ∨ j = 7 := by omega
  rcases this with rfl | rfl | rfl | rfl | rfl | rfl | rfl | rfl <;> simp

/-- What drawing in the row of a text cursor can change: bytes and flags, and the row's flag is set
once anything is drawn. -/
structure Draws (s t : State) : Prop where
  rest : t = { s with fb := t.fb, dirty := t.dirty }
  keeps : s.params.granule = .band → ∀ b, b ≠ s.text.trow → isDirty t b = isDirty s b
  sets : ∀ b, isDirty s b = true → isDirty t b = true

theorem Draws.refl (s : State) : Draws s s := ⟨rfl, fun _ _ _ => rfl, fun _ h => h⟩

theorem Draws.trans {s t u : State} (h : Draws s t) (k : Draws t u) : Draws s u := by
  have h1 := h.rest
  have k1 := k.rest
  refine ⟨by rw [h1] at k1; simpa using k1, fun hg b hb => ?_, fun b hb => k.sets b (h.sets b hb)⟩
  rw [k.keeps (by rw [h1]; exact hg) b (by rw [h1]; exact hb), h.keeps hg b hb]

theorem writePixel_draws (s : State) {k n : Nat} (hn : n < 8) (v : Bool) :
    Draws s (writePixel (cellX s.text k) (cellY s.text n) v s) := by
  refine ⟨writePixel_rest _ _ _ _, fun hg b hb => ?_, fun b hb => ?_⟩
  · exact isDirty_writePixel_other hg _ v (by rwa [bandOf_cell _ hn])
  · exact isDirty_markDirty _ _ _ (.inl hb)

/-- The pixels of a list of rows of one glyph column. -/
theorem column_fold (g : Byte) {k : Nat} (hk : k < 6) (l : List Nat) (hl : ∀ n ∈ l, n < 8) (s : State) :
    let t := l.foldl (fun s n => writePixel (cellX s.text k) (cellY s.text n) (g.getLsbD n) s) s
    Draws s t ∧ (l ≠ [] → isDirty t s.text.trow = true) ∧ ∀ a, fbRead t.fb a =
      if a = cellIndex s.text k then l.foldl (fun b n => withBit b n (g.getLsbD n)) (fbRead s.fb a)
      else fbRead s.fb a := by
  induction l generalizing s with
  | nil => exact ⟨.refl s, fun h => absurd rfl h, fun a => by simp⟩
  | cons n l ih =>
    have hn := hl n (by simp)
    obtain ⟨h1, h2, h3⟩ := ih (fun m hm => hl m (by simp [hm]))
      (writePixel (cellX s.text k) (cellY s.text n) (g.getLsbD n) s)
    have hd := writePixel_draws s (k := k) hn (g.getLsbD n)
    refine ⟨hd.trans h1, fun _ => h1.sets _ ?_, fun a => ?_⟩
    · have := isDirty_writePixel_self (cellX s.text k) (cellY s.text n) (g.getLsbD n) s
      rwa [bandOf_cell _ hn] at this
    · refine (h3 a).trans ?_
      simp only [writePixel_text, fbRead_writePixel, mapIdx_cell _ hk hn, mapBit_cell _ hn,
        List.foldl_cons]
      by_cases ha : a = cellIndex s.text k <;> simp [ha]

/-- One glyph column: its byte becomes the column, nothing else changes. -/
theorem drawColumn_spec (g : Byte) {k : Nat} (hk : k < 6) (s : State) :
    Draws s (drawColumn g k s) ∧ isDirty (drawColumn g k s) s.text.trow = true ∧
      ∀ a, fbRead (drawColumn g k s).fb a =
        if a = cellIndex s.text k then g else fbRead s.fb a := by
  obtain ⟨h1, h2, h3⟩ := column_fold g hk [0, 1, 2, 3, 4, 5, 6, 7] (by decide) s
  exact ⟨h1, h2 (by simp), fun a => by
    have := h3 a
    rwa [withBit_all] at this⟩

theorem glyph_fold (g : Config.Glyph) (l : List (Fin 5)) (hl : l.Nodup) (s : State) :
    let t := l.foldl (fun s k => drawColumn g[k] k.val s) s
    Draws s t ∧ (l ≠ [] → isDirty t s.text.trow = true) ∧
      (∀ k ∈ l, fbRead t.fb (cellIndex s.text k.val) = g[k]) ∧
      ∀ a, (∀ k ∈ l, a ≠ cellIndex s.text k.val) → fbRead t.fb a = fbRead s.fb a := by
  induction l generalizing s with
  | nil => exact ⟨.refl s, fun h => absurd rfl h, fun _ h => absurd h (by simp), fun _ _ => rfl⟩
  | cons k l ih =>
    obtain ⟨hk, hl⟩ := List.nodup_cons.1 hl
    obtain ⟨d1, d2, d3⟩ := drawColumn_spec g[k] (k := k.val) (by omega) s
    obtain ⟨h1, -, h3, h4⟩ := ih hl (drawColumn g[k] k.val s)
    have ht : (drawColumn g[k] k.val s).text = s.text := by rw [d1.rest]
    rw [ht] at h3 h4
    refine ⟨d1.trans h1, fun _ => h1.sets _ d2, fun j hj => ?_, fun a ha => ?_⟩
    · rcases List.mem_cons.1 hj with rfl | hj
      · refine (h4 _ fun i hi hc => hk ?_).trans ((d3 _).trans (if_pos rfl))
        have : j = i := Fin.ext (by simp only [cellIndex] at hc; omega)
        rwa [this]
      · exact h3 j hj
    · exact (h4 a fun j hj => ha j (by simp [hj])).trans
        ((d3 a).trans (if_neg (ha k (by simp))))

/-- A glyph drawn: its five bytes stand in the cell, nothing else has changed. -/
theorem drawGlyph_spec (g : Config.Glyph) (s : State) :
    Draws s (drawGlyph g s) ∧ isDirty (drawGlyph g s) s.text.trow = true ∧
      (∀ k : Fin 5, fbRead (drawGlyph g s).fb (cellIndex s.text k.val) = g[k]) ∧
      ∀ a, (∀ k : Fin 5, a ≠ cellIndex s.text k.val) → fbRead (drawGlyph g s).fb a = fbRead s.fb a := by
  obtain ⟨h1, h2, h3, h4⟩ := glyph_fold g [0, 1, 2, 3, 4] (by decide) s
  have hm : ∀ k : Fin 5, k ∈ ([0, 1, 2, 3, 4] : List (Fin 5)) := by decide
  exact ⟨h1, h2 (by simp), fun k => h3 k (hm k), fun a ha => h4 a fun k _ => ha k⟩

end Sys2Proof.Machine
end

