-- ==== Sys2Proof/Tests/Slice0.lean ====
section
/-! SUPPORT. The model's own tests. Expected results are those of spec/95_test_vectors.md (V1 to V15,
S1 to S14) and the tables of rules R92 and R104. The witnesses at the end show that the hypotheses of
the statements can be met. -/

namespace Sys2Proof.Tests

open Sys2Proof Sys2Proof.Machine

/-! ## Well-formedness: each check refuses an ill-formed term -/

theorem test_wf_setY_refused : (Instr.cmdSetY 6).wellFormed = false := by decide
theorem test_wf_setY_accepted : (Instr.cmdSetY 5).wellFormed = true := by decide
theorem test_wf_setX_refused : (Instr.cmdSetX 84).wellFormed = false := by decide
theorem test_wf_setX_accepted : (Instr.cmdSetX 83).wellFormed = true := by decide

/-! ## Decoding: operation words written out from R91 to R93 (V1) -/

theorem test_decode_reset : decodeTableWord 32 0x01000000 = some .reset := by decide
theorem test_decode_init : decodeTableWord 32 0x02000000 = some .init := by decide
theorem test_decode_setContrast :
    decodeTableWord 32 0x03C50000 = some (.setContrast 0xC5) := by decide
theorem test_decode_setBias : decodeTableWord 32 0x040C0000 = some (.setBias 0x0C) := by decide
theorem test_decode_setTc : decodeTableWord 32 0x05070000 = some (.setTc 7) := by decide
theorem test_decode_pwrDown : decodeTableWord 32 0x06000000 = some .pwrDown := by decide
theorem test_decode_pwrUp : decodeTableWord 32 0x07000000 = some .pwrUp := by decide
theorem test_decode_setPixel :
    decodeTableWord 32 0x100A1401 = some (.setPixel 10 20 true) := by decide
theorem test_decode_clrPixel : decodeTableWord 32 0x110A1400 = some (.clrPixel 10 20) := by decide
theorem test_decode_getPixel : decodeTableWord 32 0x120A1400 = some (.getPixel 10 20) := by decide
theorem test_decode_clear : decodeTableWord 32 0x13000000 = some .clear := by decide
theorem test_decode_setAddr : decodeTableWord 32 0x14055300 = some (.setAddr 5 83) := by decide
theorem test_decode_flush : decodeTableWord 32 0x15000000 = some .flush := by decide
theorem test_decode_wrChar : decodeTableWord 32 0x20480000 = some (.wrChar 0x48) := by decide
theorem test_decode_geometry : decodeTableWord 32 0x28000000 = some .geometry := by decide
theorem test_decode_drawPixel :
    decodeTableWord 32 0x29532F01 = some (.drawPixel 83 47 true) := by decide

/-- The refused words of V1: an undefined opcode, or a nonzero unused field (rules R95, R96). -/
theorem test_decode_refused_opcode :
    [0x00000000#32, 0x08000000#32, 0x16000000#32, 0x21000000#32, 0xFF000000#32].map decodeOpw =
      List.replicate 5 (.error .undefinedOpcode) := by decide
theorem test_decode_refused_fields :
    [0x01000001#32, 0x10000002#32, 0x11000001#32, 0x03450100#32, 0x14020001#32, 0x29000002#32].map
      decodeOpw = List.replicate 6 (.error .nonzeroUnusedField) := by decide

/-! ## Decoding: chip bytes written out from R104 (V3) -/

theorem test_decode_functionSet :
    decodeTableWord 8 0b00100110 = some (.cmdFunctionSet true true false) := by decide
theorem test_decode_displayControl :
    decodeTableWord 8 0b00001101 = some (.cmdDisplayControl true true) := by decide
theorem test_decode_setY : decodeTableWord 8 0b01000101 = some (.cmdSetY 5) := by decide
theorem test_decode_setX : decodeTableWord 8 0b11010011 = some (.cmdSetX 83) := by decide
theorem test_decode_cmdSetTc : decodeTableWord 8 0b00000110 = some (.cmdSetTc 2) := by decide
theorem test_decode_cmdSetBias : decodeTableWord 8 0b00010111 = some (.cmdSetBias 7) := by decide
/-- Under H = 1 the byte of SET_X is SET_VOP (rule R105). -/
theorem test_decode_setVop : decodeChip Enc.datasheet false true 0b10111000 = .ok (.cmdSetVop 0x38) := by decide
theorem test_decode_data : decodeChip Enc.datasheet true false 0b10111000 = .ok (.data 0xB8) := by decide
/-- TC and BIAS bytes are no commands under H = 0, nor address bytes under H = 1 (rule R105). -/
theorem test_decode_unrecognised :
    decodeChip Enc.datasheet false false 0x14 = .error .unrecognisedCommand ∧
    decodeChip Enc.datasheet false false 0x06 = .error .unrecognisedCommand ∧
    decodeChip Enc.datasheet false true 0x42 = .error .unrecognisedCommand ∧
    decodeChip Enc.datasheet false true 0x0C = .error .unrecognisedCommand := by decide

/-- The command bytes of V3. -/
theorem test_bytes_as_listed :
    byteFS .datasheet false false true = 0x21 ∧ byteFS .datasheet false true false = 0x22 ∧
    byteFS .datasheet true false false = 0x24 ∧ dispByte .datasheet .blank = 0x08 ∧
    dispByte .datasheet .allOn = 0x09 ∧ dispByte .datasheet .normal = 0x0C ∧
    dispByte .datasheet .inverse = 0x0D ∧ byteSETY .datasheet 5 = 0x45 ∧
    byteSETX .datasheet 83 = 0xD3 ∧ byteTC .datasheet 2 = 0x06 ∧ byteBIAS .datasheet 4 = 0x14 ∧
    byteVOP .datasheet 0x38 = 0xB8 := by decide

/-! ## One step each -/

/-- The power-on state with a controller state and a script of n ok answers, then one failure. -/
def prepared (c : CtrlState) (n : Nat) : State :=
  { State.reset with
    ctrl := c
    dirty := Vector.replicate 6 false
    env := { answers := List.replicate n true ++ [false], waits := [7], answersDrawn := 0,
             waitsDrawn := 0, chipDrawn := 0 } }

/-- A prepared state with some framebuffer bytes. -/
def drawn (m : Memory) : State := { prepared .basic 0 with fb := m }

/-- The state after one step, if it answers one. -/
def next (s : State) : Option State :=
  match step s with
  | .next t => some t
  | .fault _ => none
  | .refused _ => none

/-- The state after one step that runs the given row's bits. -/
def after (s : State) (nbits w : Nat) : Option State := next (s.withFetchWord nbits w)

/-- V5, rows 1 and 3. -/
theorem test_reset : (after (prepared .uninitialized 2) 32 0x01000000).map
    (fun t => (t.ctrl, t.rslt, t.lt, t.dirty, t.lines.resl)) =
    some (.inReset, 0x00000000, [.pin .res false, .wait 100007, .pin .res true],
      Vector.replicate 6 true, .high) := by decide
theorem test_reset_fail : (after { prepared .basic 0 with fb := [(178, 0x10)] } 32 0x01000000).map
    (fun t => (t.ctrl, t.rslt, t.lt, t.fb)) =
    some (.uninitialized, 0x00000002, [.pinFail .res], [(178, 0x10)]) := by decide

/-- V6, rows 1 and 5: the command bytes, then a failure in the second frame. -/
theorem test_init : (after (prepared .inReset 24) 32 0x02000000).map
    (fun t => (t.ctrl, t.rslt, t.wire, t.lt.length)) =
    some (.basic, 0x00000000, chipBytes false [0x21, 0xB8, 0x04, 0x14, 0x20, 0x0C], 24) := by decide
theorem test_init_fail : (after (prepared .inReset 6) 32 0x02000000).map
    (fun t => (t.ctrl, t.rslt, t.lt)) = some (.extendedConfig, 0x00000001,
      [.pin .cs false, .pin .dc false, .tx .low [0x21], .pin .cs true,
       .pin .cs false, .pin .dc false, .txFail .low [0xB8]]) := by decide

/-- V7: SETCONTRAST 0xC5, and its third frame failing. -/
theorem test_setContrast : (after (prepared .basic 16) 32 0x03C50000).map
    (fun t => (t.ctrl, t.rslt, t.cfg.contrast, t.wire)) =
    some (.basic, 0x00000000, 0x45, chipBytes false [0x21, 0xC5, 0x20, 0x0C]) := by decide
theorem test_setContrast_fail : (after (prepared .basic 8) 32 0x03450000).map
    (fun t => (t.ctrl, t.rslt, t.cfg.contrast)) = some (.extendedConfig, 0x00000001, 0x45) := by decide
theorem test_setBias : (after (prepared .basic 16) 32 0x04030000).map
    (fun t => (t.ctrl, t.rslt, t.cfg.bias, t.wire)) =
    some (.basic, 0x00000000, 3, chipBytes false [0x21, 0x13, 0x20, 0x0C]) := by decide
theorem test_setTc : (after (prepared .basic 16) 32 0x05070000).map
    (fun t => (t.ctrl, t.rslt, t.cfg.tc, t.wire)) =
    some (.basic, 0x00000000, 3, chipBytes false [0x21, 0x07, 0x20, 0x0C]) := by decide
theorem test_setTc_refused : (after (prepared .poweredDown 16) 32 0x05020000).map
    (fun t => (t.ctrl, t.rslt, t.cfg.tc, t.lt)) = some (.poweredDown, 0x00000004, 0, []) := by decide

/-- V8. -/
theorem test_pwrDown : (after (prepared .basic 4) 32 0x06000000).map
    (fun t => (t.ctrl, t.rslt, t.wire)) =
    some (.poweredDown, 0x00000000, chipBytes false [0x24]) := by decide
theorem test_pwrUp : (after (prepared .poweredDown 4) 32 0x07000000).map
    (fun t => (t.ctrl, t.rslt, t.wire)) =
    some (.basic, 0x00000000, chipBytes false [0x20]) := by decide
theorem test_pwrUp_fail : (after (prepared .poweredDown 0) 32 0x07000000).map
    (fun t => (t.ctrl, t.rslt, t.lt)) = some (.poweredDown, 0x00000001, [.pinFail .cs]) := by decide

/-- V9. -/
theorem test_setPixel : (after (drawn [(178, 0x10)]) 32 0x100A1501).map
    (fun t => (t.fb, t.dirty, t.rslt)) =
    some ([(178, 0x30)], #v[false, false, true, false, false, false], 0x00000000) := by decide
theorem test_setPixel_out_of_bounds : (after (drawn []) 32 0x10003001).map
    (fun t => (t.fb, t.dirty, t.rslt)) =
    some ([], Vector.replicate 6 false, 0x00000003) := by decide
theorem test_clrPixel : (after (drawn [(178, 0x1F)]) 32 0x110A1400).map
    (fun t => (t.fb, t.dirty, t.rslt)) =
    some ([(178, 0x0F)], #v[false, false, true, false, false, false], 0x00000000) := by decide
theorem test_getPixel_on : (after (drawn [(178, 0x10)]) 32 0x120A1400).map (fun t => t.rslt) =
    some 0x00000100 := by decide
theorem test_getPixel_off : (after (drawn [(178, 0x10)]) 32 0x120A1300).map (fun t => t.rslt) =
    some 0x00000000 := by decide
theorem test_clear : (after (drawn [(178, 0x10), (503, 0x80)]) 32 0x13000000).map
    (fun t => (t.fb, t.dirty, t.rslt)) = some ([], Vector.replicate 6 true, 0x00000000) := by decide

/-- V11: the last address, and the guard before the range. -/
theorem test_setAddr : (after (prepared .basic 4) 32 0x14055300).map
    (fun t => (t.cur, t.rslt, t.lt)) = some ({ col := 83, band := 5 }, 0x00000000,
      [.pin .cs false, .pin .dc false, .tx .low [0x45, 0xD3], .pin .cs true]) := by decide
theorem test_setAddr_guard_first : (after (prepared .poweredDown 4) 32 0x14090000).map
    (fun t => (t.cur, t.rslt, t.lt)) =
    some ({ col := 0, band := 0 }, 0x00000004, []) := by decide

/-- V12: one dirty band, and a failing data frame of the second of two. -/
theorem test_flush : (after { prepared .basic 8 with
      fb := [(178, 0x10)], dirty := #v[false, false, true, false, false, false] } 32 0x15000000).map
    (fun t => (t.cur, t.rslt, t.dirty, t.lt.length)) =
    some ({ col := 0, band := 3 }, 0x00000000, Vector.replicate 6 false, 8) := by decide +kernel
theorem test_flush_fail : (after { prepared .basic 14 with
      dirty := #v[false, true, false, false, true, false] } 32 0x15000000).map
    (fun t => (t.cur, t.rslt, t.dirty, t.lt.length)) =
    some ({ col := 0, band := 4 }, 0x00000001, #v[false, false, false, false, true, false], 15) := by
  decide

/-- V13: a code outside the glyphs is the solid block; with the glyphs of V13, row 2. -/
def lettered (f : List (Byte × Config.Glyph)) (t : TextCursor) : State :=
  { prepared .uninitialized 0 with params := { Params.default with font := f }, text := t }
theorem test_wrChar_glyph :
    (after (lettered [(0x48, #v[0x7F, 0x08, 0x08, 0x08, 0x7F])] { tcol := 13, trow := 0 }) 32
      0x20480000).map (fun t => (t.fb, t.text, t.rslt)) =
    some ([(78, 0x7F), (79, 0x08), (80, 0x08), (81, 0x08), (82, 0x7F)], { tcol := 0, trow := 1 },
      0x00000000) := by decide +kernel
theorem test_wrChar_newline : (after (lettered [] { tcol := 5, trow := 5 }) 32 0x200A0000).map
    (fun t => (t.fb, t.text, t.rslt)) = some ([], { tcol := 0, trow := 0 }, 0x00000000) := by decide

/-- V14. -/
theorem test_geometry : (after (prepared .uninitialized 0) 32 0x28000000).map (fun t => t.rslt) =
    some 0x00543000 := by decide
theorem test_drawPixel : (after (drawn []) 32 0x29532F01).map (fun t => (t.fb, t.dirty, t.rslt)) =
    some ([(503, 0x80)], #v[false, false, false, false, false, true], 0x00000000) := by decide
theorem test_drawPixel_dropped : (after (drawn []) 32 0x29540001).map
    (fun t => (t.fb, t.dirty, t.rslt)) = some ([], Vector.replicate 6 false, 0x00000000) := by decide

/-- R141 to R147: a byte the chip takes sets its register. -/
theorem test_cmdFunctionSet : (after State.reset 8 0x21).map
    (fun t => (t.chip.pd, t.chip.v, t.chip.h)) = some (false, .horizontal, true) := by decide
theorem test_cmdDisplayControl : (after State.reset 8 0x0C).map (fun t => t.chip.disp) =
    some .normal := by decide
theorem test_cmdSetY : (after State.reset 8 0x45).map (fun t => t.chip.addr) =
    some { col := 0, band := 5 } := by decide
theorem test_cmdSetX : (after State.reset 8 0xD3).map (fun t => t.chip.addr) =
    some { col := 83, band := 0 } := by decide
theorem test_cmdSetTc : (after State.reset 8 0x06).map (fun t => t.chip.tc) = some 2 := by decide
theorem test_cmdSetBias : (after State.reset 8 0x13).map (fun t => t.chip.bias) = some 3 := by decide
theorem test_cmdSetVop : (next { State.reset with
    chip := { Chip.afterReset with h := true }, wire := [.byte false 0xC5] }).map
    (fun t => t.chip.vop) = some 0x45 := by decide
/-- R79, R80, R81: a data byte at the end of a row; a powered-down chip ignores it. -/
def listening : State := { State.reset with
  chip := { Chip.afterReset with pd := false, addr := { col := 83, band := 4 } }
  wire := [.byte true 0xA5] }
theorem test_data : (next listening).map (fun t => (t.chip.ddram, t.chip.addr)) =
    some ([(419, 0xA5)], { col := 0, band := 5 }) := by decide
theorem test_data_powered_down : (next { State.reset with wire := [.byte true 0xA5] }).map
    (fun t => (t.chip.ddram, t.chip.addr)) = some ([], { col := 0, band := 0 }) := by decide

/-- R121: of a byte only the first five bits arrive, and wait; after a reset they are gone. -/
theorem test_part_of_a_byte : (next { State.reset with wire := [.part false 5 0xB8] }).map
    (fun t => (t.chip.held, t.chip.addr)) =
    some ([true, false, true, true, true], { col := 0, band := 0 }) := by decide
theorem test_reset_pulse : (next { State.reset with
    chip := { Chip.afterReset with held := [true], h := true }, wire := [.resetPulse] }).map
    (fun t => (t.chip.held, t.chip.h)) = some ([], false) := by decide
/-- R133: the byte 0x21 goes out as 0, 0, 1, 0, 0, 0, 0, 1. -/
theorem test_bits : bitsOf 0x21 = [false, false, true, false, false, false, false, true] ∧
    byteOf [false, false, true, false, false, false, false, true] = 0x21 := by decide

/-- R291, R83: a chip of a kind that keeps everything, powered down and sent to the extended set. -/
theorem test_kept : (next { State.reset with
    chip := { Chip.afterReset with
      pd := false, vop := 5, disp := .inverse, ddram := [(7, 0x01)]
      kind := { ddram := true, settings := true, display := true } }
    wire := [.byte false 0x25] }).map (fun t => (t.chip.pd, t.chip.vop, t.chip.disp, t.chip.ddram)) =
    some (true, 5, .inverse, [(7, 0x01)]) := by decide
/-- Of a chip of a kind that loses DDRAM nothing more is known of it. -/
theorem test_lost : (next { State.reset with
    chip := { Chip.afterReset with
      pd := false, ddram := [(7, 0x01)], kind := { ddram := false, settings := true, display := true } }
    wire := [.byte false 0x24] }).map (fun t => t.chip.ddram) = some [] := by decide

/-- R6: with a T_RES_POST of its own, RESET waits for it after the pulse. -/
theorem test_reset_post : (after { prepared .uninitialized 2 with
      params := { Params.default with tResPost := 40 }
      env := { (prepared .uninitialized 2).env with waits := [7, 2] } } 32 0x01000000).map
    (fun t => t.lt) =
    some [.pin .res false, .wait 100007, .pin .res true, .wait 42] := by decide

/-- R40, R104: another ENC is a code too, and the block sends its bytes. -/
def otherEnc : Enc := { Enc.datasheet with setBias := { base := 0x48#8, bits := [0, 1, 2] } }
theorem test_other_enc : otherEnc.wf = true ∧ (after { prepared .basic 16 with
      params := { Params.default with enc := otherEnc } } 32 0x04030000).map (fun t => t.wire) =
    some (chipBytes false [0x21, 0x4B, 0x20, 0x0C]) := by decide

/-- R37: UPC is the step of the rule: L3 when a data frame fails, and L1 of a band that is skipped. -/
def upcOf (f : Flow) : Option Nat :=
  match f with
  | .go s => s.upc
  | .raised _ s => s.upc
theorem test_upc : upcOf (flushBands [1] { prepared .basic 6 with
      dirty := #v[false, true, false, false, false, false] }) = some 3 ∧
    upcOf (flushBands [1, 2] { prepared .basic 8 with
      dirty := #v[false, true, false, false, false, false] }) = some 1 ∧
    upcOf (pixelFlow 0 0 true (drawn [])) = some 3 ∧ upcOf (pixelFlow 84 0 true (drawn [])) = some 0 := by
  decide

/-- V15. -/
theorem test_new : powerOn Params.default true (cfgOf 0xB8 7 12 .horizontal .blank) =
    .next (State.initial Params.default
      { contrast := 0x38, tc := 3, bias := 4, addrmode := .horizontal, dispmode := .blank }) := by
  rfl
theorem test_new_fail : powerOn Params.default false Cfg.illustrative = .fault .constructionError := rfl

/-- S1, S4: the coordinate formula and its inverse. -/
theorem test_map : mapPixel 10 20 = (178, 4) ∧ mapPixel 42 31 = (294, 7) ∧
    mapPixel 83 47 = (503, 7) ∧ unmapPixel 178 4 = (10, 20) := by decide
/-- V10. -/
theorem test_advance :
    advance .horizontal { col := 83, band := 4 } = { col := 0, band := 5 } ∧
    advance .horizontal { col := 83, band := 5 } = { col := 0, band := 0 } ∧
    advance .vertical { col := 0, band := 5 } = { col := 1, band := 0 } ∧
    advance .vertical { col := 83, band := 5 } = { col := 0, band := 0 } := by decide

/-! ## Witnesses: concrete states and operands that meet the hypotheses of each statement -/

/-- A script of n ok answers gives n ok answers. -/
theorem script_ok (c : CtrlState) (n : Nat) : answersOk n (prepared c n).env :=
  answersAre_script _ [false] _ rfl

/-- A script that fails after n ok answers does not give more. -/
theorem script_stops {n m : Nat} (h : n < m) {e : Env}
    (he : e.answers = List.replicate n true ++ [false]) : ¬ answersOk m e := by
  induction n generalizing m e with
  | zero =>
    obtain ⟨k, rfl⟩ := Nat.exists_eq_add_of_lt h
    intro ha
    have h1 := (answersOk_mono (by omega : 1 ≤ 0 + k + 1) ha).1
    simp [nextAnswer, he] at h1
  | succ n ih =>
    obtain ⟨k, rfl⟩ := Nat.exists_eq_add_of_lt h
    intro ha
    have h1 : answersOk (n + k + 1) (nextAnswer e).2 :=
      answersOk_after (k := 1) ha (by omega)
    refine ih (by omega) ?_ h1
    simp [nextAnswer, he, List.replicate_succ]

theorem stops (c : CtrlState) {n m : Nat} (h : n < m) : ¬ answersOk m (prepared c n).env :=
  script_stops h rfl

/-- A block without a chip-select pin. -/
def unselected : State :=
  { prepared .basic 2 with params := { Params.default with hasCsPin := false } }

/-- A ready chip that keeps DDRAM beside a block in Basic, every band dirty, a FLUSH waiting, 48 ok
answers. -/
def ready : State := { prepared .basic 48 with
  chip := { Chip.afterReset with
    pd := false, kind := { ddram := true, settings := false, display := false } }
  dirty := Vector.replicate 6 true
  hostq := [0x15000000] }

theorem test_witness_DecodeOfEncodedInstruction :
    (Enc.datasheet.wf = true ∧ otherEnc.wf = true) ∧ recognised false (.cmdSetX 127) = true ∧
    recognised true (.cmdSetVop 127) = true ∧ recognised true (.drawPixel 255 255 true) = true := by
  decide

theorem test_witness_OperationWordsAreUnique : decodeOpw 0x29FFFF01 = .ok (.drawPixel 255 255 true) ∧
    (Instr.drawPixel 255 255 true).isOperation = true ∧
    (0x01000002 : Word).extractLsb' 1 7 ≠ 0#7 := by decide

theorem test_witness_StepRunsAcceptedOperation :
    (State.reset.withFetchWord 32 0x29FFFF01).wire = [] ∧
    (State.reset.withFetchWord 32 0x29FFFF01).upc = none ∧
    (State.reset.withFetchWord 32 0x29FFFF01).hostq = 0x29FFFF01 :: [] ∧
    decodeOpw 0x29FFFF01 = .ok (.drawPixel 255 255 true) := by decide

/-- Without stray bits, and with one, a 0 before the byte 0x20: lost, the byte is FUNCTION_SET; kept, it
is 0x10, no command under H = 0. -/
theorem test_witness_StepRunsByteTheChipTakes : (listening.wire = .byte true 0xA5 :: [] ∧
      listening.chip.held = [] ∧
      decodeChip listening.params.enc true listening.chip.h 0xA5 = .ok (.data 0xA5)) ∧
    (∃ s : State, s.wire = .byte false 0x20 :: [] ∧
      (ChipInput.byte false 0x20).bits = some (false, bitsOf 0x20) ∧ s.chip.held ≠ [] ∧
      8 ≤ (bitsStanding s.chip (bitsOf 0x20)).length ∧
      decodeChip s.params.enc false s.chip.h 0x20 = .ok (.cmdFunctionSet false false false) ∧
      decodeChip s.params.enc false s.chip.h 0x10 = .error .unrecognisedCommand) :=
  ⟨by decide, { listening with
      wire := [.byte false 0x20], chip := { listening.chip with held := [false] } },
    rfl, rfl, by decide, by simp [bitsStanding, bitsOf], by decide, by decide⟩

/-- Four bits before three are short of a byte whether they are kept or lost. -/
theorem test_witness_StepWithoutInstruction :
    (listening.setWire [.resetPulse]).wire = .resetPulse :: [] ∧
    ((listening.setWire [.byte false 0x14]).wire = .byte false 0x14 :: [] ∧
      (listening.setWire [.byte false 0x14]).chip.held = [] ∧
      decodeChip (listening.setWire [.byte false 0x14]).params.enc false
        (listening.setWire [.byte false 0x14]).chip.h 0x14 = .error .unrecognisedCommand) ∧
    ((listening.setWire [.part true 7 0x14]).wire = .part true 7 0x14 :: [] ∧
      (listening.setWire [.part true 7 0x14]).chip.held = []) ∧
    (∃ s : State, s.wire = .part true 3 0x14 :: [] ∧ s.chip.held ≠ [] ∧
      (bitsStanding s.chip ((bitsOf 0x14).take (3 : Fin 8).val)).length < 8) ∧
    (State.reset.wire = [] ∧ (State.reset.upc ≠ none ∨ State.reset.hostq = [])) :=
  ⟨by decide, by decide, by decide, ⟨{ listening with
      wire := [.part true 3 0x14]
      chip := { listening.chip with held := [true, false, true, false] } },
    rfl, by decide, by unfold bitsStanding; split <;> decide⟩, by decide⟩

theorem test_witness_UndefinedWordIsRefused :
    (State.reset.setHostq [0xFF000000]).wire = [] ∧ (State.reset.setHostq [0xFF000000]).upc = none ∧
    (State.reset.setHostq [0xFF000000]).hostq = 0xFF000000 :: [] ∧
    ∀ i, decodeOpw 0xFF000000 ≠ .ok i := by
  refine ⟨rfl, rfl, rfl, fun i h => ?_⟩
  have hd : decodeOpw 0xFF000000 = .error .undefinedOpcode := by decide
  rw [hd] at h
  cases h

theorem test_witness_MapperIsBijection : (83 : Byte).toNat < 84 ∧ (47 : Byte).toNat < 48 ∧
    (0 : Byte).toNat < 84 ∧ mapPixel 83 47 = mapPixel 83 47 ∧ 503 < 504 ∧ 7 < 8 := by decide

/-- In range at the last pixel, and out of range at the first column and the first row beyond. -/
theorem test_witness_SetPixelWritesOnePixel : (83 : Byte).toNat < 84 ∧ (47 : Byte).toNat < 48 ∧
    (5 : Fin 6).val = (47 : Byte).toNat / 8 ∧ (prepared .basic 0).params.granule = .band ∧
    (4 : Fin 6).val ≠ (47 : Byte).toNat / 8 ∧ (502 ≠ mapIdx 83 47) ∧
    (84 ≤ (84 : Byte).toNat ∨ 48 ≤ (0 : Byte).toNat) ∧
    (84 ≤ (0 : Byte).toNat ∨ 48 ≤ (48 : Byte).toNat) := by decide

theorem test_witness_ClrPixelClearsOnePixel : (0 : Byte).toNat < 84 ∧ (0 : Byte).toNat < 48 ∧
    (0 : Fin 6).val = (0 : Byte).toNat / 8 ∧ (prepared .basic 0).params.granule = .band ∧
    (1 : Fin 6).val ≠ (0 : Byte).toNat / 8 ∧ (1 ≠ mapIdx 0 0) ∧
    (84 ≤ (255 : Byte).toNat ∨ 48 ≤ (0 : Byte).toNat) := by decide

theorem test_witness_GetPixelReadsOnePixel : (83 : Byte).toNat < 84 ∧ (47 : Byte).toNat < 48 ∧
    (84 ≤ (84 : Byte).toNat ∨ 48 ≤ (48 : Byte).toNat) := by decide

theorem test_witness_PixelReadsBackAsDrawn : (83 : Byte).toNat < 84 ∧ (47 : Byte).toNat < 48 ∧
    (82 : Byte).toNat < 84 ∧ ((82 : Byte), (47 : Byte)) ≠ (83, 47) ∧ 84 ≤ (84 : Byte).toNat := by decide

theorem test_witness_FrameSuccessOnTheLines :
    ((prepared .basic 4).params.hasCsPin = true ∧
      answersAre [true, true, true, true] (prepared .basic 4).env) ∧
    (unselected.params.hasCsPin = false ∧ answersAre [true, true] unselected.env) :=
  ⟨⟨rfl, script_ok .basic 4⟩, ⟨rfl, answersAre_script _ [false] _ rfl⟩⟩

theorem test_witness_FrameFailureStopsAtOnce : (prepared .basic 0).params.hasCsPin = true ∧
    answersAre [false] (prepared .basic 0).env ∧ answersAre [true, false] (prepared .basic 1).env ∧
    answersAre [true, true, false] (prepared .basic 2).env ∧
    answersAre [true, true, true, false] (prepared .basic 3).env ∧
    unselected.params.hasCsPin = false :=
  ⟨rfl, answersAre_script _ [] _ rfl, answersAre_script _ [] _ rfl, answersAre_script _ [] _ rfl,
    answersAre_script _ [] _ rfl, rfl⟩

theorem test_witness_AssembledBytesAreTheirCommands : otherEnc.wf = true ∧
    { ready with params := { ready.params with enc := otherEnc } }.params.enc = otherEnc := by decide

theorem test_witness_ResetPulsesAndClears : answersAre [true, true] (prepared .basic 2).env :=
  script_ok .basic 2

theorem test_witness_ResetPinErrorLeavesMemory :
    (¬ answersAre [true, true] (prepared .basic 0).env ∧ answersAre [false] (prepared .basic 0).env) ∧
    (¬ answersAre [true, true] (prepared .basic 1).env ∧
      answersAre [true, false] (prepared .basic 1).env) :=
  ⟨⟨stops (m := 2) .basic (by decide), answersAre_script _ [] _ rfl⟩,
    ⟨stops (m := 2) .basic (by decide), answersAre_script _ [] _ rfl⟩⟩

theorem test_witness_InitSendsSixCommands :
    ((prepared .inReset 24).ctrl = .inReset ∧
      answersOk (6 * frameActions (prepared .inReset 24).params) (prepared .inReset 24).env) ∧
    (prepared .basic 24).ctrl ≠ .inReset := ⟨⟨rfl, script_ok .inReset 24⟩, by decide⟩

/-- The first frame failing, and the last line action of the last frame failing. -/
theorem test_witness_InitFailureIsNotRolledBack :
    ((prepared .inReset 3).ctrl = .inReset ∧
      ¬ answersOk (6 * frameActions (prepared .inReset 3).params) (prepared .inReset 3).env ∧
      ¬ answersOk ((0 + 1) * frameActions (prepared .inReset 3).params) (prepared .inReset 3).env) ∧
    ((prepared .inReset 23).ctrl = .inReset ∧
      ¬ answersOk (6 * frameActions (prepared .inReset 23).params) (prepared .inReset 23).env ∧
      answersOk (5 * frameActions (prepared .inReset 23).params) (prepared .inReset 23).env) :=
  ⟨⟨rfl, stops (m := 24) .inReset (by decide), stops (m := 4) .inReset (by decide)⟩,
    ⟨rfl, stops (m := 24) .inReset (by decide),
      answersOk_mono (by decide : 20 ≤ 23) (script_ok .inReset 23)⟩⟩

theorem test_witness_SetContrastSendsAndRecords :
    ((prepared .basic 16).ctrl = .basic ∧
      answersOk (4 * frameActions (prepared .basic 16).params) (prepared .basic 16).env) ∧
    (prepared .extendedConfig 16).ctrl ≠ .basic := ⟨⟨rfl, script_ok .basic 16⟩, by decide⟩

theorem test_witness_SetBiasSendsAndRecords :
    ((prepared .basic 16).ctrl = .basic ∧
      answersOk (4 * frameActions (prepared .basic 16).params) (prepared .basic 16).env) ∧
    (prepared .poweredDown 16).ctrl ≠ .basic := ⟨⟨rfl, script_ok .basic 16⟩, by decide⟩

theorem test_witness_SetTcSendsAndRecords :
    ((prepared .basic 16).ctrl = .basic ∧
      answersOk (4 * frameActions (prepared .basic 16).params) (prepared .basic 16).env) ∧
    (prepared .inReset 16).ctrl ≠ .basic := ⟨⟨rfl, script_ok .basic 16⟩, by decide⟩

/-- The first, the second and the last frame failing. -/
theorem test_witness_ConfigFailureKeepsWhatWasSent :
    (∃ a : Byte, Instr.setBias 3 = .setBias a ∧
      (0x13 : Byte) = byteBIAS (prepared .basic 3).params.enc (a.extractLsb' 0 3) ∧
      ({ (prepared .basic 3).cfg with bias := 3 } : Cfg) =
        { (prepared .basic 3).cfg with bias := a.extractLsb' 0 3 }) ∧
    ((prepared .basic 3).ctrl = .basic ∧ ¬ answersOk (4 * 4) (prepared .basic 3).env ∧
      ¬ answersOk 4 (prepared .basic 3).env) ∧
    (¬ answersOk (4 * 4) (prepared .basic 7).env ∧ answersOk 4 (prepared .basic 7).env ∧
      ¬ answersOk (2 * 4) (prepared .basic 7).env) ∧
    (¬ answersOk (4 * 4) (prepared .basic 15).env ∧ answersOk (2 * 4) (prepared .basic 15).env) ∧
    frameActions (prepared .basic 3).params = 4 :=
  ⟨⟨3, rfl, by decide, by decide⟩, ⟨rfl, stops .basic (by decide), stops .basic (by decide)⟩,
    ⟨stops .basic (by decide), answersOk_mono (by decide : 4 ≤ 7) (script_ok .basic 7),
      stops .basic (by decide)⟩,
    ⟨stops .basic (by decide), answersOk_mono (by decide : 8 ≤ 15) (script_ok .basic 15)⟩, rfl⟩

theorem test_witness_PwrDownSendsOneCommand :
    ((prepared .basic 4).ctrl = .basic ∧
      answersOk (frameActions (prepared .basic 4).params) (prepared .basic 4).env) ∧
    ((prepared .basic 3).ctrl = .basic ∧
      ¬ answersOk (frameActions (prepared .basic 3).params) (prepared .basic 3).env) ∧
    (prepared .poweredDown 4).ctrl ≠ .basic :=
  ⟨⟨rfl, script_ok .basic 4⟩, ⟨rfl, stops (m := 4) .basic (by decide)⟩, by decide⟩

theorem test_witness_PwrUpSendsOneCommand :
    ((prepared .poweredDown 4).ctrl = .poweredDown ∧
      answersOk (frameActions (prepared .poweredDown 4).params) (prepared .poweredDown 4).env) ∧
    ((prepared .poweredDown 3).ctrl = .poweredDown ∧
      ¬ answersOk (frameActions (prepared .poweredDown 3).params) (prepared .poweredDown 3).env) ∧
    (prepared .basic 4).ctrl ≠ .poweredDown :=
  ⟨⟨rfl, script_ok .poweredDown 4⟩, ⟨rfl, stops (m := 4) .poweredDown (by decide)⟩, by decide⟩

theorem test_witness_StateGuardsAsTabled :
    (Instr.flush.isOperation = true ∧ allowedIn .flush (prepared .poweredDown 0).ctrl = false) ∧
    ((prepared .poweredDown 0).txb = [] ∧ (prepared .poweredDown 0).upc = none) ∧
    allowedIn .flush (prepared .basic 0).ctrl = true := by decide

theorem test_witness_PinErrorOnlyFromReset : Instr.reset.isOperation = true ∧
    ¬ answersOk (frameActions (prepared .basic 3).params) (prepared .basic 3).env :=
  ⟨rfl, stops (m := 4) .basic (by decide)⟩

theorem test_witness_OutOfBoundsExactlyWhenOutOfRange :
    (Instr.setAddr 6 0).isOperation = true ∧
    (after (prepared .basic 0) 32 0x14060000).map (fun t => resultStatus t.rslt) = some 3 := by decide

/-- A completion of each of the transitions' operations exists: the clauses are disjuncts of it. -/
theorem test_witness_StateTransitionsAsTabled :
    (∃ s, powerOn Params.default true Cfg.illustrative = .next s) ∧ Instr.init.isOperation = true ∧
    ∃ t, exec .init (prepared .inReset 24) = .next t := ⟨⟨_, rfl⟩, rfl, _, rfl⟩

theorem test_witness_SetAddrSendsThenMirrors :
    ((prepared .basic 4).ctrl = .basic ∧ (5 : Byte).toNat < 6 ∧ (83 : Byte).toNat < 84 ∧
      answersOk (frameActions (prepared .basic 4).params) (prepared .basic 4).env) ∧
    ((prepared .basic 3).ctrl = .basic ∧
      ¬ answersOk (frameActions (prepared .basic 3).params) (prepared .basic 3).env) ∧
    (6 ≤ (6 : Byte).toNat ∨ 84 ≤ (0 : Byte).toNat) ∧ (6 ≤ (0 : Byte).toNat ∨ 84 ≤ (84 : Byte).toNat) ∧
    (prepared .poweredDown 4).ctrl ≠ .basic :=
  ⟨⟨rfl, by decide, by decide, script_ok .basic 4⟩, ⟨rfl, stops (m := 4) .basic (by decide)⟩,
    by decide, by decide, by decide⟩

theorem test_sentBands_ready : sentBands ready = [0, 1, 2, 3, 4, 5] := by decide

theorem test_witness_FlushSendsExactlyDirtyBands : ready.ctrl = .basic ∧
    answersOk (2 * frameActions ready.params * (sentBands ready).length) ready.env := by
  rw [test_sentBands_ready]
  exact ⟨rfl, script_ok .basic 48⟩

/-- The data frame of the last band failing, and the address frame of the first. -/
theorem test_witness_FailedFlushCanResume :
    ({ ready with env := (prepared .basic 47).env } : State).ctrl = .basic ∧
    ready.params.granule = .band ∧
    ¬ answersOk (2 * frameActions ready.params * (sentBands ready).length) (prepared .basic 47).env ∧
    ¬ answersOk (2 * frameActions ready.params * (sentBands ready).length) (prepared .basic 0).env ∧
    answersOk (2 * frameActions ready.params * 5 + frameActions ready.params)
      (prepared .basic 47).env ∧
    ¬ answersOk (2 * frameActions ready.params * 0 + frameActions ready.params)
      (prepared .basic 0).env := by
  rw [test_sentBands_ready]
  exact ⟨rfl, rfl, stops (m := 48) .basic (by decide), stops (m := 48) .basic (by decide),
    answersOk_mono (by decide : 44 ≤ 47) (script_ok .basic 47), stops (m := 4) .basic (by decide)⟩

/-- One flag for the whole buffer: the data frame of the last band failing. -/
theorem test_witness_FailedWholeBufferFlushSendsAllAgain :
    ∃ s : State, s.ctrl = .basic ∧ s.params.granule = .whole ∧
      ¬ answersOk (2 * frameActions s.params * (sentBands s).length) s.env ∧
      answersOk (2 * frameActions s.params * 5 + frameActions s.params) s.env := by
  refine ⟨{ ready with
    params := { ready.params with granule := .whole }, env := (prepared .basic 47).env },
    rfl, rfl, ?_, answersOk_mono (by decide : 44 ≤ 47) (script_ok .basic 47)⟩
  rw [show sentBands _ = [0, 1, 2, 3, 4, 5] by decide]
  exact stops (m := 48) .basic (by decide)

theorem test_witness_FlushMakesDdramEqual : ready.ctrl = .basic ∧ ready.wire = [] ∧
    ready.cfg.addrmode = .horizontal ∧ ready.params.enc.wf = true ∧ ready.chip.held = [] ∧
    ready.chip.h = false ∧ ready.chip.pd = false ∧
    ready.chip.v = .horizontal ∧
    answersOk (2 * frameActions ready.params * (sentBands ready).length) ready.env :=
  ⟨rfl, rfl, rfl, by decide, rfl, rfl, rfl, rfl, test_witness_FlushSendsExactlyDirtyBands.2⟩

theorem test_witness_WrCharDrawsOneCell : (0x48 : Byte) ≠ 0x0A#8 ∧
    (lettered [(0x48, Config.solidBlock)] { tcol := 13, trow := 5 }).params.font.find?
      (fun e => e.1 == 0x48) = some (0x48, Config.solidBlock) ∧
    (lettered [] { tcol := 12, trow := 0 }).params.font.find? (fun e => e.1 == 0x48) = none ∧
    (lettered [] { tcol := 12, trow := 0 }).text.tcol.val < 13 ∧
    (lettered [] { tcol := 13, trow := 5 }).text.tcol.val = 13 ∧
    (lettered [] { tcol := 13, trow := 5 }).params.granule = .band := by decide

theorem test_witness_DrawPixelDelegatesOrDrops : (83 : Byte).toNat < 84 ∧ (47 : Byte).toNat < 48 ∧
    (84 ≤ (84 : Byte).toNat ∨ 48 ≤ (0 : Byte).toNat) ∧
    (84 ≤ (0 : Byte).toNat ∨ 48 ≤ (48 : Byte).toNat) := by decide

theorem test_witness_ChipAddressCommandsSetTheCounter : (5 : BitVec 3).toNat < 6 ∧
    (83 : BitVec 7).toNat < 84 := by decide

theorem test_witness_DataByteWritesDdramAndAdvances : listening.chip.pd = false ∧
    State.reset.chip.pd = true := by decide

theorem test_witness_ChipNeverInfluencesBlock : Instr.flush.isOperation = true ∧
    (Instr.data 0xA5).isOperation = false := by decide

theorem test_witness_OnlyListedWritersWrite : ∃ t, exec .flush ready = .next t := ⟨_, rfl⟩

theorem test_witness_TraceOnlyGrows : (∃ t, exec (.setPixel 83 47 true) ready = .next t) ∧
    ∃ x y v, Instr.setPixel 83 47 true = .setPixel x y v := ⟨⟨_, rfl⟩, _, _, _, rfl⟩

theorem test_witness_InvariantKeptByEveryStep : Inv listening ∧ ∃ t, step listening = .next t :=
  ⟨⟨rfl, rfl, rfl, rfl, by unfold resultOk; decide, rfl, by decide⟩, _, rfl⟩

/-- A kind of chip for each clause about what is kept, and both ways of being powered down. -/
theorem test_witness_ChipModeCommandsSetTheirRegister : ready.chip.kind.ddram = true ∧
    ready.chip.pd = false ∧ State.reset.chip.pd = true ∧
    ∃ k : Retention, k.ddram = false ∧ k.settings = true ∧ k.display = true :=
  ⟨rfl, rfl, rfl, ⟨false, true, true⟩, rfl, rfl, rfl⟩

theorem test_witness_ShadowKeptWithoutFailures : InSync ready ∧ ready.cfg.addrmode = .horizontal ∧
    ready.params.resetDirty = true ∧ ready.params.enc.wf = true ∧ ready.chip.kind.ddram = true ∧
    answersOk 48 ready.env ∧ ∃ t, step ready = .next t := by
  refine ⟨⟨rfl, ⟨fun _ => ⟨rfl, rfl, rfl⟩, fun h => by cases h⟩, fun b h => ?_⟩, rfl, rfl, by decide,
    rfl, script_ok .basic 48, _, rfl⟩
  have hd : ∀ b, isDirty ready b = true := by decide
  rw [hd b] at h
  cases h

end Sys2Proof.Tests
end

section
/-! PROOFS. What each instruction may write (rule R45): a relation between states with one rule per
update, carried through the flow of every operation. -/

namespace Sys2Proof.Machine

/-! ## What an instruction may write (rule R45) -/

/-- A set of registers that may be written: one flag per register or field, and for the dirty flags
whether they may be set and whether they may be cleared. -/
structure Writes where
  fb : Bool := false
  cur : Bool := false
  contrast : Bool := false
  bias : Bool := false
  tc : Bool := false
  dispmode : Bool := false
  ctrl : Bool := false
  text : Bool := false
  marks : Bool := false
  clears : Bool := false
  lines : Bool := false
  chip : Bool := false

/-- The writers of rule R45, read by instruction: what each may write. -/
def writesOf (p : Params) : Instr → Writes
  | .reset => { fb := true, cur := true, ctrl := true, marks := true, clears := !p.resetDirty,
                lines := true }
  | .init => { dispmode := true, ctrl := true, lines := true }
  | .setContrast _ => { contrast := true, ctrl := true, lines := true }
  | .setBias _ => { bias := true, ctrl := true, lines := true }
  | .setTc _ => { tc := true, ctrl := true, lines := true }
  | .pwrDown | .pwrUp => { ctrl := true, lines := true }
  | .setPixel _ _ _ | .clrPixel _ _ | .drawPixel _ _ _ | .clear => { fb := true, marks := true }
  | .getPixel _ _ | .geometry => {}
  | .setAddr _ _ => { cur := true, lines := true }
  | .flush => { cur := true, clears := true, lines := true }
  | .wrChar _ => { fb := true, text := true, marks := true }
  | .cmdFunctionSet _ _ _ | .cmdDisplayControl _ _ | .cmdSetY _ | .cmdSetX _ | .cmdSetTc _
  | .cmdSetBias _ | .cmdSetVop _ | .data _ => { chip := true }

/-- From s to t nothing is written but what w allows, and RSLT, UPC, TXB and the chip's inputs; the
trace only grows, and what holds of the latches, of TXB and of the framebuffer's form still holds. -/
structure Kept (w : Writes) (s t : State) : Prop where
  params : t.params = s.params
  opw : t.opw = s.opw
  hostq : t.hostq = s.hostq
  addrmode : t.cfg.addrmode = s.cfg.addrmode
  fb : w.fb = true ∨ t.fb = s.fb
  cur : w.cur = true ∨ t.cur = s.cur
  contrast : w.contrast = true ∨ t.cfg.contrast = s.cfg.contrast
  bias : w.bias = true ∨ t.cfg.bias = s.cfg.bias
  tc : w.tc = true ∨ t.cfg.tc = s.cfg.tc
  dispmode : w.dispmode = true ∧ t.cfg.dispmode = .normal ∨ t.cfg.dispmode = s.cfg.dispmode
  ctrl : w.ctrl = true ∨ t.ctrl = s.ctrl
  text : w.text = true ∨ t.text = s.text
  dirty : (w.marks = true ∨ w.clears = true) ∨ t.dirty = s.dirty
  setFlags : w.clears = true ∨ ∀ b, isDirty s b = true → isDirty t b = true
  clearFlags : w.marks = true ∨ ∀ b, isDirty s b = false → isDirty t b = false
  lines : w.lines = true ∨ t.lt = s.lt ∧ t.lines = s.lines ∧ t.env = s.env
  chip : w.chip = true ∨ t.chip = s.chip
  grown : s.lt <+: t.lt
  replayed : s.lines = replayLines s.lt → t.lines = replayLines t.lt
  txb : s.txb = [] → t.txb = []
  fbWf : Memory.wf Config.fbUnlisted s.fb = true → Memory.wf Config.fbUnlisted t.fb = true

namespace Kept

variable {w : Writes} {s t u : State}

theorem refl (w : Writes) (s : State) : Kept w s s where
  params := rfl
  opw := rfl
  hostq := rfl
  addrmode := rfl
  fb := .inr rfl
  cur := .inr rfl
  contrast := .inr rfl
  bias := .inr rfl
  tc := .inr rfl
  dispmode := .inr rfl
  ctrl := .inr rfl
  text := .inr rfl
  dirty := .inr rfl
  setFlags := .inr fun _ => id
  clearFlags := .inr fun _ => id
  lines := .inr ⟨rfl, rfl, rfl⟩
  chip := .inr rfl
  grown := List.prefix_rfl
  replayed := id
  txb := id
  fbWf := id

/-- One register over two stretches: it may be written, or neither stretch changes it. -/
theorem register_trans {α : Type} {p : Prop} {x y z : α} (h : p ∨ y = x) (k : p ∨ z = y) :
    p ∨ z = x := by
  rcases h with h | rfl
  · exact .inl h
  · exact k

theorem trans (h : Kept w s t) (k : Kept w t u) : Kept w s u where
  params := k.params.trans h.params
  opw := k.opw.trans h.opw
  hostq := k.hostq.trans h.hostq
  addrmode := k.addrmode.trans h.addrmode
  fb := register_trans h.fb k.fb
  cur := register_trans h.cur k.cur
  contrast := register_trans h.contrast k.contrast
  bias := register_trans h.bias k.bias
  tc := register_trans h.tc k.tc
  dispmode := k.dispmode.elim .inl fun e => e ▸ h.dispmode
  ctrl := register_trans h.ctrl k.ctrl
  text := register_trans h.text k.text
  dirty := register_trans h.dirty k.dirty
  setFlags := h.setFlags.elim .inl fun f => k.setFlags.imp_right fun g b => g b ∘ f b
  clearFlags := h.clearFlags.elim .inl fun f => k.clearFlags.imp_right fun g b => g b ∘ f b
  lines := h.lines.elim .inl fun ⟨a, b, c⟩ => a ▸ b ▸ c ▸ k.lines
  chip := register_trans h.chip k.chip
  grown := h.grown.trans k.grown
  replayed := k.replayed ∘ h.replayed
  txb := k.txb ∘ h.txb
  fbWf := k.fbWf ∘ h.fbWf

/-! One rule per update of the state. -/

theorem setUpc (w : Writes) (s : State) (n : Option Nat) : Kept w s (s.setUpc n) :=
  { refl w s with }

theorem setRslt (w : Writes) (s : State) (r : Word) : Kept w s (s.setRslt r) :=
  { refl w s with }

theorem emptyTxb (w : Writes) (s : State) : Kept w s (s.setTxb []) :=
  { refl w s with txb := fun _ => rfl }

theorem setCtrl (hw : w.ctrl = true) (s : State) (c : CtrlState) : Kept w s (s.setCtrl c) :=
  { refl w s with ctrl := .inl hw }

theorem setCur (hw : w.cur = true) (s : State) (c : Cursor) : Kept w s (s.setCur c) :=
  { refl w s with cur := .inl hw }

theorem setText (hw : w.text = true) (s : State) (c : TextCursor) : Kept w s (s.setText c) :=
  { refl w s with text := .inl hw }

theorem setContrast (hw : w.contrast = true) (s : State) (v : BitVec 7) :
    Kept w s (s.setCfg { s.cfg with contrast := v }) :=
  { refl w s with contrast := .inl hw }

theorem setBias (hw : w.bias = true) (s : State) (v : BitVec 3) :
    Kept w s (s.setCfg { s.cfg with bias := v }) :=
  { refl w s with bias := .inl hw }

theorem setTc (hw : w.tc = true) (s : State) (v : BitVec 2) :
    Kept w s (s.setCfg { s.cfg with tc := v }) :=
  { refl w s with tc := .inl hw }

theorem setNormal (hw : w.dispmode = true) (s : State) :
    Kept w s (s.setCfg { s.cfg with dispmode := .normal }) :=
  { refl w s with dispmode := .inl ⟨hw, rfl⟩ }

theorem setChip (hw : w.chip = true) (s : State) (c : Chip) : Kept w s (s.setChip c) :=
  { refl w s with chip := .inl hw }

theorem setFb (hw : w.fb = true) (s : State) {m : Memory}
    (hm : Memory.wf Config.fbUnlisted s.fb = true → Memory.wf Config.fbUnlisted m = true) :
    Kept w s (s.setFb m) :=
  { refl w s with fb := .inl hw, fbWf := hm }

theorem setDirty {d : Vector Bool 6} (hw : w.marks = true ∨ w.clears = true)
    (hset : w.clears = true ∨ ∀ b, isDirty s b = true → isDirty (s.setDirty d) b = true)
    (hclear : w.marks = true ∨ ∀ b, isDirty s b = false → isDirty (s.setDirty d) b = false) :
    Kept w s (s.setDirty d) :=
  { refl w s with dirty := .inl hw, setFlags := hset, clearFlags := hclear }

/-- What a line action can change. -/
theorem of_lineOnly (hw : w.lines = true) (h : LineOnly s t) (hx : s.txb = [] → t.txb = []) :
    Kept w s t := by
  rw [h.rest]
  exact { refl w s with lines := .inl hw, grown := h.grown, replayed := h.replayed, txb := hx }

end Kept

/-! ## The dirty flags and the pixels under these rules -/

/-- Flags that are all the same read as that, at either granularity. -/
theorem isDirty_of_replicate {s : State} {v : Bool} (h : s.dirty = Vector.replicate 6 v) (b : Fin 6) :
    isDirty s b = v := by
  unfold isDirty
  split <;> simp [h]

theorem isDirty_clearDirty_of_clear {s : State} {c : Fin 6} (h : isDirty s c = false) (b : Fin 6) :
    isDirty (clearDirty s b) c = false := by
  cases hg : s.params.granule
  · by_cases hc : c = b
    · exact hc ▸ isDirty_clearDirty_self hg b
    · rw [isDirty_clearDirty_other hg hc, h]
  · by_cases hb : b = 5
    · simp [isDirty, clearDirty, hg, hb]
    · simpa [clearDirty, hg, hb] using h

section

variable {w : Writes} {s : State}

theorem setAllDirty_kept (hm : w.marks = true) {v : Bool} (hv : w.clears = true ∨ v = true) :
    Kept w s (setAllDirty s v) :=
  .setDirty (.inl hm) (hv.imp_right fun hv b _ => (isDirty_of_replicate rfl b).trans hv) (.inl hm)

theorem markDirty_kept (hm : w.marks = true) (b : Fin 6) : Kept w s (markDirty s b) := by
  have hset : ∀ c, isDirty s c = true → isDirty (markDirty s b) c = true :=
    fun c hc => isDirty_markDirty s b c (.inl hc)
  rw [markDirty_rest] at hset ⊢
  exact .setDirty (.inl hm) (.inr hset) (.inl hm)

theorem clearDirty_kept (hc : w.clears = true) (b : Fin 6) : Kept w s (clearDirty s b) := by
  have hclear : ∀ c, isDirty s c = false → isDirty (clearDirty s b) c = false :=
    fun c hc => isDirty_clearDirty_of_clear hc b
  rw [clearDirty_rest] at hclear ⊢
  exact .setDirty (.inr hc) (.inl hc) (.inr hclear)

theorem mapIdx_lt {x y : Byte} (hx : x.toNat < 84) (hy : y.toNat < 48) :
    mapIdx x y < Config.fbBytes := by
  simp only [mapIdx, Config.width, Config.fbBytes]
  omega

theorem writePixel_kept (hf : w.fb = true) (hm : w.marks = true) {x y : Byte} (hx : x.toNat < 84)
    (hy : y.toNat < 48) (v : Bool) : Kept w s (writePixel x y v s) :=
  (Kept.setFb hf s fun h => fbWrite_wf h (mapIdx_lt hx hy) _).trans (markDirty_kept hm _)

end

/-- Drawing a glyph is writing pixels in range, so what each of them keeps the glyph keeps
(rules R202, R206). -/
theorem drawGlyph_induction {P : State → Prop}
    (hP : ∀ (t : State) (x y : Byte) (v : Bool), x.toNat < 84 → y.toNat < 48 → P t →
      P (writePixel x y v t))
    (g : Config.Glyph) {s : State} (hs : P s) : P (drawGlyph g s) := by
  have hx : ∀ (c : TextCursor) (k : Fin 5), (cellX c k.val).toNat < 84 := fun c k => by
    have := c.tcol.isLt
    have := k.isLt
    exact (Nat.mod_le _ _).trans_lt (by omega)
  have hy : ∀ (c : TextCursor) (n : Nat), n < 8 → (cellY c n).toNat < 48 := fun c n hn => by
    have := c.trow.isLt
    exact (Nat.mod_le _ _).trans_lt (by omega)
  refine List.foldlRecOn _ _ hs fun t ht k _ => List.foldlRecOn _ _ ht fun u hu n hn => ?_
  exact hP u _ _ _ (hx _ k) (hy _ n (by revert n; decide)) hu

/-! ## A flow under these rules -/

/-- A flow that began at s writes only what w allows and does not end in ConstructionError. -/
def Flow.Keeps (w : Writes) (s : State) (f : Flow) : Prop :=
  Kept w s f.state ∧ ∀ t, f ≠ .raised .constructionError t

namespace Flow.Keeps

variable {w : Writes} {s t : State} {f : Flow} {g : State → Flow}

theorem go (h : Kept w s t) : (Flow.go t).Keeps w s := ⟨h, fun _ => by simp⟩

theorem raised {e : ErrorCode} (h : Kept w s t) (he : e ≠ .constructionError) :
    (Flow.raised e t).Keeps w s := ⟨h, fun _ => by simp [he]⟩

theorem andThen (h : f.Keeps w s) (hg : ∀ t, Kept w s t → (g t).Keeps w t) :
    (f.andThen g).Keeps w s := by
  cases f with
  | go t => exact ⟨h.1.trans (hg t h.1).1, (hg t h.1).2⟩
  | raised e t => exact h

theorem step (h : f.Keeps w s) (n : Nat) (hg : ∀ t, Kept w s t → (g t).Keeps w t) :
    (f.step n g).Keeps w s := by
  refine h.andThen fun t ht => ?_
  have hu := Kept.setUpc w t (some n)
  obtain ⟨hk, he⟩ := hg _ (ht.trans hu)
  exact ⟨hu.trans hk, he⟩

theorem update (h : f.Keeps w s) {u : State → State} (hu : ∀ t, Kept w t (u t)) :
    (f.update u).Keeps w s := by
  cases f with
  | go t => exact .go (h.1.trans (hu t))
  | raised e t => exact h

end Flow.Keeps

theorem guardState_keeps (w : Writes) (c : CtrlState) (s : State) :
    (guardState c s).Keeps w s := by
  by_cases h : s.ctrl = c
  · rw [guardState_pass h]
    exact .go (.setUpc _ _ _)
  · rw [guardState_refuse h]
    exact .raised (.setUpc _ _ _) (by decide)

theorem frame_keeps {w : Writes} (hw : w.lines = true) (dc : Bool) (bytes : List Byte) (s : State) :
    (frame dc bytes s).Keeps w s := by
  have hl := frame_lineOnly dc bytes s
  cases hf : frame dc bytes s with
  | go t =>
    rw [hf] at hl
    exact .go (.of_lineOnly hw hl fun _ => frame_go_txb hf)
  | raised e t =>
    rw [hf] at hl
    obtain ⟨hx, rfl⟩ := frame_clean dc bytes s e t hf
    exact .raised (.of_lineOnly hw hl fun _ => hx) (by decide)

/-! ## The operations -/

section

variable {w : Writes}

/-- INIT (rules R164, R165). -/
theorem initFlow_keeps (hl : w.lines = true) (hc : w.ctrl = true) (hd : w.dispmode = true)
    (s : State) : (initFlow s).Keeps w s :=
  have hsend (b : State → Byte) : ∀ t, Kept w s t → (sendCommand (b t) t).Keeps w t :=
    fun _ _ => frame_keeps hl _ _ _
  (((((((guardState_keeps w _ s).step 1 fun _ _ =>
    (frame_keeps hl _ _ _).update fun t => .setCtrl hc t _).step 2 (hsend _)).step 3 (hsend _)).step 4
      (hsend _)).step 5 (hsend _)).step 6 (hsend _)).step 7
        fun t _ => .go ((Kept.setNormal hd t).trans (.setCtrl hc _ _))

/-- A configuration operation that may record its value (rules R166 to R169). -/
theorem configFlow_keeps (hl : w.lines = true) (hc : w.ctrl = true) {record : Cfg → Cfg}
    (hr : ∀ t : State, Kept w t (t.setCfg (record t.cfg))) (b : Byte) (s : State) :
    (configFlow b record s).Keeps w s :=
  (((((guardState_keeps w _ s).step 1 fun _ _ =>
    (frame_keeps hl _ _ _).update fun t => .setCtrl hc t _).step 2 fun _ _ =>
      (frame_keeps hl _ _ _).update hr).step 3 fun _ _ => frame_keeps hl _ _ _).step 4
        fun _ _ => frame_keeps hl _ _ _).step 5 fun t _ => .go (.setCtrl hc t _)

/-- Power control (rules R170, R171). -/
theorem powerFlow_keeps (hl : w.lines = true) (hc : w.ctrl = true) (want next : CtrlState)
    (b : State → Byte) (s : State) :
    (guardState want s |>.step 1 (fun s => sendCommand (b s) s)
      |>.step 2 (fun s => .go (s.setCtrl next))).Keeps w s :=
  ((guardState_keeps w want s).step 1 fun _ _ => frame_keeps hl _ _ _).step 2
    fun t _ => .go (.setCtrl hc t _)

/-- SETADDR (rule R223). -/
theorem setAddrFlow_keeps (hl : w.lines = true) (hc : w.cur = true) (band col : Byte) (s : State) :
    (guardState .basic s |>.step 1 (guardAddr band col) |>.step 2 (sendAddress (cursorOf band col))
      |>.step 3 (fun s => .go (s.setCur (cursorOf band col)))).Keeps w s := by
  have haddr (t : State) : (guardAddr band col t).Keeps w t := by
    unfold guardAddr
    split
    · exact .go (.refl w t)
    · exact .raised (.refl w t) (by decide)
  exact (((guardState_keeps w .basic s).step 1 fun t _ => haddr t).step 2
    fun _ _ => frame_keeps hl _ _ _).step 3 fun t _ => .go (.setCur hc t _)

theorem flushBand_keeps (hl : w.lines = true) (hc : w.cur = true) (hd : w.clears = true) (b : Fin 6)
    (s : State) : (flushBand b s).Keeps w s := by
  have hsend (t : State) : (sendBand b t).Keeps w t :=
    (((Flow.Keeps.go (.refl w t)).step 2 fun _ _ =>
      (frame_keeps hl _ _ _).update fun u => .setCur hc u _).step 3 fun _ _ =>
        (frame_keeps hl _ _ _).update fun u => .setCur hc u _).step 4
          fun _ _ => .go (clearDirty_kept hd b)
  refine (Flow.Keeps.go (.refl w s)).step 1 fun t _ => ?_
  split
  · exact hsend t
  · exact .go (.refl w t)

/-- FLUSH's loop (rule R226). -/
theorem flushBands_keeps (hl : w.lines = true) (hc : w.cur = true) (hd : w.clears = true)
    (l : List (Fin 6)) (s : State) : (flushBands l s).Keeps w s := by
  induction l generalizing s with
  | nil => exact .go (.refl w s)
  | cons b l ih => exact (flushBand_keeps hl hc hd b s).andThen fun t _ => ih t

theorem pinSet_txb (p : Pin) (l : Bool) (s : State) : (pinSet p l s).2.txb = s.txb := by
  unfold pinSet drawAnswer
  rcases nextAnswer s.env with ⟨_ | _, e⟩
  · cases p <;> rfl
  · cases p <;> cases l <;> rfl

theorem driveReset_keeps (hl : w.lines = true) (hc : w.ctrl = true) (l : Bool) (s : State) :
    (driveReset l s).Keeps w s := by
  have hk : Kept w s (pinSet .res l s).2 :=
    .of_lineOnly hl (pinSet_lineOnly .res l s) (pinSet_txb .res l s).trans
  unfold driveReset
  generalize pinSet .res l s = r at hk ⊢
  obtain ⟨_ | _, t⟩ := r
  · exact .raised (hk.trans (.setCtrl hc _ _)) (by decide)
  · exact .go hk

theorem waitAfterReset_txb (s : State) : (waitAfterReset s).txb = s.txb := by
  unfold waitAfterReset
  split <;> rfl

/-- RESET (rule R162); it clears the dirty flags only when RESET_DIRTY is 0. -/
theorem resetFlow_keeps (hl : w.lines = true) (hc : w.ctrl = true) (hf : w.fb = true)
    (hcur : w.cur = true) (hm : w.marks = true) {s : State}
    (hd : w.clears = true ∨ s.params.resetDirty = true) : (resetFlow s).Keeps w s :=
  (((((Flow.Keeps.go (.refl w s)).step 1 fun t _ => driveReset_keeps hl hc false t).step 2
    fun t _ => .go (.of_lineOnly hl (waitAtLeast_lineOnly _ t) id)).step 3
      fun t _ => (driveReset_keeps hl hc true t).update fun u =>
        .of_lineOnly hl (waitAfterReset_lineOnly u) (waitAfterReset_txb u).trans).step 4
          fun t ht => .go (((Kept.setFb hf t fun _ => rfl).trans
            (setAllDirty_kept hm (ht.params ▸ hd))).trans (.setCur hcur _ _))).step 5
              fun t _ => .go (.setCtrl hc t _)

theorem guardRange_keeps (x y : Byte) (s : State) : (guardRange x y s).Keeps w s := by
  refine (Flow.Keeps.go (.refl w s)).step 0 fun t _ => ?_
  split
  · exact .go (.refl w t)
  · exact .raised (.refl w t) (by decide)

/-- SETPIXEL and CLRPIXEL (rules R182, R183). -/
theorem pixelFlow_keeps (hf : w.fb = true) (hm : w.marks = true) (x y : Byte) (v : Bool) (s : State) :
    (pixelFlow x y v s).Keeps w s := by
  by_cases h : x.toNat < 84 ∧ y.toNat < 48
  · rw [pixelFlow_pass h.1 h.2]
    exact .go ((Kept.setUpc w s _).trans (writePixel_kept hf hm h.1 h.2 v))
  · rw [pixelFlow_refuse (by omega)]
    exact .raised (.setUpc _ _ _) (by decide)

/-- DRAWPIXEL (rule R217). -/
theorem drawPixelFlow_keeps (hf : w.fb = true) (hm : w.marks = true) (x y : Byte) (v : Bool)
    (s : State) : ((Flow.go s).step 0 (fun s => if inRange x y then
      (Flow.go s).step 1 (fun s => .go (writePixel x y v s)) else .go s)).Keeps w s := by
  refine (Flow.Keeps.go (.refl w s)).step 0 fun t _ => ?_
  split
  · next h =>
    obtain ⟨hx, hy⟩ := (inRange_iff x y).1 h
    exact (Flow.Keeps.go (.refl w t)).step 1 fun u _ => .go (writePixel_kept hf hm hx hy v)
  · exact .go (.refl w t)

/-- WRCHAR (rule R206). -/
theorem wrCharFlow_keeps (hf : w.fb = true) (hm : w.marks = true) (ht : w.text = true) (c : Byte)
    (s : State) : ((Flow.go s).step 0 (fun s => if c = Config.newlineCode then
      .go (s.setText (newline s.text)) else drawCharacter c s)).Keeps w s := by
  have hdraw (t : State) : Kept w t (drawGlyph (glyphOf t.params c) t) :=
    drawGlyph_induction (fun u x y v hx hy hu => hu.trans (writePixel_kept hf hm hx hy v)) _
      (.refl w t)
  refine (Flow.Keeps.go (.refl w s)).step 0 fun t _ => ?_
  split
  · exact .go (.setText ht _ _)
  · exact (((Flow.Keeps.go (.refl w t)).step 1 fun u _ => .go (.refl w u)).step 2
      fun u _ => .go (hdraw u)).step 3 fun u _ => .go (.setText ht u _)

end

end Sys2Proof.Machine
end

section
/-! PROOFS. What every operation completes with, what a step does, and from these the whole-machine
frame, the growth of the trace and the invariant of the machine. -/

namespace Sys2Proof.Machine

/-! ## A completion -/

/-- What an operation that began at s leaves: nothing written but what w allows, the port idle, and
RSLT in its layout (rules R37, R100). -/
structure Completes (w : Writes) (s t : State) : Prop extends Kept w s t where
  upcIdle : t.upc = none
  rsltOk : resultOk t.rslt

/-- A result word with a status other than ConstructionError, and no value beside an error. -/
theorem resultOk_resultWord {v : BitVec 16} {st : Byte} (hst : st.toNat ≤ 4)
    (hv : st ≠ statusOk → v = 0#16) : resultOk (resultWord v st) := by
  obtain ⟨hzero, hstatus, hval⟩ := resultWord_fields v st
  exact ⟨hzero, hstatus.symm ▸ hst, by rwa [hstatus, hval]⟩

theorem ErrorCode.status_le {e : ErrorCode} (he : e ≠ .constructionError) : e.status.toNat ≤ 4 := by
  cases e with
  | constructionError => exact absurd rfl he
  | _ => decide

/-- A flow that keeps to w completes so (rules R247, R248). -/
theorem Flow.Keeps.completes {w : Writes} {s t : State} {f : Flow} (hf : f.Keeps w s) {v : BitVec 16}
    (h : (Host.Outcome.next (finish v f) : Host.Outcome State Fault Refusal) = .next t) :
    Completes w s t := by
  obtain rfl := Host.Outcome.next.inj h
  obtain ⟨hk, he⟩ := hf
  cases f with
  | go t =>
    exact ⟨hk.trans ((Kept.setRslt w t _).trans (.setUpc w _ _)), rfl,
      resultOk_resultWord (by decide) fun h => absurd rfl h⟩
  | raised e t =>
    have hc : e ≠ .constructionError := fun h => he t (h ▸ rfl)
    exact ⟨hk.trans (((Kept.setRslt w t _).trans (.emptyTxb w _)).trans (.setUpc w _ _)), rfl,
      resultOk_resultWord (ErrorCode.status_le hc) fun _ => rfl⟩

theorem writesOf_reset_clears (p : Params) :
    (writesOf p .reset).clears = true ∨ p.resetDirty = true := by
  cases h : p.resetDirty <;> simp [writesOf, h]

theorem writesOf_chip (p : Params) (i : Instr) : (writesOf p i).chip = !i.isOperation := by
  cases i <;> rfl

/-- Every operation writes only what rule R45 lists for it, and completes. -/
theorem exec_completes {i : Instr} (hi : i.isOperation = true) {s t : State}
    (h : exec i s = .next t) : Completes (writesOf s.params i) s t := by
  cases i with
  | reset =>
    exact (resetFlow_keeps rfl rfl rfl rfl rfl (writesOf_reset_clears s.params)).completes h
  | init => exact (initFlow_keeps rfl rfl rfl s).completes h
  | setContrast a =>
    exact (configFlow_keeps rfl rfl (fun t => .setContrast rfl t (contrastOf a)) _ s).completes h
  | setBias a => exact (configFlow_keeps rfl rfl (fun t => .setBias rfl t (biasOf a)) _ s).completes h
  | setTc a => exact (configFlow_keeps rfl rfl (fun t => .setTc rfl t (tcOf a)) _ s).completes h
  | pwrDown => exact (powerFlow_keeps rfl rfl _ _ (fsByte · true false) s).completes h
  | pwrUp => exact (powerFlow_keeps rfl rfl _ _ (fsByte · false false) s).completes h
  | setPixel x y v => exact (pixelFlow_keeps rfl rfl x y v s).completes h
  | clrPixel x y => exact (pixelFlow_keeps rfl rfl x y false s).completes h
  | getPixel x y =>
    exact (((guardRange_keeps x y s).step 1 fun t _ => .go (.refl _ t)).step 2
      fun t _ => .go (.refl _ t)).completes h
  | clear =>
    exact (((Flow.Keeps.go (.refl _ s)).step 1 fun t _ => .go (.setFb rfl t fun _ => rfl)).step 2
      fun t _ => .go (setAllDirty_kept rfl (.inr rfl))).completes h
  | setAddr band col => exact (setAddrFlow_keeps rfl rfl band col s).completes h
  | flush =>
    exact ((guardState_keeps _ .basic s).andThen fun t _ =>
      flushBands_keeps rfl rfl rfl _ t).completes h
  | wrChar c => exact (wrCharFlow_keeps rfl rfl rfl c s).completes h
  | geometry => exact (Flow.Keeps.go (.refl _ s)).completes h
  | drawPixel x y v => exact (drawPixelFlow_keeps rfl rfl x y v s).completes h
  | cmdFunctionSet | cmdDisplayControl | cmdSetY | cmdSetX | cmdSetTc | cmdSetBias | cmdSetVop
  | data => cases hi

/-- Every instruction writes only what rule R45 lists for it. -/
theorem exec_kept {i : Instr} {s t : State} (h : exec i s = .next t) :
    Kept (writesOf s.params i) s t := by
  cases hi : i.isOperation with
  | true => exact (exec_completes hi h).toKept
  | false =>
    rw [exec_chip hi] at h
    obtain rfl := Host.Outcome.next.inj h
    exact .setChip (by rw [writesOf_chip, hi]; rfl) s _

/-! ## The writers of each register -/

section

variable {p : Params} {i : Instr}

theorem writesOf_contrast : (writesOf p i).contrast = true → ∃ a, i = .setContrast a := by
  cases i <;> simp [writesOf]

theorem writesOf_bias : (writesOf p i).bias = true → ∃ a, i = .setBias a := by
  cases i <;> simp [writesOf]

theorem writesOf_tc : (writesOf p i).tc = true → ∃ a, i = .setTc a := by
  cases i <;> simp [writesOf]

theorem writesOf_dispmode : (writesOf p i).dispmode = true → i = .init := by
  cases i <;> simp [writesOf]

theorem writesOf_cur : (writesOf p i).cur = true →
    i = .reset ∨ i = .flush ∨ ∃ b c, i = .setAddr b c := by
  cases i <;> simp [writesOf]

theorem writesOf_text : (writesOf p i).text = true → ∃ c, i = .wrChar c := by
  cases i <;> simp [writesOf]

theorem writesOf_ctrl : (writesOf p i).ctrl = true →
    i = .reset ∨ i = .init ∨ i = .pwrDown ∨ i = .pwrUp ∨ (∃ a, i = .setContrast a) ∨
      (∃ a, i = .setBias a) ∨ ∃ a, i = .setTc a := by
  cases i <;> simp [writesOf]

theorem writesOf_fb : (writesOf p i).fb = true →
    i = .clear ∨ i = .reset ∨ (∃ c, i = .wrChar c) ∨ (∃ x y, i = .clrPixel x y) ∨
      (∃ x y v, i = .setPixel x y v) ∨ ∃ x y v, i = .drawPixel x y v := by
  cases i <;> simp [writesOf]

/-- The writers of the framebuffer are those that set flags. -/
theorem writesOf_marks : (writesOf p i).marks = (writesOf p i).fb := by
  cases i <;> rfl

theorem writesOf_clears : (writesOf p i).clears = true →
    i = .flush ∨ i = .reset ∧ p.resetDirty = false := by
  cases i <;> simp [writesOf]

theorem writesOf_lines : (writesOf p i).lines = true → i.isOperation = true ∧ i ≠ .clear ∧
    i ≠ .geometry ∧ (∀ c, i ≠ .wrChar c) ∧ (∀ x y, i ≠ .clrPixel x y) ∧ (∀ x y, i ≠ .getPixel x y) ∧
    (∀ x y v, i ≠ .setPixel x y v) ∧ ∀ x y v, i ≠ .drawPixel x y v := by
  cases i <;> simp [writesOf, Instr.isOperation]

end

/-- Settles O48: every operation is kept to its row of the table of writers (`exec_kept`), and the
table is read register by register. -/
theorem onlyListedWritersWrite : Obligations.OnlyListedWritersWrite := by
  intro i s t h
  have k := exec_kept h
  refine ⟨k.params, k.opw, k.hostq, k.addrmode, ?_, k.contrast.symm.imp_right writesOf_contrast,
    k.bias.symm.imp_right writesOf_bias, k.tc.symm.imp_right writesOf_tc,
    k.fb.symm.imp_right writesOf_fb, k.cur.symm.imp_right writesOf_cur,
    k.text.symm.imp_right writesOf_text, k.ctrl.symm.imp_right writesOf_ctrl,
    k.dirty.symm.imp_right fun hd => ?_, fun b hs ht => ?_, fun b hs ht hi => ?_⟩
  · exact k.dispmode.symm.imp_right fun ⟨hw, hn⟩ => ⟨writesOf_dispmode hw, hn⟩
  · rcases hd with hm | hc
    · exact .inr (writesOf_fb (writesOf_marks ▸ hm))
    · rcases writesOf_clears hc with hi | ⟨hi, -⟩
      · exact .inl hi
      · exact .inr (.inr (.inl hi))
  · rcases k.setFlags with hc | hk
    · exact writesOf_clears hc
    · exact absurd (hk b hs) (by simp [ht])
  · subst hi
    rcases k.clearFlags with hm | hk
    · cases hm
    · exact absurd (hk b hs) (by simp [ht])

/-- Settles O49: the trace of every instruction only grows, and the instructions named are not among
the writers of the lines. -/
theorem traceOnlyGrows : Obligations.TraceOnlyGrows := by
  intro i s t h
  have k := exec_kept h
  refine ⟨k.grown, fun hi => k.lines.resolve_left fun hw => ?_⟩
  obtain ⟨hop, hclear, hgeo, hchar, hclr, hget, hset, hdraw⟩ := writesOf_lines hw
  rcases hi with hi | hi | hi | ⟨c, hi⟩ | ⟨x, y, hi⟩ | ⟨x, y, hi⟩ | ⟨x, y, v, hi⟩ | ⟨x, y, v, hi⟩
  · rw [hop] at hi
    cases hi
  · exact hclear hi
  · exact hgeo hi
  · exact hchar c hi
  · exact hclr x y hi
  · exact hget x y hi
  · exact hset x y v hi
  · exact hdraw x y v hi

/-! ## The invariant of the machine -/

theorem ifZero_eq_ok {unused : Bool} {i j : Instr} :
    ifZero unused i = .ok j ↔ unused = true ∧ i = j := by
  cases unused <;> simp [ifZero]

/-- A word of the port that spells anything spells an operation (rule R92). -/
theorem decodeOpw_isOperation {w : Word} {i : Instr} (h : decodeOpw w = .ok i) :
    i.isOperation = true := by
  unfold decodeOpw formZ formV formAB formXYC at h
  split at h
  case h_17 => cases h
  all_goals
    obtain ⟨-, rfl⟩ := ifZero_eq_ok.1 h
    rfl

/-- A step that finds nothing for the chip to take and an operation word takes it (rules R37, R97). -/
theorem step_operation {s : State} {w : Word} {rest : List Word} {i : Instr} (hw : s.wire = [])
    (hu : s.upc = none) (hq : s.hostq = w :: rest) (hd : decodeOpw w = .ok i) :
    step s = exec i ((s.setHostq rest).setOpw w) := by
  simp [step, fetch, hw, hu, hq, fetchOperation, hd]

/-- With nothing for the chip to take, and no word or a port that is not idle, nothing happens
(rules R37, R248). -/
theorem step_idle {s : State} (hw : s.wire = []) (h : s.upc ≠ none ∨ s.hostq = []) :
    step s = .next s := by
  cases hu : s.upc with
  | some n => simp [step, fetch, hw, hu]
  | none => simp [step, fetch, hw, hu, h.resolve_left (absurd hu)]

/-- What a step that has a next state does: the chip takes its oldest input, or nothing happens, or
the host's next word spells an operation and it is executed. -/
theorem step_cases {s t : State} (h : step s = .next t) :
    (∃ e rest, s.wire = e :: rest ∧
      t = (s.setWire rest).setChip (chipTake s.params.enc s.chip e)) ∨
    t = s ∨
    (∃ w rest i, s.wire = [] ∧ i.isOperation = true ∧
      exec i ((s.setHostq rest).setOpw w) = .next t) := by
  cases hw : s.wire with
  | cons e rest =>
    rw [step_wire hw] at h
    exact .inl ⟨e, rest, rfl, (Host.Outcome.next.inj h).symm⟩
  | nil =>
    by_cases hidle : s.upc ≠ none ∨ s.hostq = []
    · rw [step_idle hw hidle] at h
      exact .inr (.inl (Host.Outcome.next.inj h).symm)
    · obtain ⟨hu, hq⟩ := not_or.1 hidle
      obtain ⟨w, rest, hq⟩ := List.exists_cons_of_ne_nil hq
      cases hd : decodeOpw w with
      | ok i =>
        rw [step_operation hw (not_not.1 hu) hq hd] at h
        exact .inr (.inr ⟨w, rest, i, rfl, decodeOpw_isOperation hd, h⟩)
      | error e => simp [step, fetch, hw, not_not.1 hu, hq, fetchOperation, hd] at h

/-! ## The invariant of the machine -/

/-- A chip instruction keeps the form of DDRAM: only the data byte writes it, inside the 504 bytes. -/
theorem chipEffect_ddramWf {c : Chip} (h : Memory.wf Config.ddramUnlisted c.ddram = true)
    (i : Instr) : Memory.wf Config.ddramUnlisted (chipEffect i c).ddram = true := by
  cases i with
  | cmdFunctionSet pd v k =>
    have hl : Memory.wf Config.ddramUnlisted (chipLapse c).ddram = true := by
      unfold chipLapse
      dsimp only
      split
      · exact h
      · rfl
    simp only [chipEffect, chipFunctionSet, chipSuspend]
    split <;> split <;> assumption
  | data d =>
    simp only [chipEffect, chipData]
    split
    · exact h
    · have hband := c.addr.band.isLt
      have hcol := c.addr.col.isLt
      exact ddramWrite_wf h (by simp only [bandIndex, Config.width, Config.fbBytes]; omega) d
  | _ => exact h

theorem chipSettle_eq (c : Chip) : ∃ l n, chipSettle c = { c with held := l, draws := n } := by
  unfold chipSettle
  split
  · exact ⟨c.held, c.draws, rfl⟩
  · exact ⟨_, _, rfl⟩

theorem chipShift_eq (bits : List Bool) (c : Chip) :
    ∃ l, (chipShift bits c).2 = { c with held := l } := by
  unfold chipShift
  split <;> exact ⟨_, rfl⟩

/-- Bits taken by the chip: its shift register changes, and at most one instruction is executed. -/
theorem chipTakeBits_cases (en : Enc) (dc : Bool) (bits : List Bool) (c : Chip) :
    ∃ l n, chipTakeBits en dc bits c = { c with held := l, draws := n } ∨
      ∃ i, chipTakeBits en dc bits c = chipEffect i { c with held := l, draws := n } := by
  obtain ⟨k, n, hc⟩ := chipSettle_eq c
  obtain ⟨l, hs⟩ := chipShift_eq bits (chipSettle c)
  rw [hc] at hs
  refine ⟨l, n, ?_⟩
  unfold chipTakeBits
  rw [hc, ← hs]
  generalize chipShift bits _ = r
  obtain ⟨_ | b, d⟩ := r
  · exact .inl rfl
  · dsimp only
    split
    · exact .inr ⟨_, rfl⟩
    · exact .inl rfl

theorem chipTakeBits_ddramWf {c : Chip} (h : Memory.wf Config.ddramUnlisted c.ddram = true)
    (en : Enc) (dc : Bool) (bits : List Bool) :
    Memory.wf Config.ddramUnlisted (chipTakeBits en dc bits c).ddram = true := by
  obtain ⟨l, n, he | ⟨i, he⟩⟩ := chipTakeBits_cases en dc bits c
  · rw [he]
    exact h
  · rw [he]
    exact chipEffect_ddramWf (by exact h) i

/-- An input taken keeps the form of DDRAM and leaves no whole byte in the shift register (log 8). -/
theorem chipTake_wf {c : Chip} (hd : Memory.wf Config.ddramUnlisted c.ddram = true)
    (hh : c.held.length < 8) (en : Enc) (e : ChipInput) :
    Memory.wf Config.ddramUnlisted (chipTake en c e).ddram = true ∧
      (chipTake en c e).held.length < 8 := by
  cases e with
  | resetPulse => exact ⟨rfl, Nat.zero_lt_succ 7⟩
  | byte dc b => exact ⟨chipTakeBits_ddramWf hd en dc _, chipTakeBits_held hh en dc (bitsOf_length b).le⟩
  | part dc k b =>
    exact ⟨chipTakeBits_ddramWf hd en dc _, chipTakeBits_held hh en dc
      ((List.length_take_le' _ _).trans (bitsOf_length b).le)⟩

/-- An operation keeps the invariant: it completes, and the chip is not its to write. -/
theorem Inv.completes {w : Writes} {s t : State} (hs : Inv s) (h : Completes w s t)
    (hw : w.chip = false) : Inv t where
  txbEmpty := h.txb hs.txbEmpty
  upcIdle := h.upcIdle
  fbWf := h.fbWf hs.fbWf
  ddramWf := (h.chip.resolve_left (by simp [hw])) ▸ hs.ddramWf
  rsltOk := h.rsltOk
  latches := h.replayed hs.latches
  heldShort := (h.chip.resolve_left (by simp [hw])) ▸ hs.heldShort

/-- Settles O51, along what a step does: the chip's intake keeps its memory's form and its shift
register short, and an operation writes what is listed for it and completes. -/
theorem invariantKeptByEveryStep : Obligations.InvariantKeptByEveryStep := by
  intro s t hs h
  obtain ⟨e, rest, -, rfl⟩ | rfl | ⟨w, rest, i, -, hi, h⟩ := step_cases h
  · obtain ⟨hd, hh⟩ := chipTake_wf hs.ddramWf hs.heldShort s.params.enc e
    exact { hs with ddramWf := hd, heldShort := hh }
  · exact hs
  · have hs' : Inv ((s.setHostq rest).setOpw w) := { hs with }
    exact hs'.completes (exec_completes hi h) (by rw [writesOf_chip, hi]; rfl)

/-- Settles O50: every field is at its power-on value. -/
theorem invariantAtReset : Obligations.InvariantAtReset := by
  have hr : resultOk 0#32 := by
    unfold resultOk
    decide
  have h : ∀ (p : Params) (c : Cfg), Inv (State.initial p c) := fun p c =>
    { txbEmpty := rfl, upcIdle := rfl, fbWf := rfl, ddramWf := rfl, rsltOk := hr
      latches := rfl, heldShort := Nat.zero_lt_succ 7 }
  exact ⟨h, h _ _⟩

/-! ## Single steps and power-on -/

/-- Settles O4: it is `step_operation`, the state written out. -/
theorem stepRunsAcceptedOperation : Obligations.StepRunsAcceptedOperation := by
  intro s w rest i hw hu hq hd
  rw [step_operation hw hu hq hd]
  rfl

/-- Too few bits for a byte wait in the shift register, after those that still stand there (log 8). -/
theorem chipTakeBits_short {c : Chip} {bits : List Bool}
    (h : ((chipSettle c).held ++ bits).length < 8) (en : Enc) (dc : Bool) :
    chipTakeBits en dc bits c =
      { chipSettle c with held := (chipSettle c).held ++ bits } := by
  simp only [chipTakeBits, chipShift, if_neg (Nat.not_le.2 h)]

theorem chipSettle_clean {c : Chip} (h : c.held = []) : chipSettle c = c := if_pos h

/-- Settles O6: a step with an input is the chip taking it (`step_wire`), so each clause but the last
is what the chip does with that input. -/
theorem stepWithoutInstruction : Obligations.StepWithoutInstruction := by
  refine ⟨fun s rest h => step_wire h, fun s dc b rest e hw hh hd => ?_, fun s dc k b rest hw hh => ?_,
    fun s dc k b rest hw hh hl => ?_, fun s e rest h => step_wire h, fun s hw h => step_idle hw h⟩
  · rw [step_wire hw, chipTake_byte hh, hd]
    rfl
  · have hk : ((bitsOf b).take k.val).length < 8 := (List.length_take_le _ _).trans_lt k.isLt
    have ht : chipTake s.params.enc s.chip (.part dc k b) = _ :=
      chipTakeBits_short (by rw [chipSettle_clean hh, hh]; exact hk) s.params.enc dc
    rw [step_wire hw, ht, chipSettle_clean hh, hh]
    rfl
  · have ht : chipTake s.params.enc s.chip (.part dc k b) = _ :=
      chipTakeBits_short (by rw [chipSettle_bits hh]; exact hl) s.params.enc dc
    rw [step_wire hw, ht, chipSettle_bits hh, chipSettle, if_neg hh]
    rfl

/-- Settles O8: `powerOn` leaves `State.initial`, whose fields are the listed ones. -/
theorem powerOnStateAsListed : Obligations.PowerOnStateAsListed := by
  refine ⟨fun p contrast tc bias am dm => ⟨State.initial p (cfgOf contrast tc bias am dm), rfl,
    fbRead_nil, fun b => ?_, rfl, rfl, rfl, rfl, rfl, rfl, rfl, rfl, rfl⟩, fun p c => rfl⟩
  exact Vector.getElem_replicate b.isLt

end Sys2Proof.Machine
end

section
/-! PROOFS. The framebuffer with its dirty flags as a shadow of DDRAM (rules R76, R231). -/

namespace Sys2Proof.Machine

/-! ## The chip in a known mode -/

/-- A chip without stray bits, in the mode pd, h, a, whose DDRAM and kind are those of c0. -/
structure InMode (c0 : Chip) (pd h : Bool) (a : AddrMode) (c : Chip) : Prop where
  held : c.held = []
  pd : c.pd = pd
  h : c.h = h
  v : c.v = a
  ddram : c.ddram = c0.ddram
  kind : c.kind = c0.kind

namespace InMode

variable {e : Enc} {c0 c : Chip} {pd h : Bool} {a : AddrMode}

theorem refl (hc : c.held = []) : InMode c c.pd c.h c.v c := ⟨hc, rfl, rfl, rfl, rfl, rfl⟩

/-- FUNCTION_SET is recognised under every H, and a chip of a kind that keeps DDRAM keeps it (rules
R105, R141). -/
theorem functionSet (hc : InMode c0 pd h a c) (he : e.wf = true) (hk : c0.kind.ddram = true)
    (pd' : Bool) (a' : AddrMode) (h' : Bool) :
    InMode c0 pd' h' a' (chipTake e c (.byte false (byteFS e pd' (vOf a') h'))) := by
  obtain ⟨hpd, hv, hh, hheld, hkind, hd⟩ := chipFunctionSet_keeps pd' (vOf a') h' c
  rw [take_functionSet he hc.held]
  exact ⟨hheld.trans hc.held, hpd, hh, hv.trans (addrModeOf_vOf a'),
    (hd (.inl (hc.kind ▸ hk))).trans hc.ddram, hkind.trans hc.kind⟩

theorem setVop (hc : InMode c0 pd true a c) (he : e.wf = true) (v : BitVec 7) :
    InMode c0 pd true a (chipTake e c (.byte false (byteVOP e v))) := by
  rw [take_setVop he hc.held hc.h]
  exact { hc with }

theorem setTc (hc : InMode c0 pd true a c) (he : e.wf = true) (v : BitVec 2) :
    InMode c0 pd true a (chipTake e c (.byte false (byteTC e v))) := by
  rw [take_setTc he hc.held hc.h]
  exact { hc with }

theorem setBias (hc : InMode c0 pd true a c) (he : e.wf = true) (v : BitVec 3) :
    InMode c0 pd true a (chipTake e c (.byte false (byteBIAS e v))) := by
  rw [take_setBias he hc.held hc.h]
  exact { hc with }

theorem displayControl (hc : InMode c0 pd false a c) (he : e.wf = true) (m : DispMode) :
    InMode c0 pd false a (chipTake e c (.byte false (dispByte e m))) := by
  rw [dispByte, take_displayControl he hc.held hc.h]
  exact { hc with }

end InMode

/-! ## What keeps the block and the chip in step -/

/-- More bytes on the wire are taken after those that stand there. -/
theorem drained_of_sent {s t : State} {w : List ChipInput} (hp : t.params = s.params)
    (hc : t.chip = s.chip) (hw : t.wire = s.wire ++ w) :
    drained t = w.foldl (chipTake s.params.enc) (drained s) := by
  rw [drained, hp, hc, hw, List.foldl_append]
  rfl

/-- Bytes sent that leave DDRAM alone, put the chip into the basic instruction set and power it as
STATE says, and touch neither the framebuffer nor the flags. -/
theorem InSync.of_inMode {s t : State} (hs : InSync s) {w : List ChipInput} {pd : Bool}
    (hm : InMode (drained s) pd false t.cfg.addrmode (w.foldl (chipTake s.params.enc) (drained s)))
    (hbasic : t.ctrl = .basic → pd = false) (hdown : t.ctrl = .poweredDown → pd = true)
    (hp : t.params = s.params) (hc : t.chip = s.chip) (hw : t.wire = s.wire ++ w) (hfb : t.fb = s.fb)
    (hd : t.dirty = s.dirty) : InSync t := by
  have hdr := drained_of_sent hp hc hw
  refine ⟨hdr ▸ hm.held, ⟨fun h => ?_, fun h => ?_⟩, fun b hb k hk => ?_⟩
  · rw [hdr]
    exact ⟨hm.h, hm.pd.trans (hbasic h), hm.v⟩
  · rw [hdr]
    exact ⟨hm.h, hm.pd.trans (hdown h), hm.v⟩
  · rw [hdr, hm.ddram, hfb]
    exact hs.shown b (by rwa [isDirty, hp, hd] at hb) k hk

/-- A completion writes nothing that being in step speaks of. -/
theorem InSync.finish {f : Flow} (h : InSync f.state) {v : BitVec 16} {t : State}
    (ht : (Host.Outcome.next (finish v f) : Host.Outcome State Fault Refusal) = .next t) :
    InSync t := by
  obtain rfl := Host.Outcome.next.inj ht
  cases f <;> exact { h with }

theorem InSync.setUpc {s : State} (h : InSync s) (n : Option Nat) : InSync (s.setUpc n) := { h with }

theorem InSync.setText {s : State} (h : InSync s) (c : TextCursor) : InSync (s.setText c) := { h with }

/-- A pixel written in range marks its band, and the bytes of the other bands are as they were. -/
theorem InSync.writePixel {s : State} (hs : InSync s) {x y : Byte} (hx : x.toNat < 84)
    (hy : y.toNat < 48) (v : Bool) : InSync (writePixel x y v s) := by
  have hmark := isDirty_markDirty (drawBit x y v s) (bandOf y)
  have hflag : ∀ b, isDirty (Machine.writePixel x y v s) b = false →
      isDirty s b = false ∧ b ≠ bandOf y := fun b hb =>
    ⟨Bool.eq_false_iff.2 fun h => Bool.false_ne_true (hb.symm.trans (hmark b (.inl h))),
      fun h => Bool.false_ne_true (hb.symm.trans (hmark b (.inr h)))⟩
  have hbyte : ∀ b, b ≠ bandOf y → ∀ k < 84, fbRead (Machine.writePixel x y v s).fb (bandIndex b k) =
      fbRead s.fb (bandIndex b k) := fun b hb k hk => by
    have hne : b.val ≠ y.toNat / 8 := fun h => hb (Fin.ext (h.trans (bandOf_val hy).symm))
    rw [fbRead_writePixel, if_neg]
    simp only [bandIndex, mapIdx, Config.width]
    omega
  have hdr : drained (Machine.writePixel x y v s) = drained s := by
    rw [writePixel_rest]
    rfl
  refine ⟨hdr ▸ hs.noStrayBits, ?_, fun b hb k hk => ?_⟩
  · rw [hdr, writePixel_rest]
    exact hs.modes
  · obtain ⟨hclear, hne⟩ := hflag b hb
    rw [hdr, hbyte b hne k hk]
    exact hs.shown b hclear k hk

/-! ## The operations, every line action answered ok -/

theorem frameActions_le (p : Params) : frameActions p ≤ 4 := by
  unfold frameActions
  split <;> decide

/-- FLUSH in horizontal addressing shows every band it sends; the others were shown before, and still
are (rule R231). -/
theorem InSync.afterBands {s : State} (hs : InSync s) (he : s.params.enc.wf = true)
    (hc : s.ctrl = .basic) (hmode : s.cfg.addrmode = .horizontal) :
    InSync (afterBands (sentBands s) s) := by
  obtain ⟨hh, hp, hv⟩ := hs.modes.1 hc
  obtain ⟨m, a, htake, hsent, hother⟩ :=
    take_bands he hs.noStrayBits hh hp (hv.trans hmode) s.fb (sentBands s)
  have hdr : drained (Machine.afterBands (sentBands s) s) = { drained s with ddram := m, addr := a } :=
    (drained_of_sent (by rw [afterBands_rest]) (by rw [afterBands_rest])
      (by rw [afterBands_rest])).trans htake
  refine ⟨by rw [hdr]; exact hs.noStrayBits, ?_, fun b _ k hk => ?_⟩
  · rw [hdr, afterBands_rest]
    exact hs.modes
  · rw [hdr, show (Machine.afterBands (sentBands s) s).fb = s.fb by rw [afterBands_rest]]
    by_cases hb : b ∈ sentBands s
    · exact hsent b hb k hk
    · have hclear : isDirty s b = false := by
        have hall : ∀ c : Fin 6, c ∈ ([0, 1, 2, 3, 4, 5] : List (Fin 6)) := by decide
        have hw : wanted s b = false :=
          Bool.eq_false_iff.2 fun h => hb (List.mem_filter.2 ⟨hall b, h⟩)
        exact (Bool.or_eq_false_iff.1 hw).2
      exact (hother b hb k hk).trans (hs.shown b hclear k hk)

section

variable {s : State} (hs : InSync s) (he : s.params.enc.wf = true)
  (hk : (drained s).kind.ddram = true) (ha : answersOk 48 s.env)

include ha

/-- 48 answers are enough for twelve frames. -/
theorem answersOk_frames {n : Nat} (hn : n ≤ 12) : answersOk (n * frameActions s.params) s.env :=
  answersOk_mono (Nat.mul_le_mul hn (frameActions_le s.params)) ha

/-- RESET: the chip is reset, and every band is dirty (rules R32, R162). -/
theorem resetFlow_inSync (hr : s.params.resetDirty = true) : InSync (resetFlow s).state := by
  rw [resetFlow_ok (answersOk_mono (by decide : 2 ≤ 48) ha)]
  refine ⟨?_, ⟨nofun, nofun⟩, fun b hb => ?_⟩
  · refine congrArg Chip.held (drained_of_sent (s := s) (w := [.resetPulse]) ?_ ?_ ?_) <;> rfl
  · rw [Flow.state, isDirty_of_replicate rfl, hr] at hb
    cases hb

include hs he

/-- SETADDR moves the chip's address counter and nothing else of it (rule R223). -/
theorem setAddrFlow_inSync (band col : Byte) :
    InSync (guardState .basic s |>.step 1 (guardAddr band col)
      |>.step 2 (sendAddress (cursorOf band col))
      |>.step 3 (fun s => .go (s.setCur (cursorOf band col)))).state := by
  by_cases hc : s.ctrl = .basic
  · rw [guardState_pass hc, Flow.step_go, guardAddr]
    split
    · obtain ⟨hh, hp, hv⟩ := hs.modes.1 hc
      have hm : InMode (drained s) false false s.cfg.addrmode
          ((chipBytes false (addressBytes s.params.enc (cursorOf band col))).foldl
            (chipTake s.params.enc) (drained s)) := by
        rw [take_address he hs.noStrayBits hh]
        exact ⟨hs.noStrayBits, hp, hh, hv, rfl, rfl⟩
      rw [Flow.step_go, sendAddress, sendCommands,
        frame_ok (s := ((s.setUpc (some 0)).setUpc (some 1)).setUpc (some 2)) _ _
          (answersOk_mono ((frameActions_le _).trans (by decide)) ha)]
      exact hs.of_inMode hm (fun _ => rfl) (fun h => absurd (hc.symm.trans h) (by decide))
        rfl rfl rfl rfl rfl
    · exact { hs with }
  · rw [guardState_refuse hc]
    exact hs.setUpc _

/-- FLUSH (rules R226, R231). -/
theorem flushFlow_inSync (hmode : s.cfg.addrmode = .horizontal) :
    InSync ((guardState .basic s).andThen (flushBands [0, 1, 2, 3, 4, 5])).state := by
  by_cases hc : s.ctrl = .basic
  · have hlen : 2 * frameActions s.params * (sentBands s).length ≤ 48 :=
      Nat.mul_le_mul (Nat.mul_le_mul_left 2 (frameActions_le s.params)) (List.length_filter_le _ _)
    obtain ⟨u, hf⟩ := flushBands_ok (l := [0, 1, 2, 3, 4, 5]) (by decide) (s := s.setUpc (some 0))
      (answersOk_mono hlen ha)
    rw [guardState_pass hc, Flow.andThen_go, hf]
    exact ((hs.setUpc (some 0)).afterBands he hc hmode).setUpc u
  · rw [guardState_refuse hc]
    exact hs.setUpc _

include hk

/-- INIT ends in Basic with the chip in the basic instruction set (rules R105, R164). -/
theorem initFlow_inSync : InSync (initFlow s).state := by
  by_cases hc : s.ctrl = .inReset
  · obtain ⟨u, hf⟩ := initFlow_ok hc (answersOk_frames ha (by decide))
    have hm : InMode (drained s) false false s.cfg.addrmode
        ((chipBytes false (initBytes s)).foldl (chipTake s.params.enc) (drained s)) := by
      simp only [initBytes, chipBytes, fsByte, List.map_cons, List.map_nil, List.foldl_cons,
        List.foldl_nil]
      exact ((((((InMode.refl hs.noStrayBits).functionSet he hk _ _ _).setVop he _).setTc he _).setBias
        he _).functionSet he hk _ _ _).displayControl he _
    rw [hf]
    exact hs.of_inMode hm (fun _ => rfl) nofun rfl rfl rfl rfl rfl
  · rw [initFlow, guardState_refuse hc]
    exact hs.setUpc _

/-- A configuration operation whose value byte keeps the chip in the extended instruction set
(rules R105, R166 to R168). -/
theorem configFlow_inSync {b : Byte} {record : Cfg → Cfg}
    (hrec : ∀ c, (record c).addrmode = c.addrmode ∧ (record c).dispmode = c.dispmode)
    (hb : ∀ c a, InMode (drained s) false true a c →
      InMode (drained s) false true a (chipTake s.params.enc c (.byte false b))) :
    InSync (configFlow b record s).state := by
  by_cases hc : s.ctrl = .basic
  · obtain ⟨u, hf⟩ := configFlow_ok (b := b) hc hrec (answersOk_frames ha (by decide))
    have hm : InMode (drained s) false false s.cfg.addrmode
        ((chipBytes false (configBytes b s)).foldl (chipTake s.params.enc) (drained s)) := by
      simp only [configBytes, chipBytes, fsByte, List.map_cons, List.map_nil, List.foldl_cons,
        List.foldl_nil]
      exact ((hb _ _ ((InMode.refl hs.noStrayBits).functionSet he hk _ _ _)).functionSet he hk
        _ _ _).displayControl he _
    rw [hf]
    exact hs.of_inMode ((hrec s.cfg).1.symm ▸ hm) (fun _ => rfl) (fun h => by simp [hc, Flow.state] at h)
      rfl rfl rfl rfl rfl
  · rw [configFlow, guardState_refuse hc]
    exact hs.setUpc _

/-- Power control: one FUNCTION_SET in the basic instruction set (rules R170, R171). -/
theorem powerFlow_inSync (want next : CtrlState) {pd : Bool} (hbasic : next = .basic → pd = false)
    (hdown : next = .poweredDown → pd = true) :
    InSync (guardState want s |>.step 1 (fun s => sendCommand (fsByte s pd false) s)
      |>.step 2 (fun s => .go (s.setCtrl next))).state := by
  by_cases hc : s.ctrl = want
  · have hm := (InMode.refl hs.noStrayBits).functionSet he hk pd s.cfg.addrmode false
    rw [guardState_pass hc, Flow.step_go, sendCommand,
      frame_ok (s := (s.setUpc (some 0)).setUpc (some 1)) _ _
        (answersOk_mono ((frameActions_le _).trans (by decide)) ha)]
    exact hs.of_inMode (w := [_]) hm hbasic hdown rfl rfl rfl rfl rfl
  · rw [guardState_refuse hc]
    exact hs.setUpc _

end

/-- The pixel operations: a refused one changes nothing (rules R182, R183). -/
theorem pixelFlow_inSync {s : State} (hs : InSync s) (x y : Byte) (v : Bool) :
    InSync (pixelFlow x y v s).state := by
  by_cases h : x.toNat < 84 ∧ y.toNat < 48
  · rw [pixelFlow_pass h.1 h.2]
    exact (hs.setUpc _).writePixel h.1 h.2 v
  · rw [pixelFlow_refuse (by omega)]
    exact hs.setUpc _

/-- WRCHAR: a newline draws nothing, and a glyph is pixels in range (rule R206). -/
theorem wrCharFlow_inSync {s : State} (hs : InSync s) (c : Byte) :
    InSync ((Flow.go s).step 0 (fun s => if c = Config.newlineCode then
      .go (s.setText (newline s.text)) else drawCharacter c s)).state := by
  rw [Flow.step_go]
  split
  · exact (hs.setUpc _).setText _
  · simp only [drawCharacter, Flow.compute, Flow.step_go]
    have hs' := ((hs.setUpc (some 0)).setUpc (some 1)).setUpc (some 2)
    have hd := drawGlyph_induction (P := InSync) (fun _ _ _ v hx hy ht => ht.writePixel hx hy v)
      (glyphOf s.params c) hs'
    exact (hd.setUpc _).setText _

/-- DRAWPIXEL: a point out of range is dropped (rule R217). -/
theorem drawPixelFlow_inSync {s : State} (hs : InSync s) (x y : Byte) (v : Bool) :
    InSync ((Flow.go s).step 0 (fun s => if inRange x y then
      (Flow.go s).step 1 (fun s => .go (writePixel x y v s)) else .go s)).state := by
  rw [Flow.step_go]
  split
  · next h =>
    obtain ⟨hx, hy⟩ := (inRange_iff x y).1 h
    exact ((hs.setUpc (some 0)).setUpc (some 1)).writePixel hx hy v
  · exact hs.setUpc _

/-- CLEAR: every band is dirty, and the chip is not touched (rule R185). -/
theorem clear_inSync {s : State} (hs : InSync s) : InSync (setAllDirty (s.setFb []) true) := by
  refine ⟨hs.noStrayBits, hs.modes, fun b hb => ?_⟩
  rw [isDirty_of_replicate rfl] at hb
  cases hb

/-- Every operation whose line actions are answered ok keeps block and chip in step. -/
theorem exec_inSync {i : Instr} (hi : i.isOperation = true) {s t : State} (hs : InSync s)
    (hmode : s.cfg.addrmode = .horizontal) (hr : s.params.resetDirty = true)
    (he : s.params.enc.wf = true) (hk : (drained s).kind.ddram = true) (ha : answersOk 48 s.env)
    (h : exec i s = .next t) : InSync t := by
  cases i with
  | reset => exact (resetFlow_inSync ha hr).finish h
  | init => exact (initFlow_inSync hs he hk ha).finish h
  | setContrast a =>
    refine (configFlow_inSync hs he hk ha ?_ ?_).finish h
    · exact fun _ => ⟨rfl, rfl⟩
    · exact fun _ _ hc => hc.setVop he _
  | setBias a =>
    refine (configFlow_inSync hs he hk ha ?_ ?_).finish h
    · exact fun _ => ⟨rfl, rfl⟩
    · exact fun _ _ hc => hc.setBias he _
  | setTc a =>
    refine (configFlow_inSync hs he hk ha ?_ ?_).finish h
    · exact fun _ => ⟨rfl, rfl⟩
    · exact fun _ _ hc => hc.setTc he _
  | pwrDown => exact (powerFlow_inSync hs he hk ha .basic .poweredDown nofun fun _ => rfl).finish h
  | pwrUp => exact (powerFlow_inSync hs he hk ha .poweredDown .basic (fun _ => rfl) nofun).finish h
  | setPixel x y v => exact (pixelFlow_inSync hs x y v).finish h
  | clrPixel x y => exact (pixelFlow_inSync hs x y false).finish h
  | getPixel x y =>
    have hg : InSync ((guardRange x y s).compute 1 |>.compute 2).state := by
      unfold guardRange
      rw [Flow.step_go]
      split <;> exact { hs with }
    exact hg.finish h
  | clear => exact InSync.finish (f := .go _) (clear_inSync ((hs.setUpc (some 1)).setUpc (some 2))) h
  | setAddr band col => exact (setAddrFlow_inSync hs he ha band col).finish h
  | flush => exact (flushFlow_inSync hs he ha hmode).finish h
  | wrChar c => exact (wrCharFlow_inSync hs c).finish h
  | geometry => exact InSync.finish (f := .go s) hs h
  | drawPixel x y v => exact (drawPixelFlow_inSync hs x y v).finish h
  | cmdFunctionSet | cmdDisplayControl | cmdSetY | cmdSetX | cmdSetTc | cmdSetBias | cmdSetVop
  | data => cases hi

/-- Settles O53, along what a step does: an input taken was on the wire before, so the chip comes to
the same; an operation answered ok keeps block and chip in step. -/
theorem shadowKeptWithoutFailures : Obligations.ShadowKeptWithoutFailures := by
  intro s t hs hmode hr he hk ha h
  obtain ⟨e, rest, hw, rfl⟩ | rfl | ⟨w, rest, i, hw, hi, h⟩ := step_cases h
  · have hdr : drained ((s.setWire rest).setChip (chipTake s.params.enc s.chip e)) = drained s := by
      simp [drained, hw]
    exact ⟨hdr ▸ hs.noStrayBits, hdr ▸ hs.modes, hdr ▸ hs.shown⟩
  · exact hs
  · have hs' : InSync ((s.setHostq rest).setOpw w) := { hs with }
    have hd : drained ((s.setHostq rest).setOpw w) = s.chip := by simp [drained, hw]
    exact exec_inSync hi hs' hmode hr he (hd ▸ hk) ha h

/-- Settles O52: after power-on every band is dirty, STATE promises nothing, and the shift register is
empty. -/
theorem shadowAtReset : Obligations.ShadowAtReset := by
  have h : ∀ (p : Params) (c : Cfg), InSync (State.initial p c) := fun p c =>
    ⟨rfl, ⟨nofun, nofun⟩, fun b hb => by rw [isDirty_of_replicate rfl] at hb; cases hb⟩
  exact ⟨h, h _ _⟩

end Sys2Proof.Machine
end

section
/-! PROOFS. The framebuffer and DDRAM: the pixel-to-byte map, the pixel operations, the bytes the
chip takes, and FLUSH (rules R62, R63, R79 to R85, R182, R183, R231). -/

namespace Sys2Proof.Machine

/-! ## The pixel-to-byte map (rules R62, R63) -/

/-- unmap undoes map. -/
theorem unmapPixel_mapPixel {x : Byte} (hx : x.toNat < 84) (y : Byte) :
    unmapPixel (mapIdx x y) (mapBit y) = (x.toNat, y.toNat) := by
  simp only [unmapPixel, mapIdx, mapBit, Config.width, Prod.mk.injEq]
  omega

/-- map undoes unmap. -/
theorem mapPixel_unmapPixel {idx bit : Nat} (hb : bit < 8) {x y : Byte}
    (hxy : (x.toNat, y.toNat) = unmapPixel idx bit) : mapPixel x y = (idx, bit) := by
  obtain ⟨hx, hy⟩ := Prod.mk.inj hxy
  simp only [mapPixel, mapIdx, mapBit, hx, hy, Config.width, Prod.mk.injEq]
  omega

/-- Settles O9: map and unmap undo each other, so map reaches every pair and no pair twice. -/
theorem mapperIsBijection : Obligations.MapperIsBijection := by
  refine ⟨fun _ _ => rfl, fun x y hx hy => ⟨mapIdx_lt hx hy, Nat.mod_lt _ (by decide),
    unmapPixel_mapPixel hx y⟩, fun x y x' y' hx _ hx' _ h => ?_, fun idx bit hi hb => ?_⟩
  · obtain ⟨hidx, hbit⟩ := Prod.mk.inj h
    exact mapPixel_injective hx' hx hidx hbit
  · have hx : (BitVec.ofNat 8 (idx % 84)).toNat = idx % 84 := Nat.mod_eq_of_lt (by omega)
    have hy : (BitVec.ofNat 8 (idx / 84 * 8 + bit)).toNat = idx / 84 * 8 + bit :=
      Nat.mod_eq_of_lt (by omega)
    exact ⟨BitVec.ofNat 8 (idx % 84), BitVec.ofNat 8 (idx / 84 * 8 + bit), by omega, by omega,
      mapPixel_unmapPixel hb (Prod.ext hx hy)⟩

/-! ## The pixel operations (rules R182, R183) -/

/-- SETPIXEL in range writes its pixel and completes with Ok. -/
theorem exec_setPixel_pass {x y : Byte} (hx : x.toNat < 84) (hy : y.toNat < 48) (v : Bool)
    (s : State) : exec (.setPixel x y v) s = .next (returnOk 0 (writePixel x y v s)) := by
  have h : exec (.setPixel x y v) s = .next (finish 0 (pixelFlow x y v s)) := rfl
  rw [h, pixelFlow_pass hx hy, writePixel_setUpc]
  rfl

/-- SETPIXEL out of range writes nothing. -/
theorem exec_setPixel_refuse {x y : Byte} (h : 84 ≤ x.toNat ∨ 48 ≤ y.toNat) (v : Bool)
    (s : State) : exec (.setPixel x y v) s = .next (raiseError .outOfBounds s) := by
  have he : exec (.setPixel x y v) s = .next (finish 0 (pixelFlow x y v s)) := rfl
  rw [he, pixelFlow_refuse h]
  rfl

/-- CLRPIXEL is SETPIXEL with off (rule R183). -/
theorem exec_clrPixel (x y : Byte) (s : State) :
    exec (.clrPixel x y) s = exec (.setPixel x y false) s := rfl

/-- Settles O11: what `writePixel` does to bytes, pixels and flags; the completion adds RSLT. -/
theorem setPixelWritesOnePixel : Obligations.SetPixelWritesOnePixel := by
  refine fun s x y v => ⟨fun hx hy => ⟨_, exec_setPixel_pass hx hy v s,
    fun x' y' hx' _ => pixelAt_writePixel hx hx' v s, fun k hk => ?_, fun b hb => ?_,
    fun hg b hb => ?_, rfl, ?_⟩, fun h => exec_setPixel_refuse h v s⟩
  · exact (fbRead_writePixel x y v s k).trans (if_neg hk)
  · obtain rfl : b = bandOf y := Fin.ext (hb.trans (bandOf_val hy).symm)
    exact isDirty_writePixel_self x y v s
  · exact isDirty_writePixel_other hg x v fun h => hb (h ▸ bandOf_val hy)
  · rw [writePixel_rest]
    rfl

/-- Settles O12: it is O11 with off. -/
theorem clrPixelClearsOnePixel : Obligations.ClrPixelClearsOnePixel := by
  intro s x y
  rw [exec_clrPixel]
  exact setPixelWritesOnePixel s x y false

/-! ## FLUSH and the chip's DDRAM (rule R231) -/

/-- FLUSH with every line action answered ok has sent the bands it wanted and completes with Ok
(rule R226). -/
theorem exec_flush_ok {s : State} (hc : s.ctrl = .basic)
    (ha : answersOk (2 * frameActions s.params * (sentBands s).length) s.env) :
    exec .flush s = .next (returnOk 0 (afterBands (sentBands s) s)) := by
  have h : exec .flush s =
      .next (finish 0 ((guardState .basic s).andThen (flushBands [0, 1, 2, 3, 4, 5]))) := rfl
  have hu := afterBands_setUpc (sentBands s) s (some 0) none
  obtain ⟨u, hf⟩ := flushBands_ok (l := [0, 1, 2, 3, 4, 5]) (by decide) (s := s.setUpc (some 0)) ha
  rw [h, guardState_pass hc, Flow.andThen_go, hf]
  exact congrArg (fun t : State => Host.Outcome.next (t.setRslt (resultWord 0 statusOk))) hu

/-- What the chip comes to once it has taken the bands sent after all that stood on the wire. -/
theorem drained_afterBands (l : List (Fin 6)) (s : State) : drained (afterBands l s) =
    (l.flatMap fun b => chipBytes false (addressBytes s.params.enc { col := 0, band := b }) ++
      chipBytes true (bandBytes s.fb b)).foldl (chipTake s.params.enc) (drained s) :=
  drained_of_sent (by rw [afterBands_rest]) (by rw [afterBands_rest]) (by rw [afterBands_rest])

/-- Settles O39: the chip runs through what FLUSH has put on the wire (`run_wire`), which is the bytes
of the bands sent, and each of them fills its row (`take_bands`). -/
theorem flushMakesDdramEqual : Obligations.FlushMakesDdramEqual := by
  intro s hc hw _ he hheld hh hp hv ha
  obtain ⟨m, a, htake, hsent, hother⟩ := take_bands he hheld hh hp hv s.fb (sentBands s)
  have hs : drained s = s.chip := by rw [drained, hw, List.foldl_nil]
  have hdr : drained (returnOk 0 (afterBands (sentBands s) s)) =
      { s.chip with ddram := m, addr := a } :=
    (drained_afterBands (sentBands s) s).trans (hs ▸ htake)
  refine ⟨_, _, exec_flush_ok hc ha, run_wire _, ?_, rfl, rfl, ?_, ?_⟩
  · rw [afterBands_rest]
    rfl
  · intro b hb k hk
    rw [State.setChip_chip, hdr]
    exact hsent b hb k hk
  · intro b hb k hk
    rw [State.setChip_chip, hdr]
    exact hother b hb k hk

/-! ## A byte the chip takes (rules R79, R84, R148) -/

/-- With eight bits or more in the shift register the first eight make a byte, the others wait. -/
theorem chipShift_full {c : Chip} {bits : List Bool} (h : 8 ≤ (c.held ++ bits).length) :
    chipShift bits c =
      (some (byteOf ((c.held ++ bits).take 8)), { c with held := (c.held ++ bits).drop 8 }) :=
  if_pos h

section

variable {en : Enc} {dc : Bool} {bits : List Bool} {c d : Chip} {b : Byte}

/-- A byte that is an instruction is executed. -/
theorem chipTakeBits_ok {i : Instr} (hs : chipShift bits (chipSettle c) = (some b, d))
    (hd : decodeChip en dc d.h b = .ok i) : chipTakeBits en dc bits c = chipEffect i d := by
  simp only [chipTakeBits, hs, hd]

/-- A byte that is no command is ignored (log 10). -/
theorem chipTakeBits_error {err : DecodeError} (hs : chipShift bits (chipSettle c) = (some b, d))
    (hd : decodeChip en dc d.h b = .error err) : chipTakeBits en dc bits c = d := by
  simp only [chipTakeBits, hs, hd]

end

/-- The bits that make a byte with stray ones before them or lost (log 8). -/
theorem chipShift_stray {c : Chip} (hh : c.held ≠ []) {bits : List Bool}
    (hl : 8 ≤ (bitsStanding c bits).length) :
    chipShift bits (chipSettle c) = (some (byteOf ((bitsStanding c bits).take 8)),
      { c with held := (bitsStanding c bits).drop 8, draws := c.draws + 1 }) := by
  have hb := chipSettle_bits hh bits
  rw [chipShift_full (hb ▸ hl), hb, chipSettle, if_neg hh]

/-- Settles O5: a step has the chip take its oldest input (`step_wire`), and what it takes is the byte
the bits make. -/
theorem stepRunsByteTheChipTakes : Obligations.StepRunsByteTheChipTakes := by
  refine ⟨fun s dc b rest i hw hh hd => ?_, fun s e dc bits rest hw he hh hl => ?_⟩
  · rw [step_wire hw, chipTake_byte hh, hd, exec_chip (decodeChip_chip hd)]
    rfl
  · have hs := chipShift_stray hh hl
    have hbits : bitsOf (byteOf ((bitsStanding s.chip bits).take 8)) =
        (bitsStanding s.chip bits).take 8 := bitsOf_byteOf (List.length_take_of_le hl)
    refine ⟨_, (bitsStanding s.chip bits).drop 8, hbits.symm ▸ List.take_append_drop 8 _,
      fun i hd => ?_, fun err hd => ?_⟩
    · rw [step_wire hw, chipTake_bits he, chipTakeBits_ok hs hd, exec_chip (decodeChip_chip hd)]
      rfl
    · rw [step_wire hw, chipTake_bits he, chipTakeBits_error hs hd]
      rfl

/-- Settles O46: a data byte is `chipData`, which a powered-down chip ignores. -/
theorem dataByteWritesDdramAndAdvances : Obligations.DataByteWritesDdramAndAdvances := by
  intro s d
  have hexec : exec (.data d) s = .next (s.setChip (chipData d s.chip)) := rfl
  refine ⟨fun hp => ⟨_, hexec, ?_⟩, fun hp => ?_⟩
  · have hdata : chipData d s.chip = { s.chip with
        ddram := ddramWrite s.chip.ddram (bandIndex s.chip.addr.band s.chip.addr.col.val) d
        addr := advance s.chip.v s.chip.addr } := if_neg (by simp [hp])
    rw [hdata]
    exact ⟨fun a => ddramRead_ddramWrite _ _ a d, rfl, rfl⟩
  · rw [hexec, show chipData d s.chip = s.chip from if_pos hp]
    rfl

end Sys2Proof.Machine
end

section
/-! PROOFS. The chip cannot influence the block (rule R85): whatever it holds, an operation goes the
same way, and leaves the chip as it is. -/

namespace Sys2Proof.Machine

/-! ## Blind to the chip -/

/-- A flow with another chip in the state it has reached. -/
def Flow.setChip (f : Flow) (c : Chip) : Flow :=
  match f with
  | .go s => .go (s.setChip c)
  | .raised e s => .raised e (s.setChip c)

/-- An update of the state that neither reads nor writes the chip. -/
def BlindUpdate (u : State → State) : Prop := ∀ s c, u (s.setChip c) = (u s).setChip c

/-- A part of an operation that neither reads nor writes the chip. -/
def BlindFlow (f : State → Flow) : Prop := ∀ s c, f (s.setChip c) = (f s).setChip c

/-- A line action that neither reads nor writes the chip. -/
def BlindAction (r : State → Bool × State) : Prop :=
  ∀ s c, r (s.setChip c) = ((r s).1, (r s).2.setChip c)

/-- A branch on a condition that does not read the chip. -/
theorem BlindUpdate.ite {u v : State → State} {p : State → Prop} [DecidablePred p]
    (hp : ∀ s c, p (s.setChip c) ↔ p s) (hu : BlindUpdate u) (hv : BlindUpdate v) :
    BlindUpdate fun s => if p s then u s else v s := by
  intro s c
  by_cases h : p s
  · simpa only [if_pos h, if_pos ((hp s c).2 h)] using hu s c
  · simpa only [if_neg h, if_neg (mt (hp s c).1 h)] using hv s c

namespace BlindFlow

variable {f g : State → Flow} {u : State → State}

theorem go (hu : BlindUpdate u) : BlindFlow fun s => .go (u s) :=
  fun s c => congrArg Flow.go (hu s c)

theorem andThen (hf : BlindFlow f) (hg : BlindFlow g) : BlindFlow fun s => (f s).andThen g := by
  intro s c
  dsimp only
  rw [hf]
  cases f s with
  | go t => exact hg t c
  | raised e t => rfl

theorem step (hf : BlindFlow f) (n : Nat) (hg : BlindFlow g) : BlindFlow fun s => (f s).step n g :=
  hf.andThen fun s c => hg (s.setUpc (some n)) c

theorem update (hf : BlindFlow f) (hu : BlindUpdate u) : BlindFlow fun s => (f s).update u := by
  intro s c
  dsimp only
  rw [hf]
  cases f s with
  | go t => exact congrArg Flow.go (hu t c)
  | raised e t => rfl

/-- A branch on a condition that does not read the chip. -/
theorem ite {p : State → Prop} [DecidablePred p] (hp : ∀ s c, p (s.setChip c) ↔ p s)
    (hf : BlindFlow f) (hg : BlindFlow g) : BlindFlow fun s => if p s then f s else g s := by
  intro s c
  by_cases h : p s
  · simpa only [if_pos h, if_pos ((hp s c).2 h)] using hf s c
  · simpa only [if_neg h, if_neg (mt (hp s c).1 h)] using hg s c

/-- A part of an operation whose argument is read from the state, but not from the chip. -/
theorem arg {α : Type} {f : α → State → Flow} {a : State → α} (ha : ∀ s c, a (s.setChip c) = a s)
    (hf : ∀ x, BlindFlow (f x)) : BlindFlow fun s => f (a s) s := fun s c =>
  (congrArg (f · (s.setChip c)) (ha s c)).trans (hf (a s) s c)

theorem refl : BlindFlow .go := fun _ _ => rfl

theorem raised (e : ErrorCode) : BlindFlow (.raised e) := fun _ _ => rfl

end BlindFlow

/-! ## Line actions and the frame -/

theorem pinSet_blind (p : Pin) (l : Bool) : BlindAction (pinSet p l) := by
  intro s c
  simp only [pinSet, drawAnswer, State.setChip_env]
  rcases nextAnswer s.env with ⟨_ | _, e⟩
  · cases p <;> rfl
  · cases p <;> cases l <;> rfl

theorem driveCs_blind (l : Bool) : BlindAction (driveCs l) := by
  intro s c
  cases h : s.params.hasCsPin with
  | true => simpa only [driveCs, State.setChip_params, h, if_true] using pinSet_blind .cs l s c
  | false => simp only [driveCs, State.setChip_params, h, Bool.false_eq_true, if_false]

theorem deliver_blind (x : List (Bool × Byte)) : BlindUpdate (deliver x) :=
  .ite (fun _ _ => Iff.rfl) (fun _ _ => rfl) fun _ _ => rfl

theorem deliverPart_blind (n : Nat) (k : Fin 8) (x : List (Bool × Byte)) :
    BlindUpdate (deliverPart n k x) :=
  .ite (fun _ _ => Iff.rfl) (fun _ _ => rfl) fun _ _ => rfl

theorem busXfer_blind : BlindAction busXfer := by
  intro s c
  simp only [busXfer, drawAnswer, State.setChip_env]
  rcases nextAnswer s.env with ⟨_ | _, e⟩
  · exact congrArg (fun t => (false, countChipDraw (t.log (.txFail s.lines.dcl (s.txb.map (·.2))))))
      (deliverPart_blind (Config.bytesDelivered e.chipDrawn % (s.txb.length + 1))
        (Config.bitsDelivered e.chipDrawn) s.txb (s.setEnv e) c)
  · exact congrArg (fun t => (true, t.log (.tx s.lines.dcl (s.txb.map (·.2)))))
      (deliver_blind s.txb (s.setEnv e) c)

theorem orBusError_blind {r : State → Bool × State} (hr : BlindAction r) :
    BlindFlow fun s => orBusError (r s) := by
  intro s c
  dsimp only
  rw [hr, orBusError, orBusError]
  split <;> rfl

theorem frame_blind (dc : Bool) (bytes : List Byte) : BlindFlow (frame dc bytes) := by
  have hfirst : BlindFlow fun s =>
      orBusError (driveCs s.params.csActive (s.setTxb (bytes.map fun b => (dc, b)))) :=
    orBusError_blind fun s c =>
      driveCs_blind s.params.csActive (s.setTxb (bytes.map fun b => (dc, b))) c
  exact ((hfirst.andThen (orBusError_blind (pinSet_blind .dc dc))).andThen
    ((orBusError_blind busXfer_blind).update fun _ _ => rfl)).andThen
      (orBusError_blind fun s c => driveCs_blind (!s.params.csActive) s c)

/-- A command byte read from the state, but not from the chip. -/
theorem sendCommand_blind {b : State → Byte} (hb : ∀ s c, b (s.setChip c) = b s) :
    BlindFlow fun s => sendCommand (b s) s :=
  .arg hb fun x => frame_blind false [x]

theorem sendAddress_blind (a : Cursor) : BlindFlow (sendAddress a) :=
  .arg (a := fun s => addressBytes s.params.enc a) (fun _ _ => rfl) (frame_blind false)

/-! ## The parts of the operations -/

theorem guardState_blind (want : CtrlState) : BlindFlow (guardState want) :=
  BlindFlow.refl.step 0 (.ite (fun _ _ => Iff.rfl) .refl (.raised _))

theorem guardRange_blind (x y : Byte) : BlindFlow (guardRange x y) :=
  BlindFlow.refl.step 0 (.ite (fun _ _ => Iff.rfl) .refl (.raised _))

theorem guardAddr_blind (band col : Byte) : BlindFlow (guardAddr band col) :=
  .ite (fun _ _ => Iff.rfl) .refl (.raised _)

theorem markDirty_blind (b : Fin 6) : BlindUpdate (markDirty · b) := by
  intro s c
  simp only [markDirty, State.setChip_params]
  split <;> rfl

theorem clearDirty_blind (b : Fin 6) : BlindUpdate (clearDirty · b) := by
  intro s c
  simp only [clearDirty, State.setChip_params]
  split
  · rfl
  · split <;> rfl

theorem writePixel_blind (x y : Byte) (v : Bool) : BlindUpdate (writePixel x y v) :=
  fun s c => markDirty_blind (bandOf y) (drawBit x y v s) c

theorem drawColumn_blind (g : Byte) (k : Nat) : BlindUpdate (drawColumn g k) := fun _ c =>
  List.foldl_hom (State.setChip · c) fun t n =>
    writePixel_blind (cellX t.text k) (cellY t.text n) (g.getLsbD n) t c

theorem drawGlyph_blind (g : Config.Glyph) : BlindUpdate (drawGlyph g) := fun _ c =>
  List.foldl_hom (State.setChip · c) fun t k => drawColumn_blind g[k] k.val t c

theorem driveReset_blind (l : Bool) : BlindFlow (driveReset l) := by
  intro s c
  unfold driveReset
  rw [pinSet_blind]
  rcases pinSet .res l s with ⟨_ | _, t⟩ <;> rfl

theorem waitAfterReset_blind : BlindUpdate waitAfterReset :=
  .ite (fun _ _ => Iff.rfl) (fun _ _ => rfl) fun _ _ => rfl

theorem resetFlow_blind : BlindFlow resetFlow :=
  ((((BlindFlow.refl.step 1 (driveReset_blind false)).step 2 fun _ _ => rfl).step 3
    ((driveReset_blind true).update waitAfterReset_blind)).step 4 fun _ _ => rfl).step 5
      fun _ _ => rfl

theorem initFlow_blind : BlindFlow initFlow :=
  (((((((guardState_blind .inReset).step 1
    ((sendCommand_blind fun _ _ => rfl).update fun _ _ => rfl)).step 2
      (sendCommand_blind fun _ _ => rfl)).step 3 (sendCommand_blind fun _ _ => rfl)).step 4
        (sendCommand_blind fun _ _ => rfl)).step 5 (sendCommand_blind fun _ _ => rfl)).step 6
          (sendCommand_blind fun _ _ => rfl)).step 7 fun _ _ => rfl

theorem configFlow_blind (b : Byte) (record : Cfg → Cfg) : BlindFlow (configFlow b record) :=
  (((((guardState_blind .basic).step 1
    ((sendCommand_blind fun _ _ => rfl).update fun _ _ => rfl)).step 2
      ((sendCommand_blind fun _ _ => rfl).update fun _ _ => rfl)).step 3
        (sendCommand_blind fun _ _ => rfl)).step 4 (sendCommand_blind fun _ _ => rfl)).step 5
          fun _ _ => rfl

theorem powerFlow_blind (want next : CtrlState) (pd : Bool) :
    BlindFlow fun s => guardState want s |>.step 1 (fun s => sendCommand (fsByte s pd false) s)
      |>.step 2 (fun s => .go (s.setCtrl next)) :=
  ((guardState_blind want).step 1 (sendCommand_blind fun _ _ => rfl)).step 2 fun _ _ => rfl

theorem setAddrFlow_blind (band col : Byte) :
    BlindFlow fun s => guardState .basic s |>.step 1 (guardAddr band col)
      |>.step 2 (sendAddress (cursorOf band col))
      |>.step 3 (fun s => .go (s.setCur (cursorOf band col))) :=
  (((guardState_blind .basic).step 1 (guardAddr_blind band col)).step 2
    (sendAddress_blind _)).step 3 fun _ _ => rfl

theorem sendBand_blind (b : Fin 6) : BlindFlow (sendBand b) :=
  ((BlindFlow.refl.step 2 ((sendAddress_blind _).update fun _ _ => rfl)).step 3
    ((BlindFlow.arg (a := fun s => bandBytes s.fb b) (fun _ _ => rfl) (frame_blind true)).update
      fun _ _ => rfl)).step 4 (.go (clearDirty_blind b))

theorem flushBands_blind (l : List (Fin 6)) : BlindFlow (flushBands l) := by
  induction l with
  | nil => exact .refl
  | cons b l ih =>
    have hband : BlindFlow (flushBand b) :=
      BlindFlow.refl.step 1 (.ite (fun _ _ => Iff.rfl) (sendBand_blind b) .refl)
    exact hband.andThen ih

theorem pixelFlow_blind (x y : Byte) (v : Bool) : BlindFlow (pixelFlow x y v) :=
  (((guardRange_blind x y).step 1 .refl).step 2 fun _ _ => rfl).step 3
    (.go (markDirty_blind (bandOf y)))

theorem drawCharacter_blind (g : Byte) : BlindFlow (drawCharacter g) :=
  ((BlindFlow.refl.step 1 .refl).step 2
    (.go fun s c => drawGlyph_blind (glyphOf s.params g) s c)).step 3 fun _ _ => rfl

/-! ## The operations -/

/-- A completion neither reads nor writes the chip. -/
theorem BlindFlow.completes {f : State → Flow} (hf : BlindFlow f) (v : BitVec 16) (s : State) (c : Chip) :
    ∃ t : State, (.next (finish v (f s)) : Host.Outcome State Fault Refusal) = .next t ∧
      (.next (finish v (f (s.setChip c))) : Host.Outcome State Fault Refusal) =
        .next (t.setChip c) := by
  refine ⟨_, rfl, ?_⟩
  rw [hf]
  cases f s <;> rfl

/-- An operation ends the same whatever the chip holds, which it leaves as it is. -/
theorem exec_blind {i : Instr} (hi : i.isOperation = true) (s : State) (c : Chip) :
    ∃ t : State, exec i s = .next t ∧ exec i (s.setChip c) = .next (t.setChip c) := by
  cases i with
  | reset => exact resetFlow_blind.completes 0 s c
  | init => exact initFlow_blind.completes 0 s c
  | setContrast a => exact (BlindFlow.arg (a := fun s => byteVOP s.params.enc (contrastOf a))
      (fun _ _ => rfl) fun b => configFlow_blind b _).completes 0 s c
  | setBias a => exact (BlindFlow.arg (a := fun s => byteBIAS s.params.enc (biasOf a))
      (fun _ _ => rfl) fun b => configFlow_blind b _).completes 0 s c
  | setTc a => exact (BlindFlow.arg (a := fun s => byteTC s.params.enc (tcOf a))
      (fun _ _ => rfl) fun b => configFlow_blind b _).completes 0 s c
  | pwrDown => exact (powerFlow_blind .basic .poweredDown true).completes 0 s c
  | pwrUp => exact (powerFlow_blind .poweredDown .basic false).completes 0 s c
  | setPixel x y v => exact (pixelFlow_blind x y v).completes 0 s c
  | clrPixel x y => exact (pixelFlow_blind x y false).completes 0 s c
  | getPixel x y =>
    exact (((guardRange_blind x y).step 1 .refl).step 2 .refl).completes
      (pixelVal (pixelAt s.fb x y)) s c
  | clear => exact ((BlindFlow.refl.step 1 fun _ _ => rfl).step 2 fun _ _ => rfl).completes 0 s c
  | setAddr band col => exact (setAddrFlow_blind band col).completes 0 s c
  | flush => exact ((guardState_blind .basic).andThen (flushBands_blind _)).completes 0 s c
  | wrChar g =>
    exact (BlindFlow.refl.step 0 (.ite (fun _ _ => Iff.rfl) (fun _ _ => rfl)
      (drawCharacter_blind g))).completes 0 s c
  | geometry => exact BlindFlow.refl.completes geometryVal s c
  | drawPixel x y v =>
    exact (BlindFlow.refl.step 0 (.ite (fun _ _ => Iff.rfl)
      (BlindFlow.refl.step 1 (.go (writePixel_blind x y v))) .refl)).completes 0 s c
  | cmdFunctionSet | cmdDisplayControl | cmdSetY | cmdSetX | cmdSetTc | cmdSetBias | cmdSetVop
  | data => cases hi

/-- Settles O47: every operation is blind to the chip (`exec_blind`), and a chip instruction is its
effect on the chip (`exec_chip`). -/
theorem chipNeverInfluencesBlock : Obligations.ChipNeverInfluencesBlock :=
  ⟨fun _ s c hi => exec_blind hi s c, fun _ s hi => ⟨_, exec_chip hi s⟩⟩

end Sys2Proof.Machine
end

section
/-! PROOFS. The code of the port and of the chip: decoding and encoding are inverse to each other
(rules R91 to R97, R104, R105, R107). -/

namespace Sys2Proof.Machine

open Laws

/-! ## The round trip of every instruction -/

/-- Settles O1: the law of the encoding of each instruction. -/
theorem decodeOfEncodedInstruction : Obligations.DecodeOfEncodedInstruction := by
  intro i
  cases i with
  | reset => exact Encoding.reset
  | init => exact Encoding.init
  | setContrast a => exact Encoding.setContrast a
  | setBias a => exact Encoding.setBias a
  | setTc a => exact Encoding.setTc a
  | pwrDown => exact Encoding.pwrDown
  | pwrUp => exact Encoding.pwrUp
  | setPixel x y v => exact Encoding.setPixel x y v
  | clrPixel x y => exact Encoding.clrPixel x y
  | getPixel x y => exact Encoding.getPixel x y
  | clear => exact Encoding.clear
  | setAddr band col => exact Encoding.setAddr band col
  | flush => exact Encoding.flush
  | wrChar c => exact Encoding.wrChar c
  | geometry => exact Encoding.geometry
  | drawPixel x y v => exact Encoding.drawPixel x y v
  | cmdFunctionSet pd v h => exact Encoding.cmdFunctionSet pd v h
  | cmdDisplayControl d e => exact Encoding.cmdDisplayControl d e
  | cmdSetY y => exact Encoding.cmdSetY y
  | cmdSetX x => exact Encoding.cmdSetX x
  | cmdSetTc t => exact Encoding.cmdSetTc t
  | cmdSetBias b => exact Encoding.cmdSetBias b
  | cmdSetVop v => exact Encoding.cmdSetVop v
  | data d => exact Encoding.data d

/-! ## The words of the operations -/

/-- A word with the opcode o is assembled from o and its other three fields (rule R91). -/
theorem opWord_of_opcode {w : Word} {o : Nat} (ho : (opcOf w).toNat = o) :
    opWord (BitVec.ofNat 8 o) (aOf w) (bOf w) (cOf w) = w := by
  rw [← ho, BitVec.ofNat_toNat, BitVec.setWidth_eq, opWord_fields]

/-- A byte whose bits 7 to 1 are zero is its bit 0. -/
theorem bitByte_of_high {c : Byte} (h : c.extractLsb' 1 7 = 0#7) : bitByte (c.getLsbD 0) = c := by
  revert c
  decide

/-! Each form accepts a word only if its unused fields are zero, so the word is the assembled one
(rules R93, R95). -/

section

variable {w : Word} {o : Nat} (ho : (opcOf w).toNat = o) {j : Instr}
include ho

theorem formZ_word {i : Instr} (h : formZ w i = .ok j) :
    i = j ∧ opWord (BitVec.ofNat 8 o) 0#8 0#8 0#8 = w := by
  obtain ⟨hz, hi⟩ := ifZero_eq_ok.1 h
  simp only [Bool.and_eq_true, beq_iff_eq] at hz
  obtain ⟨⟨ha, hb⟩, hc⟩ := hz
  have hw := opWord_of_opcode ho
  rw [ha, hb, hc] at hw
  exact ⟨hi, hw⟩

theorem formV_word {f : Byte → Instr} (h : formV w f = .ok j) :
    ∃ a, f a = j ∧ opWord (BitVec.ofNat 8 o) a 0#8 0#8 = w := by
  obtain ⟨hz, hi⟩ := ifZero_eq_ok.1 h
  simp only [Bool.and_eq_true, beq_iff_eq] at hz
  obtain ⟨hb, hc⟩ := hz
  have hw := opWord_of_opcode ho
  rw [hb, hc] at hw
  exact ⟨_, hi, hw⟩

theorem formAB_word {f : Byte → Byte → Instr} (h : formAB w f = .ok j) :
    ∃ a b, f a b = j ∧ opWord (BitVec.ofNat 8 o) a b 0#8 = w := by
  obtain ⟨hc, hi⟩ := ifZero_eq_ok.1 h
  have hw := opWord_of_opcode ho
  rw [beq_iff_eq.1 hc] at hw
  exact ⟨_, _, hi, hw⟩

theorem formXYC_word {f : Byte → Byte → Bool → Instr} (h : formXYC w f = .ok j) :
    ∃ a b v, f a b v = j ∧ opWord (BitVec.ofNat 8 o) a b (bitByte v) = w := by
  obtain ⟨hc, hi⟩ := ifZero_eq_ok.1 h
  have hw := opWord_of_opcode ho
  rw [← bitByte_of_high (beq_iff_eq.1 hc)] at hw
  exact ⟨_, _, _, hi, hw⟩

end

/-- An accepted word is the code of the operation it spells (rules R92, R95). -/
theorem encode_of_decodeOpw {w : Word} {i : Instr} (h : decodeOpw w = .ok i) (e : Enc) :
    encode e i = .opw w := by
  unfold decodeOpw at h
  split at h
  case h_1 ho | h_2 ho | h_6 ho | h_7 ho | h_11 ho | h_13 ho | h_15 ho =>
    obtain ⟨rfl, rfl⟩ := formZ_word ho h
    rfl
  case h_3 ho | h_4 ho | h_5 ho | h_14 ho =>
    obtain ⟨a, rfl, rfl⟩ := formV_word ho h
    rfl
  case h_9 ho | h_10 ho | h_12 ho =>
    obtain ⟨a, b, rfl, rfl⟩ := formAB_word ho h
    rfl
  case h_8 ho | h_16 ho =>
    obtain ⟨a, b, v, rfl, rfl⟩ := formXYC_word ho h
    rfl
  case h_17 => cases h

/-- The code of an operation is a word, the same under every ENC (rules R90, R92). -/
theorem encode_operation {i : Instr} (hi : i.isOperation = true) :
    ∃ w, ∀ e, encode e i = .opw w := by
  cases i with
  | cmdFunctionSet | cmdDisplayControl | cmdSetY | cmdSetX | cmdSetTc | cmdSetBias | cmdSetVop
  | data => cases hi
  | _ => exact ⟨_, fun _ => rfl⟩

/-- H plays no part in what an operation is. -/
theorem recognised_operation {i : Instr} (hi : i.isOperation = true) (h : Bool) :
    recognised h i = true := by
  cases i with
  | cmdFunctionSet | cmdDisplayControl | cmdSetY | cmdSetX | cmdSetTc | cmdSetBias | cmdSetVop
  | data => cases hi
  | _ => rfl

/-- The word of an operation is accepted as that operation. -/
theorem decodeOpw_of_encode {i : Instr} (hi : i.isOperation = true) {w : Word}
    (hw : ∀ e, encode e i = .opw w) : decodeOpw w = .ok i := by
  have hd := decodeOfEncodedInstruction i Enc.datasheet false Enc.datasheet_wf
    (recognised_operation hi false)
  rwa [hw] at hd

/-- Bits 7 to 1 of a word are those of its field c. -/
theorem opWord_high (o a b c : Byte) :
    (opWord o a b c).extractLsb' 1 7 = c.extractLsb' 1 7 := by
  apply BitVec.eq_of_toNat_eq
  simp only [BitVec.extractLsb'_toNat, opWord_toNat, Nat.shiftRight_eq_div_pow]
  omega

/-- No operation uses bits 7 to 1 of its word (rule R93). -/
theorem encode_high {e : Enc} {i : Instr} {w : Word} (h : encode e i = .opw w) :
    w.extractLsb' 1 7 = 0#7 := by
  cases i with
  | cmdFunctionSet | cmdDisplayControl | cmdSetY | cmdSetX | cmdSetTc | cmdSetBias | cmdSetVop
  | data => cases h
  | setPixel x y v | drawPixel x y v =>
    obtain rfl := Code.opw.inj h
    exact (opWord_high _ _ _ _).trans (bitByte_high v)
  | _ =>
    obtain rfl := Code.opw.inj h
    exact opWord_high _ _ _ _

/-- Settles O2: an accepted word is the code of what it spells (`encode_of_decodeOpw`), and a code is
one word (`encode_operation`). -/
theorem operationWordsAreUnique : Obligations.OperationWordsAreUnique := by
  refine ⟨fun e w i h => ⟨decodeOpw_isOperation h, encode_of_decodeOpw h e⟩, fun e i hi => ?_,
    fun w hne i h => hne (encode_high (encode_of_decodeOpw h Enc.datasheet))⟩
  obtain ⟨w, hw⟩ := encode_operation hi
  refine ⟨w, hw e, decodeOpw_of_encode hi hw, fun w' h' => ?_⟩
  exact Code.opw.inj ((encode_of_decodeOpw h' e).symm.trans (hw e))

/-- Settles O3: each word is closed, and the decoder is run on it. -/
theorem specWordsDecode : Obligations.SpecWordsDecode := by
  unfold Obligations.SpecWordsDecode
  decide

/-- A step that finds nothing for the chip to take and a word that spells no operation is refused
(rules R95, R96; log 17). -/
theorem step_rejected {s : State} {w : Word} {rest : List Word} {err : DecodeError} (hw : s.wire = [])
    (hu : s.upc = none) (hq : s.hostq = w :: rest) (hd : decodeOpw w = .error err) :
    step s = .refused (refusalOf err) := by
  simp [step, fetch, hw, hu, hq, fetchOperation, hd]

/-- Settles O7: the decoder answers such a word with an error, and the step is refused by its name. -/
theorem undefinedWordIsRefused : Obligations.UndefinedWordIsRefused := by
  intro s w rest hw hu hq hno
  cases hd : decodeOpw w with
  | ok i => exact absurd hd (hno i)
  | error err => exact ⟨_, step_rejected hw hu hq hd⟩

/-! ## The command bytes -/

theorem vOf_eq (a : AddrMode) : vOf a = decide (a = .vertical) := by cases a <;> rfl
theorem dispD_eq (m : DispMode) : dispD m = decide (m = .normal ∨ m = .inverse) := by
  cases m <;> rfl
theorem dispE_eq (m : DispMode) : dispE m = decide (m = .allOn ∨ m = .inverse) := by
  cases m <;> rfl

/-- Settles O19: each byte is the code of its command, and decoding gives it back. -/
theorem assembledBytesAreTheirCommands : Obligations.AssembledBytesAreTheirCommands := by
  intro e he
  refine ⟨fun s pd h k hs => ?_, fun m => ?_, fun c => ?_, fun v => Encoding.cmdSetVop v e true he rfl,
    fun t => Encoding.cmdSetTc t e true he rfl, fun b => Encoding.cmdSetBias b e true he rfl,
    fun _ _ => rfl⟩
  · subst hs
    rw [← vOf_eq]
    exact Encoding.cmdFunctionSet pd _ h _ k he rfl
  · rw [← dispD_eq, ← dispE_eq]
    exact Encoding.cmdDisplayControl _ _ e false he rfl
  · exact congrArg₂ (fun y x => [y, x]) (Encoding.cmdSetY _ e false he rfl)
      (Encoding.cmdSetX _ e false he rfl)

/-- Bit q of an operand placed at the places k, k + 1, ... -/
theorem placeBits_range'_getLsbD {q : Nat} (hq : q < 8) (n k v : Nat) :
    (placeBits (List.range' k n) v).getLsbD q =
      (decide (k ≤ q ∧ q < k + n) && v.testBit (q - k)) := by
  induction n generalizing k v with
  | zero => simp [placeBits]
  | succ n ih =>
    have hfirst : (if v % 2 = 1 then 1#8 <<< k else 0#8).getLsbD q =
        (decide (q = k) && v.testBit 0) := by
      by_cases hv : v % 2 = 1
      · rw [if_pos hv, Bool.eq_iff_iff]
        simp [hv, hq]
        omega
      · simp [hv]
    rw [List.range'_succ, placeBits, BitVec.getLsbD_or, hfirst, ih]
    rcases Nat.lt_trichotomy q k with h | rfl | h
    · simp [show q ≠ k by omega, show ¬ k ≤ q by omega, show ¬ k + 1 ≤ q by omega]
    · simp
    · obtain ⟨d, rfl⟩ := Nat.exists_eq_add_of_lt h
      have hd : k + d + 1 - k = d + 1 := by omega
      have hd' : k + d + 1 - (k + 1) = d := by omega
      have hend : k + 1 + n = k + (n + 1) := by omega
      rw [hd, hd', hend, Nat.testBit_succ]
      simp [show k + d + 1 ≠ k by omega, show k ≤ k + d + 1 by omega]

/-- A row whose operand stands in its low bits (rules R104, R107). -/
theorem byte_of_low_bits {n : Nat} {r : EncRow} (hr : r.bits = List.range' 0 n) (x : BitVec n) :
    r.byte x.toNat = r.base ||| x.setWidth 8 := by
  rw [EncRow.byte, hr]
  congr 1
  apply BitVec.eq_of_getLsbD_eq
  intro q hq
  rw [placeBits_range'_getLsbD hq, BitVec.getLsbD_setWidth]
  by_cases hn : q < n
  · simp [hq, hn, BitVec.testBit_toNat]
  · simp [hn, BitVec.getLsbD_of_ge x q (by omega)]

/-- Settles O20: in the table of rule R104 the operand stands in the low bits, but for D and E. -/
theorem commandBytesAsTabled : Obligations.CommandBytesAsTabled :=
  ⟨rfl, Enc.datasheet_wf, by decide, by decide, byte_of_low_bits rfl, byte_of_low_bits rfl,
    byte_of_low_bits rfl, byte_of_low_bits rfl, byte_of_low_bits rfl⟩

end Sys2Proof.Machine
end

section
/-! PROOFS. A frame answered ok, and the configuration operations (rules R125, R166 to R168). -/

namespace Sys2Proof.Machine

/-- Settles O16: `frame_ok`, its trace and its latches written out for either pin setting. -/
theorem frameSuccessOnTheLines : Obligations.FrameSuccessOnTheLines := by
  intro s dc bytes
  refine ⟨fun hc h => ?_, fun hc h => ?_⟩
  · have hf := frame_ok dc bytes (s := s) (by rw [frameActions, if_pos hc]; exact h)
    exact ⟨_, hf, by simp [frameEvents, hc], by simp [frameLines, hc], rfl, rfl, rfl⟩
  · have hf := frame_ok dc bytes (s := s) (by rw [frameActions, hc]; exact h)
    exact ⟨_, hf, by simp [frameEvents, hc], by simp [frameLines, hc], rfl, rfl, rfl⟩

/-! ## The configuration operations -/

section

variable {s : State} (b : Byte) (record : Cfg → Cfg)

/-- A configuration operation from Basic with every line action answered ok (rules R166 to R168). -/
theorem finish_configFlow_ok
    (hrec : ∀ c, (record c).addrmode = c.addrmode ∧ (record c).dispmode = c.dispmode)
    (hc : s.ctrl = .basic) (h : answersOk (4 * frameActions s.params) s.env) :
    finish 0 (configFlow b record s) = { s with
      cfg := record s.cfg
      lt := s.lt ++ commandEvents s.params (configBytes b s)
      wire := s.wire ++ chipBytes false (configBytes b s)
      lines := frameLines s.params false s.lines
      env := skipAnswers (4 * frameActions s.params) s.env
      rslt := 0x00000000#32, txb := [], upc := none } := by
  obtain ⟨u, hf⟩ := configFlow_ok (b := b) hc hrec h
  rw [hf]
  rfl

/-- Elsewhere it is refused before anything is written (rules R244, R252). -/
theorem finish_configFlow_refused (hc : s.ctrl ≠ .basic) :
    finish 0 (configFlow b record s) =
      { s with rslt := 0x00000004#32, txb := [], upc := none } := by
  rw [configFlow, guardState_refuse hc]
  rfl

end

/-- Settles O25: the configuration operation that records the contrast. -/
theorem setContrastSendsAndRecords : Obligations.SetContrastSendsAndRecords := fun _ a =>
  ⟨fun hc h => congrArg Host.Outcome.next
    (finish_configFlow_ok _ (fun c => { c with contrast := contrastOf a }) (fun _ => ⟨rfl, rfl⟩) hc h),
    fun hc => congrArg Host.Outcome.next
      (finish_configFlow_refused _ (fun c => { c with contrast := contrastOf a }) hc)⟩

/-- Settles O26: the configuration operation that records the bias. -/
theorem setBiasSendsAndRecords : Obligations.SetBiasSendsAndRecords := fun _ a =>
  ⟨fun hc h => congrArg Host.Outcome.next
    (finish_configFlow_ok _ (fun c => { c with bias := biasOf a }) (fun _ => ⟨rfl, rfl⟩) hc h),
    fun hc => congrArg Host.Outcome.next
      (finish_configFlow_refused _ (fun c => { c with bias := biasOf a }) hc)⟩

/-- Settles O27: the configuration operation that records the temperature coefficient. -/
theorem setTcSendsAndRecords : Obligations.SetTcSendsAndRecords := fun _ a =>
  ⟨fun hc h => congrArg Host.Outcome.next
    (finish_configFlow_ok _ (fun c => { c with tc := tcOf a }) (fun _ => ⟨rfl, rfl⟩) hc h),
    fun hc => congrArg Host.Outcome.next
      (finish_configFlow_refused _ (fun c => { c with tc := tcOf a }) hc)⟩

end Sys2Proof.Machine
end

section
/-! PROOFS. A frame that fails, action by action, what it leaves unchanged, and a RESET that fails
(rules R120 to R127, R162). -/

namespace Sys2Proof.Machine

/-! ## What a frame leaves unchanged (rule R125) -/

theorem setLatch_resl {p : Pin} (hp : p ≠ .res) (l : Level) (s : State) :
    (setLatch p l s).lines.resl = s.lines.resl := by
  cases p with
  | res => exact absurd rfl hp
  | dc | cs => rfl

/-- Driving the mode line or chip-select leaves the latch of the reset line. -/
theorem pinSet_resl {p : Pin} (hp : p ≠ .res) (l : Bool) (s : State) :
    (pinSet p l s).2.lines.resl = s.lines.resl := by
  cases h : (nextAnswer s.env).1 with
  | true =>
    rw [pinSet_ok hp l h]
    exact setLatch_resl hp _ _
  | false =>
    rw [pinSet_fail hp l h]
    exact setLatch_resl hp _ _

theorem driveCs_resl (l : Bool) (s : State) : (driveCs l s).2.lines.resl = s.lines.resl := by
  unfold driveCs
  split
  · exact pinSet_resl (by decide) l s
  · rfl

theorem deliver_lines (x : List (Bool × Byte)) (s : State) : (deliver x s).lines = s.lines := by
  unfold deliver
  split <;> rfl

theorem deliverPart_lines (n : Nat) (k : Fin 8) (x : List (Bool × Byte)) (s : State) :
    (deliverPart n k x s).lines = s.lines := by
  unfold deliverPart
  split <;> rfl

/-- A transfer drives no line. -/
theorem busXfer_lines (s : State) : (busXfer s).2.lines = s.lines := by
  unfold busXfer drawAnswer
  rcases nextAnswer s.env with ⟨_ | _, e⟩
  · exact deliverPart_lines _ _ _ _
  · exact deliver_lines _ _

theorem orBusError_lines (r : Bool × State) : (orBusError r).state.lines = r.2.lines := by
  unfold orBusError
  split <;> rfl

theorem Flow.andThen_resl {f : Flow} {g : State → Flow} {l : Level} (hf : f.state.lines.resl = l)
    (hg : ∀ t, (g t).state.lines.resl = t.lines.resl) : (f.andThen g).state.lines.resl = l := by
  cases f with
  | go t => exact (hg t).trans hf
  | raised e t => exact hf

theorem Flow.update_setTxb_lines (f : Flow) (x : List (Bool × Byte)) :
    (f.update (·.setTxb x)).state.lines = f.state.lines := by
  cases f <;> rfl

/-- A frame leaves the latch of the reset line, whatever the answers. -/
theorem frame_resl (dc : Bool) (bytes : List Byte) (s : State) :
    (frame dc bytes s).state.lines.resl = s.lines.resl := by
  unfold frame
  refine Flow.andThen_resl (Flow.andThen_resl (Flow.andThen_resl ?_ fun t => ?_) fun t => ?_)
    fun t => ?_
  · rw [orBusError_lines, driveCs_resl]
    rfl
  · rw [orBusError_lines, pinSet_resl (by decide)]
  · rw [Flow.update_setTxb_lines, orBusError_lines, busXfer_lines]
  · rw [orBusError_lines, driveCs_resl]

/-- Settles O18: `frame_lineOnly` and `frame_resl` hold of either outcome; a frame that succeeds
leaves TXB empty (`frame_go_txb`), and so does its only error (`frame_clean`). -/
theorem frameChangesOnlyTheLines : Obligations.FrameChangesOnlyTheLines := by
  intro s dc bytes
  have hl := frame_lineOnly dc bytes s
  have hr := frame_resl dc bytes s
  cases hf : frame dc bytes s with
  | go t =>
    rw [hf] at hl hr
    exact ⟨t, .inl rfl, frame_go_txb hf ▸ hl.rest, hr, hl.grown, hl.sent⟩
  | raised e t =>
    rw [hf] at hl hr
    obtain ⟨ht, rfl⟩ := frame_clean dc bytes s e t hf
    exact ⟨t, .inr rfl, ht ▸ hl.rest, hr, hl.grown, hl.sent⟩

/-! ## A frame up to its first failing line action (rules R120, R121, R124, R127) -/

/-- What a selected chip has of the first entries of a burst in one mode and of the next one's bits. -/
theorem deliverPart_selected {s : State} (hs : chipSelected s = true) (n : Nat) (k : Fin 8)
    (dc : Bool) (bytes : List Byte) :
    deliverPart n k (bytes.map fun b => (dc, b)) s = s.sendWire
      ((bytes.take n).map (fun b => .byte dc b) ++ strayBits k (bytes[n]?.map fun b => (dc, b))) := by
  simp [deliverPart, hs, ← List.map_take, Function.comp_def]

/-- A transfer answered fail, to a selected chip: some whole bytes and some bits of the next have
reached it (rule R121). -/
theorem busXfer_fail {s : State} {dc : Bool} {bytes : List Byte}
    (hx : s.txb = bytes.map fun b => (dc, b)) (h : (nextAnswer s.env).1 = false)
    (hs : chipSelected s = true) :
    ∃ (n : Nat) (k : Fin 8), n ≤ bytes.length ∧ busXfer s = (false, countChipDraw
      (((s.setEnv (nextAnswer s.env).2).sendWire ((bytes.take n).map (fun b => .byte dc b) ++
        strayBits k (bytes[n]?.map fun b => (dc, b)))).log (.txFail s.lines.dcl bytes))) := by
  refine ⟨Config.bytesDelivered (nextAnswer s.env).2.chipDrawn % (bytes.length + 1),
    Config.bitsDelivered (nextAnswer s.env).2.chipDrawn,
    Nat.le_of_lt_succ (Nat.mod_lt _ (Nat.succ_pos _)), ?_⟩
  have hd := deliverPart_selected (s := s.setEnv (nextAnswer s.env).2) hs
  simp [busXfer, drawAnswer, h, hx, hd, Function.comp_def]

/-- The part of a frame that follows chip-select (rule R125, F2 to F4). -/
def frameTail (dc : Bool) (s : State) : Flow :=
  (orBusError (pinSet .dc dc s))
    |>.andThen (fun s => (orBusError (busXfer s)).update (fun s => s.setTxb []))
    |>.andThen (fun s => orBusError (driveCs (!s.params.csActive) s))

/-- The state of a frame once chip-select has been driven to its active level (rule R125, F1). -/
def afterSelect (dc : Bool) (bytes : List Byte) (s : State) : State :=
  { s with
    lt := s.lt ++ [.pin .cs s.params.csActive]
    lines := { s.lines with csl := levelOf s.params.csActive }
    txb := bytes.map fun b => (dc, b)
    env := (nextAnswer s.env).2 }

theorem chipSelected_afterSelect (dc : Bool) (bytes : List Byte) (s : State) :
    chipSelected (afterSelect dc bytes s) = true := by
  simp [chipSelected, afterSelect]

/-- The state of a frame once the mode line has been driven (rule R125, F2). -/
def afterMode (dc : Bool) (s : State) : State :=
  { s with
    lt := s.lt ++ [.pin .dc dc]
    lines := { s.lines with dcl := levelOf dc }
    env := (nextAnswer s.env).2 }

section

variable {s : State} {dc : Bool} {bytes : List Byte}

/-- Without a chip-select pin a frame begins with the mode line. -/
theorem frame_pinless (hc : s.params.hasCsPin = false) :
    frame dc bytes s = frameTail dc (s.setTxb (bytes.map fun b => (dc, b))) := by
  simp [frame, frameTail, driveCs, hc, orBusError]

/-- The chip selected, a frame goes on to the mode line. -/
theorem frame_selected (hc : s.params.hasCsPin = true) (h : (nextAnswer s.env).1 = true) :
    frame dc bytes s = frameTail dc (afterSelect dc bytes s) := by
  have hp := pinSet_ok (p := .cs) (by decide) s.params.csActive
    (s := s.setTxb (bytes.map fun b => (dc, b))) h
  simp only [frame, frameTail, driveCs, State.setTxb_params, hc, if_true, hp, orBusError]
  rfl

/-- Chip-select fails. -/
theorem frame_select_fail (hc : s.params.hasCsPin = true) (h : (nextAnswer s.env).1 = false) :
    frame dc bytes s = .raised .busError { s with
      lt := s.lt ++ [.pinFail .cs]
      lines := { s.lines with csl := .unknown }
      txb := []
      env := (nextAnswer s.env).2 } := by
  have hp := pinSet_fail (p := .cs) (by decide) s.params.csActive
    (s := s.setTxb (bytes.map fun b => (dc, b))) h
  simp only [frame, driveCs, State.setTxb_params, hc, if_true, hp, orBusError]
  rfl

/-- The mode line fails. -/
theorem frameTail_mode_fail (h : (nextAnswer s.env).1 = false) :
    frameTail dc s = .raised .busError { s with
      lt := s.lt ++ [.pinFail .dc]
      lines := { s.lines with dcl := .unknown }
      txb := []
      env := (nextAnswer s.env).2 } := by
  simp only [frameTail, pinSet_fail (p := .dc) (by decide) dc h, orBusError]
  rfl

/-- The mode line driven, a frame goes on to the burst. -/
theorem frameTail_mode_ok (h : (nextAnswer s.env).1 = true) :
    frameTail dc s = ((orBusError (busXfer (afterMode dc s))).update (·.setTxb [])).andThen
      fun s => orBusError (driveCs (!s.params.csActive) s) := by
  simp only [frameTail, pinSet_ok (p := .dc) (by decide) dc h, orBusError]
  rfl

/-- The burst fails. -/
theorem frameTail_burst_fail (hx : s.txb = bytes.map fun b => (dc, b)) (hs : chipSelected s = true)
    (h : answersAre [true, false] s.env) :
    ∃ (n : Nat) (k : Fin 8), n ≤ bytes.length ∧ frameTail dc s = .raised .busError { s with
      lt := s.lt ++ [.pin .dc dc, .txFail (levelOf dc) bytes]
      lines := { s.lines with dcl := levelOf dc }
      wire := s.wire ++ ((bytes.take n).map (fun b => .byte dc b) ++
        strayBits k (bytes[n]?.map fun b => (dc, b)))
      txb := []
      env := (countChipDraw (s.setEnv (skipAnswers 2 s.env))).env } := by
  obtain ⟨h1, h2, -⟩ := h
  obtain ⟨n, k, hn, hb⟩ := busXfer_fail (s := afterMode dc s) hx h2 hs
  refine ⟨n, k, hn, ?_⟩
  rw [frameTail_mode_ok h1, hb]
  simp [orBusError, afterMode, countChipDraw, State.setTxb, State.setEnv, State.log, State.sendWire,
    skipAnswers]

/-- The release of chip-select fails. -/
theorem frameTail_release_fail (hx : s.txb = bytes.map fun b => (dc, b)) (hs : chipSelected s = true)
    (hc : s.params.hasCsPin = true) (h : answersAre [true, true, false] s.env) :
    frameTail dc s = .raised .busError { s with
      lt := s.lt ++ [.pin .dc dc, .tx (levelOf dc) bytes, .pinFail .cs]
      lines := { s.lines with dcl := levelOf dc, csl := .unknown }
      wire := s.wire ++ bytes.map (fun b => .byte dc b)
      txb := []
      env := skipAnswers 3 s.env } := by
  obtain ⟨h1, h2, h3, -⟩ := h
  have hb := busXfer_ok (s := afterMode dc s) h2 hs
  rw [frameTail_mode_ok h1, hb]
  have hc' : (afterMode dc s).params.hasCsPin = true := hc
  simp only [orBusError, if_true, Flow.update_go, Flow.andThen_go, driveCs, State.setTxb_params,
    State.log_params, State.sendWire_params, State.setEnv_params, hc']
  rw [pinSet_fail (by decide) _ h3]
  simp [hx, Function.comp_def, afterMode, setLatch, skipAnswers, State.setTxb, State.setEnv,
    State.setLines, State.log, State.sendWire]

end

/-- Settles O17: the frame is followed rung by rung, `frame_selected` or `frame_pinless` and then
`frameTail`, down to the line action that fails. -/
theorem frameFailureStopsAtOnce : Obligations.FrameFailureStopsAtOnce := by
  intro s dc bytes
  refine ⟨fun hc => ⟨?_, ?_, ?_, ?_⟩, fun hc => ⟨?_, ?_⟩⟩
  · rintro ⟨h, -⟩
    exact ⟨_, frame_select_fail hc h, rfl, rfl, rfl, rfl⟩
  · rintro ⟨h1, h2, -⟩
    exact ⟨_, (frame_selected hc h1).trans (frameTail_mode_fail h2), by simp [afterSelect],
      rfl, rfl, rfl⟩
  · rintro ⟨h1, h⟩
    obtain ⟨n, k, hn, hf⟩ := frameTail_burst_fail (s := afterSelect dc bytes s) rfl
      (chipSelected_afterSelect dc bytes s) h
    exact ⟨_, (frame_selected hc h1).trans hf, by simp [afterSelect], rfl, rfl, n, k, hn, rfl⟩
  · rintro ⟨h1, h⟩
    have hf := frameTail_release_fail (s := afterSelect dc bytes s) rfl
      (chipSelected_afterSelect dc bytes s) hc h
    exact ⟨_, (frame_selected hc h1).trans hf, by simp [afterSelect], rfl, rfl, rfl⟩
  · rintro ⟨h, -⟩
    exact ⟨_, (frame_pinless hc).trans (frameTail_mode_fail h), rfl, rfl, rfl, rfl⟩
  · intro h
    obtain ⟨n, k, hn, hf⟩ := frameTail_burst_fail (s := s.setTxb (bytes.map fun b => (dc, b)))
      rfl (by simp [chipSelected, hc]) h
    exact ⟨_, (frame_pinless hc).trans hf, rfl, rfl, rfl, n, k, hn, rfl⟩

/-! ## RESET with a failed drive (rules R120, R162) -/

/-- Settles O22: `resetFlow_fail`, its trace read off the first answer. -/
theorem resetPinErrorLeavesMemory : Obligations.ResetPinErrorLeavesMemory := by
  intro s h
  obtain ⟨e, w, u, hf, -⟩ := resetFlow_fail h
  refine ⟨_, congrArg (fun f => Host.Outcome.next (finish 0 f)) hf, rfl, rfl, rfl, ?_, ?_, rfl⟩
  · rintro ⟨h1, -⟩
    simp [raiseError, h1]
  · rintro ⟨h1, -⟩
    exact ⟨resetWait s, Nat.le_add_right _ _, by simp [raiseError, h1]⟩

end Sys2Proof.Machine
end

section
/-! PROOFS. The chip's commands: each sets its register, and FUNCTION_SET leaves of the rest what the
kind of chip keeps (rules R141 to R147; logs 11, 23, 24). -/

namespace Sys2Proof.Machine

/-! ## FUNCTION_SET (rule R141) -/

/-- What the chip still holds when a FUNCTION_SET with this PD comes: all of it, unless it is powered
down before or after the command (log 23). -/
def chipPowered (pd : Bool) (c : Chip) : Chip := if c.pd || pd then chipLapse c else c

theorem chipFunctionSet_eq (pd v h : Bool) (c : Chip) : chipFunctionSet pd v h c =
    { (if h then chipSuspend (chipPowered pd c) else chipPowered pd c) with
      pd := pd, v := addrModeOf v, h := h, draws := c.draws + 1 } := rfl

section

variable {pd : Bool} {c : Chip}

theorem chipLapse_of_keepsSettings (hk : c.kind.settings = true) :
    ∃ m, chipLapse c = { c with ddram := m } := ⟨(chipLapse c).ddram, by simp [chipLapse, hk]⟩

theorem chipPowered_awake (hc : c.pd = false) : chipPowered false c = c := by
  simp [chipPowered, hc]

theorem chipPowered_down (hp : c.pd = true ∨ pd = true) : chipPowered pd c = chipLapse c :=
  if_pos (by simpa using hp)

theorem chipPowered_kind (pd : Bool) (c : Chip) : (chipPowered pd c).kind = c.kind := by
  unfold chipPowered
  split <;> rfl

/-- DDRAM is all that a chip of a kind that keeps its settings can lose. -/
theorem chipPowered_settings (hk : c.kind.settings = true ∨ (c.pd = false ∧ pd = false)) :
    ∃ m, chipPowered pd c = { c with ddram := m } := by
  obtain hk | ⟨hc, rfl⟩ := hk
  · unfold chipPowered
    split
    · exact chipLapse_of_keepsSettings hk
    · exact ⟨c.ddram, rfl⟩
  · exact ⟨c.ddram, chipPowered_awake hc⟩

theorem chipPowered_ddram_lost (hk : c.kind.ddram = false) (hp : c.pd = true ∨ pd = true) :
    (chipPowered pd c).ddram = [] := by
  simp [chipPowered_down hp, chipLapse, hk]

theorem chipSuspend_of_keepsDisplay (hk : c.kind.display = true) : chipSuspend c = c := by
  simp [chipSuspend, hk]

/-- The extended instruction set can cost the display mode only. -/
theorem chipFunctionSet_powered (pd v h : Bool) (c : Chip) :
    (chipFunctionSet pd v h c).addr = (chipPowered pd c).addr ∧
      (chipFunctionSet pd v h c).tc = (chipPowered pd c).tc ∧
      (chipFunctionSet pd v h c).bias = (chipPowered pd c).bias ∧
      (chipFunctionSet pd v h c).vop = (chipPowered pd c).vop ∧
      (chipFunctionSet pd v h c).ddram = (chipPowered pd c).ddram := by
  rw [chipFunctionSet_eq]
  cases h <;> exact ⟨rfl, rfl, rfl, rfl, rfl⟩

theorem chipFunctionSet_disp (v : Bool) {h : Bool} (hk : c.kind.display = true ∨ h = false) :
    (chipFunctionSet pd v h c).disp = (chipPowered pd c).disp := by
  rw [chipFunctionSet_eq]
  cases h with
  | false => rfl
  | true =>
    have hd : (chipPowered pd c).kind.display = true := by
      simpa [chipPowered_kind] using hk
    simp [chipSuspend_of_keepsDisplay hd]

/-- A FUNCTION_SET leaves the other registers to a chip that keeps its settings or stays awake. -/
theorem chipFunctionSet_settings (v h : Bool)
    (hk : c.kind.settings = true ∨ (c.pd = false ∧ pd = false)) :
    (chipFunctionSet pd v h c).addr = c.addr ∧ (chipFunctionSet pd v h c).tc = c.tc ∧
      (chipFunctionSet pd v h c).bias = c.bias ∧ (chipFunctionSet pd v h c).vop = c.vop ∧
      (c.kind.display = true ∨ h = false → (chipFunctionSet pd v h c).disp = c.disp) := by
  obtain ⟨haddr, htc, hbias, hvop, -⟩ := chipFunctionSet_powered pd v h c
  obtain ⟨m, hm⟩ := chipPowered_settings hk
  rw [haddr, htc, hbias, hvop, hm]
  exact ⟨rfl, rfl, rfl, rfl, fun hd => by rw [chipFunctionSet_disp v hd, hm]⟩

/-- Nothing is known of the DDRAM of a powered-down chip of a kind that loses it. -/
theorem chipFunctionSet_ddram_lost (v h : Bool) (hk : c.kind.ddram = false)
    (hp : c.pd = true ∨ pd = true) (a : Nat) :
    ddramRead (chipFunctionSet pd v h c).ddram a = none := by
  obtain ⟨-, -, -, -, hd⟩ := chipFunctionSet_powered pd v h c
  rw [hd, chipPowered_ddram_lost hk hp, ddramRead_nil]

end

/-- Settles O44: FUNCTION_SET by what `chipFunctionSet` sets and keeps; the other commands are one
update of the chip each. -/
theorem chipModeCommandsSetTheirRegister : Obligations.ChipModeCommandsSetTheirRegister := by
  refine fun s => ⟨fun pd v h => ?_, ⟨rfl, rfl, rfl, rfl⟩, fun _ => rfl, fun _ => rfl, fun _ => rfl⟩
  obtain ⟨hpd, hv, hh, hheld, hkind, hddram⟩ := chipFunctionSet_keeps pd v h s.chip
  exact ⟨chipFunctionSet pd v h s.chip, rfl, hpd, hv, hh, hheld, hkind,
    chipFunctionSet_settings v h, hddram, chipFunctionSet_ddram_lost v h⟩

/-! ## SET_Y and SET_X (rules R143, R144) -/

theorem rowOf_of_lt {y : BitVec 3} (hy : y.toNat < 6) : rowOf y = ⟨y.toNat, hy⟩ :=
  (if_pos hy).trans (Fin.ext (Nat.mod_eq_of_lt hy))

theorem columnOf_of_lt {x : BitVec 7} (hx : x.toNat < 84) : columnOf x = ⟨x.toNat, hx⟩ :=
  (if_pos hx).trans (Fin.ext (Nat.mod_eq_of_lt hx))

theorem exec_cmdSetY (y : BitVec 3) (s : State) : exec (.cmdSetY y) s =
    .next { s with chip := { s.chip with addr := { s.chip.addr with band := rowOf y } } } := rfl

theorem exec_cmdSetX (x : BitVec 7) (s : State) : exec (.cmdSetX x) s =
    .next { s with chip := { s.chip with addr := { s.chip.addr with col := columnOf x } } } := rfl

/-- Settles O45: the counter takes `rowOf y` and `columnOf x`, which in range are the operands. -/
theorem chipAddressCommandsSetTheCounter : Obligations.ChipAddressCommandsSetTheCounter := by
  refine fun s => ⟨fun y hy => ?_, fun x hx => ?_, fun y => ⟨rowOf y, exec_cmdSetY y s⟩,
    fun x => ⟨columnOf x, exec_cmdSetX x s⟩⟩
  · rw [exec_cmdSetY, rowOf_of_lt hy]
  · rw [exec_cmdSetX, columnOf_of_lt hx]

end Sys2Proof.Machine
end

section
/-! PROOFS. The controller's sequences: RESET answered ok, INIT whole and cut short, a configuration
operation cut short, and power control (rules R162 to R171, R174). -/

namespace Sys2Proof.Machine

/-! ## RESET (rules R162, R163) -/

theorem exec_reset (s : State) : exec .reset s = .next (finish 0 (resetFlow s)) := rfl

/-- Settles O21: `resetFlow_ok`; either wait is its least duration and the excess that is drawn. -/
theorem resetPulsesAndClears : Obligations.ResetPulsesAndClears := by
  intro s h
  refine ⟨_, resetWait s, s.params.tResPost + (nextExcess (resetEnv s)).1,
    by rw [exec_reset, resetFlow_ok h, finish_go], Nat.le_add_right _ _, Nat.le_add_right _ _,
    rfl, rfl, fbRead_nil, fun b => ?_, rfl, rfl, rfl, rfl⟩
  exact Vector.getElem_replicate b.isLt

/-! ## A sequence cut short (rules R165, R169, R174) -/

/-- An error after a run of frames: of the state before it, only the lines and the result are left
changed. -/
theorem OnLines.raiseError {s t : State} (h : OnLines s t) (e : ErrorCode) :
    Machine.raiseError e t = { s with
      lines := t.lines, lt := t.lt, env := t.env, wire := t.wire
      rslt := resultWord 0 e.status, txb := [], upc := none } := by
  rw [h.rest]
  rfl

/-! ## INIT (rules R164, R165) -/

theorem exec_init (s : State) : exec .init s = .next (finish 0 (initFlow s)) := rfl

/-- Settles O23: `initFlow_ok` from InReset; elsewhere the guard refuses. -/
theorem initSendsSixCommands : Obligations.InitSendsSixCommands := by
  refine fun s => ⟨fun hc h => ?_, fun hc => ?_⟩
  · obtain ⟨u, hf⟩ := initFlow_ok hc h
    rw [exec_init, hf]
    rfl
  · rw [exec_init, initFlow, guardState_refuse hc]
    rfl

theorem initBase_eq (s : State) (n : Nat) :
    initBase s n = { s with ctrl := if n = 0 then s.ctrl else .extendedConfig } := by
  unfold initBase
  split <;> rfl

/-- Settles O24: `initFlow_fail` names the frame that failed; all else stands as it was before that
frame, at `initBase`. -/
theorem initFailureIsNotRolledBack : Obligations.InitFailureIsNotRolledBack := by
  intro s hc h
  obtain ⟨t, hf, -, n, hn, hl, hok, hno, hlt⟩ := initFlow_fail hc h
  rw [initBase_eq, hc] at hl
  refine ⟨raiseError .busError t, n, hn, by rw [exec_init, hf, finish_raised], rfl, hok, hno, hlt,
    hl.ctrl, ?_⟩
  rw [hl.raiseError]

/-! ## The configuration operations (rule R169) -/

theorem configBase_eq (record : Cfg → Cfg) (s : State) (n : Nat) :
    configBase record s n = { s with
      ctrl := if n = 0 then s.ctrl else .extendedConfig
      cfg := if n < 2 then s.cfg else record s.cfg } := by
  match n with
  | 0 | 1 | _ + 2 => rfl

/-- The three configuration operations have one flow, each with a way of its own to record its
value. -/
theorem exec_configOperation {s : State} {i : Instr} {b : Byte} {c : Cfg}
    (hi : (∃ a : Byte, i = .setContrast a ∧ b = byteVOP s.params.enc (a.extractLsb' 0 7) ∧
        c = { s.cfg with contrast := a.extractLsb' 0 7 }) ∨
      (∃ a : Byte, i = .setBias a ∧ b = byteBIAS s.params.enc (a.extractLsb' 0 3) ∧
        c = { s.cfg with bias := a.extractLsb' 0 3 }) ∨
      (∃ a : Byte, i = .setTc a ∧ b = byteTC s.params.enc (a.extractLsb' 0 2) ∧
        c = { s.cfg with tc := a.extractLsb' 0 2 })) :
    ∃ record : Cfg → Cfg,
      (∀ d, (record d).addrmode = d.addrmode ∧ (record d).dispmode = d.dispmode) ∧
      c = record s.cfg ∧ exec i s = .next (finish 0 (configFlow b record s)) := by
  obtain ⟨a, rfl, rfl, rfl⟩ | ⟨a, rfl, rfl, rfl⟩ | ⟨a, rfl, rfl, rfl⟩ := hi
  · exact ⟨fun d => { d with contrast := contrastOf a }, fun _ => ⟨rfl, rfl⟩, rfl, rfl⟩
  · exact ⟨fun d => { d with bias := biasOf a }, fun _ => ⟨rfl, rfl⟩, rfl, rfl⟩
  · exact ⟨fun d => { d with tc := tcOf a }, fun _ => ⟨rfl, rfl⟩, rfl, rfl⟩

/-- Settles O28: `configFlow_fail` names the frame that failed; all else stands as it was before
that frame, at `configBase`. -/
theorem configFailureKeepsWhatWasSent : Obligations.ConfigFailureKeepsWhatWasSent := by
  intro s i b c hi hc h
  obtain ⟨record, hrec, rfl, hexec⟩ := exec_configOperation hi
  obtain ⟨t, hf, -, n, hn, hl, hok, hno, hlt⟩ := configFlow_fail hc hrec h
  rw [configBase_eq, hc] at hl
  refine ⟨raiseError .busError t, n, hn, by rw [hexec, hf, finish_raised], rfl, hok, hno, hlt,
    hl.ctrl, hl.cfg, ?_⟩
  rw [hl.raiseError]

/-! ## Power control (rules R170, R171) -/

/-- The flow of PWRDOWN and of PWRUP: one FUNCTION_SET in the basic instruction set. -/
def powerFlow (want next : CtrlState) (pd : Bool) (s : State) : Flow :=
  guardState want s
    |>.step 1 (fun s => sendCommand (fsByte s pd false) s)
    |>.step 2 (fun s => .go (s.setCtrl next))

theorem exec_pwrDown (s : State) :
    exec .pwrDown s = .next (finish 0 (powerFlow .basic .poweredDown true s)) := rfl

theorem exec_pwrUp (s : State) :
    exec .pwrUp s = .next (finish 0 (powerFlow .poweredDown .basic false s)) := rfl

section

variable {want next : CtrlState} {pd : Bool} {i : Instr} {s : State}

/-- In the state it wants, power control is its one frame, and then the change of STATE. -/
theorem powerFlow_pass (hc : s.ctrl = want) :
    powerFlow want next pd s =
      (frame false [fsByte s pd false] ((s.setUpc (some 0)).setUpc (some 1))).step 2
        (fun s => .go (s.setCtrl next)) := by
  rw [powerFlow, guardState_pass hc]
  rfl

variable (hi : exec i s = .next (finish 0 (powerFlow want next pd s)))

include hi

theorem exec_power_ok (hc : s.ctrl = want) (h : answersOk (frameActions s.params) s.env) :
    exec i s = .next { s with
      ctrl := next
      lt := s.lt ++ frameEvents s.params false [fsByte s pd false]
      wire := s.wire ++ chipBytes false [fsByte s pd false]
      lines := frameLines s.params false s.lines
      env := skipAnswers (frameActions s.params) s.env
      rslt := 0x00000000#32, txb := [], upc := none } := by
  rw [hi, powerFlow_pass hc, frame_ok _ _ (by exact h)]
  rfl

theorem exec_power_fail (hc : s.ctrl = want) (h : ¬ answersOk (frameActions s.params) s.env) :
    ∃ t, exec i s = .next t ∧ t.rslt = 0x00000001#32 ∧ t.ctrl = want ∧
      (∃ l ∈ failedFrameEvents s.params false [fsByte s pd false], t.lt = s.lt ++ l) ∧
      t = { s with lines := t.lines, lt := t.lt, env := t.env, wire := t.wire, rslt := t.rslt,
                   txb := [], upc := none } := by
  obtain ⟨t, hf, hl, -, hlt⟩ := frame_fail (s := (s.setUpc (some 0)).setUpc (some 1)) false
    [fsByte s pd false] h
  have hs : OnLines s t := ((OnLines.setUpc s _).trans (.setUpc _ _)).trans hl.onLines
  refine ⟨raiseError .busError t, ?_, rfl, hs.ctrl.trans hc, hlt, ?_⟩
  · rw [hi, powerFlow_pass hc, hf, Flow.step_raised, finish_raised]
  · rw [hs.raiseError]

theorem exec_power_refused (hc : s.ctrl ≠ want) :
    exec i s = .next { s with rslt := 0x00000004#32, txb := [], upc := none } := by
  rw [hi, powerFlow, guardState_refuse hc]
  rfl

end

/-- Settles O29: power control from Basic to PoweredDown, with PD set. -/
theorem pwrDownSendsOneCommand : Obligations.PwrDownSendsOneCommand := fun s =>
  ⟨exec_power_ok (exec_pwrDown s), exec_power_fail (exec_pwrDown s),
    exec_power_refused (exec_pwrDown s)⟩

/-- Settles O30: power control from PoweredDown to Basic, with PD clear. -/
theorem pwrUpSendsOneCommand : Obligations.PwrUpSendsOneCommand := fun s =>
  ⟨exec_power_ok (exec_pwrUp s), exec_power_fail (exec_pwrUp s),
    exec_power_refused (exec_pwrUp s)⟩

end Sys2Proof.Machine
end

section
/-! PROOFS. GETPIXEL and CLEAR, and what a pixel reads as after it was drawn (rules R184, R185,
R188). -/

namespace Sys2Proof.Machine

/-! ## GETPIXEL (rule R184) -/

/-- Four fields in a row, as the rules of the operations write a word (rule R91). -/
theorem append_eq_opWord (o a b c : Byte) : o ++ a ++ b ++ c = opWord o a b c := by
  rw [BitVec.append_assoc]
  rfl

/-- A completion with a pixel's value (rules R100, R101). -/
theorem returnOk_pixelVal (v : Bool) (s : State) : returnOk (pixelVal v) s =
    { s with rslt := if v then 0x00000100#32 else 0x00000000#32, upc := none } := by
  cases v <;> rfl

/-- GETPIXEL in range completes with its pixel. -/
theorem exec_getPixel_pass {x y : Byte} (hx : x.toNat < 84) (hy : y.toNat < 48) {s : State}
    {v : Bool} (hv : pixelAt s.fb x y = v) :
    exec (.getPixel x y) s = .next (returnOk (pixelVal v) s) := by
  have h : exec (.getPixel x y) s = .next (finish (pixelVal (pixelAt s.fb x y))
      ((guardRange x y s).compute 1 |>.compute 2)) := rfl
  rw [h, hv, guardRange_pass hx hy]
  rfl

/-- GETPIXEL out of range reads nothing. -/
theorem exec_getPixel_refuse {x y : Byte} (h : 84 ≤ x.toNat ∨ 48 ≤ y.toNat) (s : State) :
    exec (.getPixel x y) s = .next (raiseError .outOfBounds s) := by
  have he : exec (.getPixel x y) s = .next (finish (pixelVal (pixelAt s.fb x y))
      ((guardRange x y s).compute 1 |>.compute 2)) := rfl
  rw [he, guardRange_refuse h]
  rfl

/-- GETPIXEL after a completed operation changes RSLT only: UPC is idle already. -/
theorem exec_getPixel_returnOk {x y : Byte} (hx : x.toNat < 84) (hy : y.toNat < 48) {s : State}
    {v : Bool} (hv : pixelAt s.fb x y = v) (val : BitVec 16) :
    exec (.getPixel x y) (returnOk val s) =
      .next { returnOk val s with rslt := if v then 0x00000100#32 else 0x00000000#32 } := by
  rw [exec_getPixel_pass (s := returnOk val s) hx hy hv, returnOk_pixelVal]
  rfl

/-- Settles O13: the word is GETPIXEL's code, and `pixelAt` is the bit its place names (rule R62). -/
theorem getPixelReadsOnePixel : Obligations.GetPixelReadsOnePixel := by
  refine ⟨fun x y => ?_, fun s x y => ⟨fun hx hy => ?_, fun h => exec_getPixel_refuse h s⟩⟩
  · rw [append_eq_opWord]
    exact decodeOpw_of_encode (i := .getPixel x y) rfl fun _ => rfl
  · rw [exec_getPixel_pass hx hy rfl, returnOk_pixelVal]
    rfl

/-! ## CLEAR (rule R185) -/

/-- CLEAR lists no byte, sets every flag and completes with Ok. -/
theorem exec_clear (s : State) :
    exec .clear s = .next (returnOk 0 (setAllDirty (s.setFb []) true)) := rfl

/-- Settles O14: an unlisted byte reads as zero (`fbRead_nil`). -/
theorem clearZeroesAllAndMarksAll : Obligations.ClearZeroesAllAndMarksAll := fun s =>
  ⟨_, exec_clear s, fun k => fbRead_nil k, fun b => Vector.getElem_replicate b.isLt, rfl, rfl⟩

/-! ## What a pixel reads as (rule R188) -/

/-- Both pixel writes are a SETPIXEL. -/
theorem exec_pixelWrite {i : Instr} {x y : Byte} (h : i = .clrPixel x y ∨ ∃ v, i = .setPixel x y v)
    (s : State) : ∃ v, exec i s = exec (.setPixel x y v) s := by
  obtain rfl | ⟨v, rfl⟩ := h
  · exact ⟨false, exec_clrPixel x y s⟩
  · exact ⟨v, rfl⟩

/-- Settles O15: GETPIXEL reads the framebuffer the last operation left, and `pixelAt_writePixel`
says what a pixel write left there. -/
theorem pixelReadsBackAsDrawn : Obligations.PixelReadsBackAsDrawn := by
  refine ⟨fun s x y hx hy => ⟨_, exec_setPixel_pass hx hy true s, ?_⟩,
    fun s x y hx hy => ⟨_, exec_clear s, ?_⟩,
    fun s x y v h => ⟨_, exec_setPixel_refuse h v s, rfl, rfl⟩,
    fun s i x y x' y' hi hx hy hx' hy' hne => ?_⟩
  · have hon : pixelAt (writePixel x y true s).fb x y = true :=
      (pixelAt_writePixel hx hx true s).trans (if_pos ⟨rfl, rfl⟩)
    exact exec_getPixel_returnOk hx hy hon 0
  · have hoff : pixelAt (setAllDirty (s.setFb []) true).fb x y = false := BitVec.getLsbD_zero
    exact exec_getPixel_returnOk hx hy hoff 0
  · obtain ⟨v, hv⟩ := exec_pixelWrite hi s
    have hsame : pixelAt (writePixel x y v s).fb x' y' = pixelAt s.fb x' y' :=
      (pixelAt_writePixel hx hx' v s).trans (if_neg fun h => hne (Prod.ext h.1 h.2))
    exact ⟨_, _, _, hv.trans (exec_setPixel_pass hx hy v s), exec_getPixel_pass hx' hy' hsame,
      exec_getPixel_pass hx' hy' rfl, rfl⟩

end Sys2Proof.Machine
end

section
/-! PROOFS. WRCHAR: the newline, and a character drawn in its cell (rules R203 to R208). -/

namespace Sys2Proof.Machine

/-! ## The cursor (rules R205, R207) -/

@[simp] theorem nextRow_val (r : Fin 6) : (nextRow r).val = (r.val + 1) % 6 := by
  simp [nextRow]

theorem nextCell_before_last {t : TextCursor} (h : t.tcol.val < 13) :
    (nextCell t).tcol.val = t.tcol.val + 1 ∧ (nextCell t).trow = t.trow := by
  rw [nextCell, if_neg (by omega)]
  exact ⟨Nat.mod_eq_of_lt (by omega), rfl⟩

theorem nextCell_after_last {t : TextCursor} (h : t.tcol.val = 13) :
    (nextCell t).tcol = 0 ∧ (nextCell t).trow.val = (t.trow.val + 1) % 6 := by
  rw [nextCell, if_pos (by omega)]
  exact ⟨rfl, nextRow_val t.trow⟩

/-! ## The glyph of a code (rules R203, R204) -/

theorem glyphOf_listed {p : Params} {c : Byte} {e : Byte × Config.Glyph}
    (h : p.font.find? (fun e => e.1 == c) = some e) : glyphOf p c = e.2 := by
  rw [glyphOf, h]

theorem glyphOf_unlisted {p : Params} {c : Byte}
    (h : p.font.find? (fun e => e.1 == c) = none) : glyphOf p c = Config.solidBlock := by
  rw [glyphOf, h]

theorem solidBlock_getElem {k : Nat} (hk : k < 5) : Config.solidBlock[k] = 0xFF#8 :=
  Vector.getElem_replicate hk

/-! ## WRCHAR (rule R206) -/

/-- W0: a newline completes with the cursor moved. -/
theorem exec_wrChar_newline (s : State) :
    exec (.wrChar Config.newlineCode) s = .next (returnOk 0 (s.setText (newline s.text))) := rfl

@[simp] theorem setUpc_setUpc (s : State) (u v : Option Nat) : (s.setUpc u).setUpc v = s.setUpc v := rfl

@[simp] theorem drawGlyph_text (g : Config.Glyph) (s : State) : (drawGlyph g s).text = s.text := by
  rw [(drawGlyph_spec g s).1.rest]

/-- W1 to W3: another code completes with its glyph drawn and the cursor moved on. UPC stands at W2
while the glyph is drawn. -/
theorem exec_wrChar_glyph {c : Byte} (hc : c ≠ Config.newlineCode) (s : State) :
    exec (.wrChar c) s = .next (returnOk 0
      (((drawGlyph (glyphOf s.params c) (s.setUpc (some 2))).setUpc (some 3)).setText
        (nextCell s.text))) := by
  have h : exec (.wrChar c) s = .next (finish 0 ((Flow.go s).step 0 (fun s =>
      if c = Config.newlineCode then .go (s.setText (newline s.text)) else drawCharacter c s))) := rfl
  rw [h, Flow.step_go, if_neg hc]
  simp only [drawCharacter, Flow.compute, Flow.step_go, finish_go, setUpc_setUpc,
    State.setUpc_params, State.setUpc_text, drawGlyph_text]

/-- Settles O40: only the text cursor is written, to the start of the next row. -/
theorem newlineMovesToNextRow : Obligations.NewlineMovesToNextRow := fun s =>
  ⟨_, exec_wrChar_newline s, rfl, nextRow_val s.text.trow, rfl, rfl⟩

/-- Settles O41: `drawGlyph_spec` says what stands in the cell, what else the drawing leaves alone and
which flag it sets; the cursor then moves by `nextCell`. -/
theorem wrCharDrawsOneCell : Obligations.WrCharDrawsOneCell := fun s c hc => by
  have hexec := exec_wrChar_glyph hc s
  obtain ⟨hdraws, hmarked, hcell, hother⟩ := drawGlyph_spec (glyphOf s.params c) (s.setUpc (some 2))
  generalize drawGlyph (glyphOf s.params c) (s.setUpc (some 2)) = u at hexec hdraws hmarked hcell hother
  refine ⟨_, hexec, fun g hg k hk => ?_, fun hnone k hk => ?_,
    fun a ha => hother a fun k => ha k.val k.isLt, hmarked, hdraws.keeps, nextCell_before_last,
    nextCell_after_last, rfl, ?_⟩
  · rw [← glyphOf_listed hg]
    exact hcell ⟨k, hk⟩
  · rw [← solidBlock_getElem hk, ← glyphOf_unlisted hnone]
    exact hcell ⟨k, hk⟩
  · rw [hdraws.rest]
    rfl

end Sys2Proof.Machine
end

section
/-! PROOFS. The Pixel Drawing Adapter: GEOMETRY and DRAWPIXEL (rules R215 to R217). -/

namespace Sys2Proof.Machine

/-! ## GEOMETRY (rule R216) -/

/-- GEOMETRY does nothing but complete with its value. -/
theorem exec_geometry (s : State) : exec .geometry s = .next (returnOk geometryVal s) := rfl

/-- GEOMETRY's result word: width 84 and height 48 under status Ok (rules R100, R101). -/
theorem resultWord_geometryVal : resultWord geometryVal statusOk = 0x00543000#32 := by decide

/-- Settles O42: the word is GEOMETRY's code, and its completion writes RSLT only. -/
theorem geometryReturnsWidthAndHeight : Obligations.GeometryReturnsWidthAndHeight := by
  refine ⟨decodeOpw_of_encode (i := .geometry) rfl fun _ => rfl, fun s => ?_⟩
  rw [exec_geometry, returnOk, resultWord_geometryVal]
  rfl

/-! ## DRAWPIXEL (rule R217) -/

/-- DRAWPIXEL completes with Ok, its point written when it is in range (DP0, DP1). -/
theorem exec_drawPixel (x y : Byte) (v : Bool) (s : State) : exec (.drawPixel x y v) s =
    .next (returnOk 0 (if inRange x y then writePixel x y v s else s)) := by
  have h : exec (.drawPixel x y v) s = .next (finish 0 ((Flow.go s).step 0 (fun s =>
      if inRange x y then (Flow.go s).step 1 (fun s => .go (writePixel x y v s)) else .go s))) := rfl
  rw [h, Flow.step_go]
  split
  · rw [Flow.step_go, setUpc_setUpc, writePixel_setUpc]
    rfl
  · rfl

/-- DRAWPIXEL in range has the next state of SETPIXEL. -/
theorem exec_drawPixel_inRange {x y : Byte} (hx : x.toNat < 84) (hy : y.toNat < 48) (v : Bool)
    (s : State) : exec (.drawPixel x y v) s = exec (.setPixel x y v) s := by
  rw [exec_drawPixel, if_pos ((inRange_iff x y).2 ⟨hx, hy⟩), exec_setPixel_pass hx hy]

/-- DRAWPIXEL out of range is dropped. -/
theorem exec_drawPixel_dropped {x y : Byte} (h : 84 ≤ x.toNat ∨ 48 ≤ y.toNat) (v : Bool)
    (s : State) : exec (.drawPixel x y v) s = .next (returnOk 0 s) := by
  have hout : ¬ inRange x y = true := by
    rw [inRange_iff]
    omega
  rw [exec_drawPixel, if_neg hout]

/-- Settles O43: in range DRAWPIXEL is SETPIXEL, and with off that is CLRPIXEL. -/
theorem drawPixelDelegatesOrDrops : Obligations.DrawPixelDelegatesOrDrops := by
  refine ⟨fun x y v => ?_, fun s x y => ⟨fun hx hy => ?_, fun hx hy => ?_,
    fun h v => exec_drawPixel_dropped h v s⟩⟩
  · rw [append_eq_opWord]
    exact decodeOpw_of_encode (i := .drawPixel x y v) rfl fun _ => rfl
  · have hset := exec_setPixel_pass hx hy true s
    exact ⟨_, (exec_drawPixel_inRange hx hy true s).trans hset, hset, rfl⟩
  · have hset := exec_setPixel_pass hx hy false s
    exact ⟨_, (exec_drawPixel_inRange hx hy false s).trans hset, (exec_clrPixel x y s).trans hset, rfl⟩

end Sys2Proof.Machine
end

section
/-! PROOFS. The address window: the cursor advance and SETADDR (rules R221 to R223, R249). -/

namespace Sys2Proof.Machine

/-! ## The cursor advance (rules R221, R222) -/

/-- The linear position of a cursor, in the order its addressing mode runs through the 504 addresses
(rule R221). -/
def linearPosition (mode : AddrMode) (c : Cursor) : Nat :=
  match mode with
  | .horizontal => c.band.val * 84 + c.col.val
  | .vertical => c.col.val * 6 + c.band.val

theorem linearPosition_lt (mode : AddrMode) (c : Cursor) : linearPosition mode c < 504 := by
  have hcol := c.col.isLt
  have hband := c.band.isLt
  cases mode <;> simp only [linearPosition] <;> omega

theorem linearPosition_advance (mode : AddrMode) (c : Cursor) :
    linearPosition mode (advance mode c) = (linearPosition mode c + 1) % 504 := by
  obtain ⟨⟨col, hcol⟩, ⟨band, hband⟩⟩ := c
  cases mode with
  | horizontal =>
    simp only [linearPosition, advance, Fin.lt_def, Fin.isValue, Fin.coe_ofNat_eq_mod]
    split_ifs <;> simp only [Fin.val_add, Fin.isValue, Fin.coe_ofNat_eq_mod] <;> omega
  | vertical =>
    simp only [linearPosition, advance, Fin.lt_def, Fin.isValue, Fin.coe_ofNat_eq_mod]
    split_ifs <;> simp only [Fin.val_add, Fin.isValue, Fin.coe_ofNat_eq_mod] <;> omega

theorem linearPosition_advanceN (mode : AddrMode) (n : Nat) (c : Cursor) :
    linearPosition mode (advanceN mode n c) = (linearPosition mode c + n) % 504 := by
  induction n generalizing c with
  | zero => exact (Nat.mod_eq_of_lt (linearPosition_lt mode c)).symm
  | succ n ih => rw [advanceN, ih, linearPosition_advance]; omega

/-- Settles O10: adv is the successor of the linear position, so 84 steps add 84 to it. -/
theorem cursorAdvanceIsSuccessor : Obligations.CursorAdvanceIsSuccessor := by
  refine ⟨linearPosition_advance .horizontal, linearPosition_advance .vertical, fun b => ?_,
    fun b => ?_⟩
  · have h := linearPosition_advanceN .horizontal 84 { col := 0, band := b }
    generalize advanceN .horizontal 84 { col := 0, band := b } = c at h
    simp only [linearPosition, Fin.isValue, Fin.val_zero] at h
    exact ⟨Fin.ext (by simp only [Fin.isValue, Fin.val_zero]; omega), by omega⟩
  · have h := linearPosition_advanceN .vertical 84 { col := 0, band := b }
    generalize advanceN .vertical 84 { col := 0, band := b } = c at h
    obtain ⟨col, band⟩ := c
    simp only [linearPosition, Fin.isValue, Fin.val_zero] at h
    simp only [Cursor.mk.injEq, Fin.ext_iff, Fin.isValue, Fin.coe_ofNat_eq_mod]
    omega

/-! ## SETADDR (rules R223, R249) -/

/-- The flow of SETADDR (rule R223, A0 to A3). -/
def setAddrFlow (band col : Byte) (s : State) : Flow :=
  guardState .basic s
    |>.step 1 (guardAddr band col)
    |>.step 2 (sendAddress (cursorOf band col))
    |>.step 3 (fun s => .go (s.setCur (cursorOf band col)))

theorem exec_setAddr (band col : Byte) (s : State) :
    exec (.setAddr band col) s = .next (finish 0 (setAddrFlow band col s)) := rfl

theorem addrInRange_iff (band col : Byte) :
    addrInRange band col = true ↔ band.toNat < 6 ∧ col.toNat < 84 := by
  simp [addrInRange]

/-- The frame SETADDR sends for operands in range: the row byte, then the column byte. -/
def setAddrBytes (e : Enc) (band col : Byte) : List Byte :=
  [byteSETY e (band.setWidth 3), byteSETX e (col.setWidth 7)]

section

variable {band col : Byte} {s : State}

theorem setAddrFlow_refused (hc : s.ctrl ≠ .basic) :
    setAddrFlow band col s = .raised .invalidState (s.setUpc (some 0)) := by
  rw [setAddrFlow, guardState_refuse hc]
  rfl

/-- A1 ends SETADDR before anything is sent. -/
theorem setAddrFlow_outOfRange (hc : s.ctrl = .basic) (h : 6 ≤ band.toNat ∨ 84 ≤ col.toNat) :
    setAddrFlow band col s = .raised .outOfBounds (s.setUpc (some 1)) := by
  have hout : ¬ addrInRange band col = true := by
    rw [addrInRange_iff]
    omega
  rw [setAddrFlow, guardState_pass hc, Flow.step_go, guardAddr, if_neg hout]
  rfl

variable (hb : band.toNat < 6) (hcol : col.toNat < 84)

include hb hcol

theorem cursorOf_inRange : cursorOf band col =
    { col := ⟨col.toNat, hcol⟩, band := ⟨band.toNat, hb⟩ } := by
  rw [cursorOf, Cursor.mk.injEq]
  exact ⟨Fin.ext (Nat.mod_eq_of_lt hcol), Fin.ext (Nat.mod_eq_of_lt hb)⟩

theorem addressBytes_cursorOf (e : Enc) :
    addressBytes e (cursorOf band col) = setAddrBytes e band col := by
  rw [cursorOf_inRange hb hcol, addressBytes, setAddrBytes, BitVec.ofNat_toNat, BitVec.ofNat_toNat]

/-- In Basic and in range, SETADDR is its one frame, and then the mirror of the address. -/
theorem setAddrFlow_pass (hc : s.ctrl = .basic) : setAddrFlow band col s =
    (frame false (setAddrBytes s.params.enc band col) (s.setUpc (some 2))).step 3
      (fun s => .go (s.setCur (cursorOf band col))) := by
  rw [setAddrFlow, guardState_pass hc, Flow.step_go, guardAddr,
    if_pos ((addrInRange_iff band col).2 ⟨hb, hcol⟩), Flow.step_go, sendAddress, sendCommands,
    State.setUpc_params, addressBytes_cursorOf hb hcol]
  rfl

theorem exec_setAddr_ok (hc : s.ctrl = .basic) (h : answersOk (frameActions s.params) s.env) :
    exec (.setAddr band col) s = .next { s with
      cur := { col := ⟨col.toNat, hcol⟩, band := ⟨band.toNat, hb⟩ }
      lt := s.lt ++ frameEvents s.params false (setAddrBytes s.params.enc band col)
      wire := s.wire ++ chipBytes false (setAddrBytes s.params.enc band col)
      lines := frameLines s.params false s.lines
      env := skipAnswers (frameActions s.params) s.env
      rslt := 0x00000000#32, txb := [], upc := none } := by
  rw [exec_setAddr, setAddrFlow_pass hb hcol hc, frame_ok _ _ (by exact h), cursorOf_inRange hb hcol]
  rfl

theorem exec_setAddr_fail (hc : s.ctrl = .basic) (h : ¬ answersOk (frameActions s.params) s.env) :
    ∃ t, exec (.setAddr band col) s = .next t ∧ t.rslt = 0x00000001#32 ∧
      (∃ l ∈ failedFrameEvents s.params false (setAddrBytes s.params.enc band col),
        t.lt = s.lt ++ l) ∧
      t = { s with lines := t.lines, lt := t.lt, env := t.env, wire := t.wire, rslt := t.rslt,
                   txb := [], upc := none } := by
  obtain ⟨t, hf, hl, -, hlt⟩ := frame_fail (s := s.setUpc (some 2)) false
    (setAddrBytes s.params.enc band col) h
  have hs : OnLines s t := (OnLines.setUpc s _).trans hl.onLines
  refine ⟨raiseError .busError t, ?_, rfl, hlt, ?_⟩
  · rw [exec_setAddr, setAddrFlow_pass hb hcol hc, hf, Flow.step_raised, finish_raised]
  · rw [hs.raiseError]

end

/-- Settles O35: the guard, then the range, then the one frame, and last the mirror. -/
theorem setAddrSendsThenMirrors : Obligations.SetAddrSendsThenMirrors := by
  refine fun s band col => ⟨fun hc hb hcol => exec_setAddr_ok hb hcol hc,
    fun hc hb hcol => exec_setAddr_fail hb hcol hc, fun hc h => ?_, fun hc => ?_⟩
  · rw [exec_setAddr, setAddrFlow_outOfRange hc h]
    rfl
  · rw [exec_setAddr, setAddrFlow_refused hc]
    rfl

end Sys2Proof.Machine
end

section
/-! PROOFS. The DDRAM write sequencer: FLUSH whole and cut short (rules R226 to R229). -/

namespace Sys2Proof.Machine

/-! ## FLUSH with every line action answered ok (rules R226, R229) -/

theorem mem_allBands (b : Fin 6) : b ∈ ([0, 1, 2, 3, 4, 5] : List (Fin 6)) := by
  revert b; decide

theorem mem_sentBands {s : State} {b : Fin 6} :
    b ∈ sentBands s ↔ s.params.flushAll = true ∨ isDirty s b = true := by
  rw [sentBands, List.mem_filter, and_iff_right (mem_allBands b), Bool.or_eq_true]

/-- The one flag of the whole buffer is read for every band (rule R228). -/
theorem isDirty_whole {s : State} (hg : s.params.granule = .whole) (b c : Fin 6) :
    isDirty s b = isDirty s c := by
  simp [isDirty, hg]

/-- With one flag for the whole buffer, FLUSH that sends a band sends all six (rule R228). -/
theorem sentBands_whole {s : State} (hg : s.params.granule = .whole) {b : Fin 6}
    (hb : b ∈ sentBands s) : sentBands s = [0, 1, 2, 3, 4, 5] := by
  refine List.filter_eq_self.2 fun c _ => ?_
  rw [mem_sentBands, isDirty_whole hg b c] at hb
  simpa using hb

/-- No band is dirty once the bands to be sent have been sent. -/
theorem isDirty_afterBands_sentBands (s : State) (b : Fin 6) :
    isDirty (afterBands (sentBands s) s) b = false := by
  have hclean : b ∉ sentBands s → isDirty s b = false := fun hb => by
    rw [mem_sentBands, not_or] at hb
    simpa using hb.2
  cases hg : s.params.granule with
  | band =>
    rw [isDirty_afterBands hg]
    split_ifs with hb
    · rfl
    · exact hclean hb
  | whole =>
    by_cases hb : b ∈ sentBands s
    · exact isDirty_afterBands_whole hg (by rw [sentBands_whole hg hb]; decide) b
    · have hnone : sentBands s = [] := List.eq_nil_iff_forall_not_mem.2 fun c hc =>
        hb (by rw [sentBands_whole hg hc]; exact mem_allBands b)
      rw [hnone]
      exact hclean hb

theorem afterBands_params (l : List (Fin 6)) (s : State) : (afterBands l s).params = s.params := by
  rw [afterBands_rest]

theorem afterBands_lt (l : List (Fin 6)) (s : State) :
    (afterBands l s).lt = s.lt ++ l.flatMap (bandEvents s.params s.fb) := by
  rw [afterBands_rest]

theorem afterBands_cur (l : List (Fin 6)) (s : State) :
    (afterBands l s).cur = cursorAfter s.cfg.addrmode l s.cur := by
  rw [afterBands_rest]

/-- Settles O36: FLUSH completes where sending the bands to be sent leads. -/
theorem flushSendsExactlyDirtyBands : Obligations.FlushSendsExactlyDirtyBands := by
  refine fun s hc h => ⟨_, exec_flush_ok hc h, afterBands_lt _ s, isDirty_afterBands_sentBands s,
    afterBands_cur _ s, rfl, ?_⟩
  rw [afterBands_rest]
  rfl

/-! ## FLUSH cut short (rules R227, R228) -/

/-- The step number plays no part in the flags that sending bands leaves. -/
theorem afterBands_setUpc_dirty (l : List (Fin 6)) (s : State) (u : Option Nat) :
    (afterBands l (s.setUpc u)).dirty = (afterBands l s).dirty := by
  simpa only [State.setUpc_dirty] using congrArg State.dirty (afterBands_setUpc l s u none)

theorem OnLines.cur {s t : State} (h : OnLines s t) : t.cur = s.cur := by rw [h.rest]
theorem OnLines.dirty {s t : State} (h : OnLines s t) : t.dirty = s.dirty := by rw [h.rest]

/-- Where FLUSH's loop stopped, the bands sent have left all but CUR and the lines. -/
theorem FailedBands.onLines {l sent left : List (Fin 6)} {s t : State} {b : Fin 6}
    (h : FailedBands l s t sent b left) : OnLines ((afterBands sent s).setCur t.cur) t := by
  by_cases ha : answersOk (2 * frameActions s.params * sent.length + frameActions s.params) s.env
  · have hl := (h.data ha).1
    rwa [hl.cur]
  · have hl := (h.address ha).1
    rwa [hl.cur]

/-- FLUSH has gone from s to t and completed there with BusError: of the bands to be sent, `sent`
have been sent, b failed in its address frame or in its data frame, and `left` were not begun (rule
R227). -/
structure FlushStopped (s t : State) (sent : List (Fin 6)) (b : Fin 6) (left : List (Fin 6)) :
    Prop where
  exec : exec .flush s = .next t
  rslt : t.rslt = 0x00000001#32
  bands : sentBands s = sent ++ b :: left
  before : answersOk (2 * frameActions s.params * sent.length) s.env
  failed : ¬ answersOk (2 * frameActions s.params * (sent.length + 1)) s.env
  dirty : t.dirty = (afterBands sent s).dirty
  address : ¬ answersOk (2 * frameActions s.params * sent.length + frameActions s.params) s.env →
    t.cur = cursorAfter s.cfg.addrmode sent s.cur ∧
      ∃ l ∈ failedFrameEvents s.params false (addressBytes s.params.enc { col := 0, band := b }),
        t.lt = s.lt ++ sent.flatMap (bandEvents s.params s.fb) ++ l
  data : answersOk (2 * frameActions s.params * sent.length + frameActions s.params) s.env →
    t.cur = { col := 0, band := b } ∧
      ∃ l ∈ failedFrameEvents s.params true (bandBytes s.fb b),
        t.lt = s.lt ++ sent.flatMap (bandEvents s.params s.fb) ++
          frameEvents s.params false (addressBytes s.params.enc { col := 0, band := b }) ++ l
  rest : t = { s with dirty := t.dirty, cur := t.cur, lines := t.lines, lt := t.lt, env := t.env,
                      wire := t.wire, rslt := t.rslt, txb := [], upc := none }

/-- FLUSH with a failing line action stops in the frame `flushBands_fail` names. -/
theorem exec_flush_fail {s : State} (hc : s.ctrl = .basic)
    (h : ¬ answersOk (2 * frameActions s.params * (sentBands s).length) s.env) :
    ∃ t sent b left, FlushStopped s t sent b left := by
  obtain ⟨t, sent, b, left, hf⟩ :=
    flushBands_fail (l := [0, 1, 2, 3, 4, 5]) (by decide) (s := s.setUpc (some 0)) h
  have hraise := hf.onLines.raiseError .busError
  have hexec : exec .flush s =
      .next (finish 0 ((guardState .basic s).andThen (flushBands [0, 1, 2, 3, 4, 5]))) := rfl
  have hdirty : t.dirty = (afterBands sent s).dirty :=
    hf.onLines.dirty.trans (afterBands_setUpc_dirty sent s _)
  refine ⟨raiseError .busError t, sent, b, left, ?_, rfl, hf.bands, hf.before, hf.failed, hdirty,
    fun ha => ?_, fun ha => ?_, ?_⟩
  · rw [hexec, guardState_pass hc, Flow.andThen_go, hf.flow, finish_raised]
  · obtain ⟨hl, e, he, hlt⟩ := hf.address ha
    rw [afterBands_lt] at hlt
    exact ⟨hl.cur.trans (afterBands_cur sent _), e, he, hlt⟩
  · obtain ⟨hl, e, he, hlt⟩ := hf.data ha
    rw [afterBands_lt, ← List.append_assoc] at hlt
    exact ⟨hl.cur, e, he, hlt⟩
  · rw [hraise, afterBands_rest]
    rfl

/-- Only the flags and their granularity say which bands are dirty. -/
theorem isDirty_congr {s t : State} (hp : t.params = s.params) (hd : t.dirty = s.dirty) (b : Fin 6) :
    isDirty t b = isDirty s b := by
  rw [isDirty, isDirty, hp, hd]

section

variable {s t : State} {sent left : List (Fin 6)} {b : Fin 6} (h : FlushStopped s t sent b left)

include h

theorem FlushStopped.params : t.params = s.params := by rw [h.rest]

/-- With one flag for each band, the flags of the bands sent are clear and the others as they were. -/
theorem FlushStopped.isDirty_band (hg : s.params.granule = .band) (c : Fin 6) :
    isDirty t c = if c ∈ sent then false else isDirty s c := by
  rw [isDirty_congr (h.params.trans (afterBands_params sent s).symm) h.dirty, isDirty_afterBands hg]

/-- With one flag for the whole buffer the flag stands: band 5, which clears it, has not been sent. -/
theorem FlushStopped.dirty_whole (hg : s.params.granule = .whole) : t.dirty = s.dirty :=
  h.dirty.trans (dirty_afterBands_whole hg (last_not_sent h.bands))

end

/-- Settles O37: where FLUSH stopped, read off the flags of the bands sent. -/
theorem failedFlushCanResume : Obligations.FailedFlushCanResume := by
  intro s hc hg ha
  obtain ⟨t, sent, b, left, h⟩ := exec_flush_fail hc ha
  exact ⟨t, sent, b, left, h.exec, h.rslt, h.bands, h.before, h.failed,
    fun c hsent => (h.isDirty_band hg c).trans (if_pos hsent),
    fun c hleft => (h.isDirty_band hg c).trans (if_neg hleft), h.address, h.data, h.rest⟩

/-- Settles O38: where FLUSH stopped, all six bands were to be sent, and with the flag as it was all
six are to be sent again. -/
theorem failedWholeBufferFlushSendsAllAgain : Obligations.FailedWholeBufferFlushSendsAllAgain := by
  intro s hc hg ha
  obtain ⟨t, sent, b, left, h⟩ := exec_flush_fail hc ha
  have hflag : ∀ c, isDirty t c = isDirty s c := isDirty_congr h.params (h.dirty_whole hg)
  have hbs : b ∈ sentBands s := by simp [h.bands]
  have hbt : b ∈ sentBands t := by rwa [mem_sentBands, h.params, hflag, ← mem_sentBands]
  have hrest := h.rest
  rw [h.dirty_whole hg] at hrest
  exact ⟨t, sent, b, left, h.exec, h.rslt, (sentBands_whole hg hbs).symm.trans h.bands, h.before,
    h.failed, hflag, sentBands_whole (h.params ▸ hg) hbt, h.address, h.data, hrest⟩

end Sys2Proof.Machine
end

section
/-! PROOFS. How every operation completes: the state guards, the range checks, and the errors of the
reset line and of the bus (rules R240 to R252). -/

namespace Sys2Proof.Machine

/-! ## The guards (rules R243, R244, R252) -/

/-- The range checks of rule R243: whether an operation's coordinates, or its address, are in range. -/
def operandsInRange : Instr → Bool
  | .setPixel x y _ | .clrPixel x y | .getPixel x y => inRange x y
  | .setAddr band col => addrInRange band col
  | _ => true

theorem inRange_eq_false_iff {x y : Byte} :
    inRange x y = false ↔ 84 ≤ x.toNat ∨ 48 ≤ y.toNat := by
  rw [← Bool.not_eq_true, inRange_iff]
  omega

theorem addrInRange_eq_false_iff {band col : Byte} :
    addrInRange band col = false ↔ 6 ≤ band.toNat ∨ 84 ≤ col.toNat := by
  rw [← Bool.not_eq_true, addrInRange_iff]
  omega

theorem exec_flush_refused {s : State} (hc : s.ctrl ≠ .basic) :
    exec .flush s = .next (raiseError .invalidState s) := by
  have h : exec .flush s =
      .next (finish 0 ((guardState .basic s).andThen (flushBands [0, 1, 2, 3, 4, 5]))) := rfl
  rw [h, guardState_refuse hc]
  rfl

/-- In a state the table of rule R252 refuses, an operation does nothing but raise InvalidState. -/
theorem exec_invalidState {i : Instr} {s : State} (h : allowedIn i s.ctrl = false) :
    exec i s = .next (raiseError .invalidState s) := by
  cases i with
  | init => exact (initSendsSixCommands s).2 (of_decide_eq_false h)
  | setContrast a => exact (setContrastSendsAndRecords s a).2 (of_decide_eq_false h)
  | setBias a => exact (setBiasSendsAndRecords s a).2 (of_decide_eq_false h)
  | setTc a => exact (setTcSendsAndRecords s a).2 (of_decide_eq_false h)
  | pwrDown => exact exec_power_refused (exec_pwrDown s) (of_decide_eq_false h)
  | pwrUp => exact exec_power_refused (exec_pwrUp s) (of_decide_eq_false h)
  | setAddr band col =>
    rw [exec_setAddr, setAddrFlow_refused (of_decide_eq_false h)]
    rfl
  | flush => exact exec_flush_refused (of_decide_eq_false h)
  | _ => cases h

/-- With an operand out of range, an operation whose guard has passed does nothing but raise
OutOfBounds. -/
theorem exec_outOfBounds {i : Instr} {s : State} (ha : allowedIn i s.ctrl = true)
    (h : operandsInRange i = false) : exec i s = .next (raiseError .outOfBounds s) := by
  cases i with
  | setPixel x y v => exact exec_setPixel_refuse (inRange_eq_false_iff.1 h) v s
  | clrPixel x y => exact exec_setPixel_refuse (inRange_eq_false_iff.1 h) false s
  | getPixel x y => exact exec_getPixel_refuse (inRange_eq_false_iff.1 h) s
  | setAddr band col =>
    rw [exec_setAddr, setAddrFlow_outOfRange (of_decide_eq_true ha) (addrInRange_eq_false_iff.1 h)]
    rfl
  | _ => cases h

/-! ## Past the guards: only a frame raises, and a frame raises BusError (rules R124, R242) -/

namespace Flow.CleanRaise

theorem go (s : State) : (Flow.go s).CleanRaise := fun _ _ h => by cases h

theorem step {f : Flow} {g : State → Flow} (hf : f.CleanRaise) (n : Nat)
    (hg : ∀ t, (g t).CleanRaise) : (f.step n g).CleanRaise :=
  hf.andThen fun _ => hg _

/-- Such a flow completes with Ok or with BusError. -/
theorem status {f : Flow} (hf : f.CleanRaise) (v : BitVec 16) :
    resultStatus (finish v f).rslt = 0#8 ∨ resultStatus (finish v f).rslt = 1#8 := by
  cases f with
  | go t => exact .inl (resultStatus_go v t)
  | raised e t =>
    obtain ⟨-, rfl⟩ := hf e t rfl
    exact .inr (resultStatus_raised v .busError t)

end Flow.CleanRaise

theorem guardState_clean {c : CtrlState} {s : State} (h : s.ctrl = c) :
    (guardState c s).CleanRaise :=
  guardState_pass h ▸ .go _

theorem initFlow_clean {s : State} (hc : s.ctrl = .inReset) : (initFlow s).CleanRaise :=
  have hsend (b : State → Byte) : ∀ t, (sendCommand (b t) t).CleanRaise := fun _ => frame_clean _ _ _
  (((((((guardState_clean hc).step 1 fun _ => (frame_clean _ _ _).update).step 2 (hsend _)).step 3
    (hsend _)).step 4 (hsend _)).step 5 (hsend _)).step 6 (hsend _)).step 7 fun _ => .go _

theorem configFlow_clean {s : State} (hc : s.ctrl = .basic) (b : Byte) (record : Cfg → Cfg) :
    (configFlow b record s).CleanRaise :=
  (((((guardState_clean hc).step 1 fun _ => (frame_clean _ _ _).update).step 2
    fun _ => (frame_clean _ _ _).update).step 3 fun _ => frame_clean _ _ _).step 4
      fun _ => frame_clean _ _ _).step 5 fun _ => .go _

theorem powerFlow_clean {want : CtrlState} {s : State} (hc : s.ctrl = want) (next : CtrlState)
    (pd : Bool) : (powerFlow want next pd s).CleanRaise :=
  ((guardState_clean hc).step 1 fun _ => frame_clean _ _ _).step 2 fun _ => .go _

theorem setAddrFlow_clean {band col : Byte} {s : State} (hc : s.ctrl = .basic)
    (h : addrInRange band col = true) : (setAddrFlow band col s).CleanRaise := by
  have haddr (t : State) : (guardAddr band col t).CleanRaise := by
    rw [guardAddr, if_pos h]
    exact .go t
  exact (((guardState_clean hc).step 1 haddr).step 2 fun _ => frame_clean _ _ _).step 3 fun _ => .go _

theorem flushBand_clean (b : Fin 6) (s : State) : (flushBand b s).CleanRaise := by
  have hsend (t : State) : (sendBand b t).CleanRaise :=
    (((Flow.CleanRaise.go t).step 2 fun _ => (frame_clean _ _ _).update).step 3
      fun _ => (frame_clean _ _ _).update).step 4 fun _ => .go _
  refine (Flow.CleanRaise.go s).step 1 fun t => ?_
  split
  · exact hsend t
  · exact .go t

theorem flushBands_clean (l : List (Fin 6)) (s : State) : (flushBands l s).CleanRaise := by
  induction l generalizing s with
  | nil => exact .go s
  | cons b l ih => exact (flushBand_clean b s).andThen ih

/-- Past its guard and its range check, an operation other than RESET completes with Ok or BusError. -/
theorem exec_okOrBusError {i : Instr} {s : State} (hi : i.isOperation = true) (hr : i ≠ .reset)
    (ha : allowedIn i s.ctrl = true) (ho : operandsInRange i = true) :
    ∃ t, exec i s = .next t ∧ (resultStatus t.rslt = 0#8 ∨ resultStatus t.rslt = 1#8) := by
  cases i with
  | reset => exact absurd rfl hr
  | init => exact ⟨_, rfl, (initFlow_clean (of_decide_eq_true ha)).status 0⟩
  | setContrast a | setBias a | setTc a =>
    exact ⟨_, rfl, (configFlow_clean (of_decide_eq_true ha) _ _).status 0⟩
  | pwrDown | pwrUp => exact ⟨_, rfl, (powerFlow_clean (of_decide_eq_true ha) _ _).status 0⟩
  | setPixel x y v =>
    obtain ⟨hx, hy⟩ := (inRange_iff x y).1 ho
    exact ⟨_, exec_setPixel_pass hx hy v s, .inl (resultStatus_go 0 s)⟩
  | clrPixel x y =>
    obtain ⟨hx, hy⟩ := (inRange_iff x y).1 ho
    exact ⟨_, exec_setPixel_pass hx hy false s, .inl (resultStatus_go 0 s)⟩
  | getPixel x y =>
    obtain ⟨hx, hy⟩ := (inRange_iff x y).1 ho
    exact ⟨_, exec_getPixel_pass hx hy rfl, .inl (resultStatus_go _ s)⟩
  | clear => exact ⟨_, exec_clear s, .inl (resultStatus_go 0 s)⟩
  | setAddr band col => exact ⟨_, rfl, (setAddrFlow_clean (of_decide_eq_true ha) ho).status 0⟩
  | flush =>
    exact ⟨_, rfl, ((guardState_clean (of_decide_eq_true ha)).andThen (flushBands_clean _)).status 0⟩
  | wrChar c =>
    by_cases hc : c = Config.newlineCode
    · subst hc
      exact ⟨_, exec_wrChar_newline s, .inl (resultStatus_go 0 s)⟩
    · exact ⟨_, exec_wrChar_glyph hc s, .inl (resultStatus_go 0 s)⟩
  | geometry => exact ⟨_, exec_geometry s, .inl (resultStatus_go _ s)⟩
  | drawPixel x y v => exact ⟨_, exec_drawPixel x y v s, .inl (resultStatus_go 0 s)⟩
  | cmdFunctionSet | cmdDisplayControl | cmdSetY | cmdSetX | cmdSetTc | cmdSetBias | cmdSetVop
  | data => cases hi

/-! ## RESET (rule R162) -/

theorem exec_reset_ok {s : State} (h : answersAre [true, true] s.env) :
    ∃ t, exec .reset s = .next t ∧ resultStatus t.rslt = 0#8 ∧ t.ctrl = .inReset :=
  ⟨_, exec_reset s, by rw [resetFlow_ok h]; exact ⟨resultStatus_go 0 s, rfl⟩⟩

theorem exec_reset_pinError {s : State} (h : ¬ answersAre [true, true] s.env) :
    ∃ t, exec .reset s = .next t ∧ resultStatus t.rslt = 2#8 ∧ t.ctrl = .uninitialized := by
  obtain ⟨e, w, u, hf, -⟩ := resetFlow_fail h
  exact ⟨_, exec_reset s, by rw [hf]; exact ⟨resultStatus_raised 0 .pinError s, rfl⟩⟩

/-! ## Every completion (rules R240 to R249) -/

/-- How an operation i of s completes in t: by a guard, by the range check after it, by a failed drive
of the reset line, or otherwise with Ok or BusError. -/
inductive Completion (i : Instr) (s t : State) : Prop
  | invalidState (guard : allowedIn i s.ctrl = false) (refused : t = raiseError .invalidState s)
  | outOfBounds (guard : allowedIn i s.ctrl = true) (range : operandsInRange i = false)
      (refused : t = raiseError .outOfBounds s)
  | pinError (reset : i = .reset) (drive : ¬ answersAre [true, true] s.env)
      (status : resultStatus t.rslt = 2#8)
  | okOrBusError (guard : allowedIn i s.ctrl = true) (range : operandsInRange i = true)
      (drive : i = .reset → answersAre [true, true] s.env)
      (status : resultStatus t.rslt = 0#8 ∨ resultStatus t.rslt = 1#8)

theorem exec_completion {i : Instr} (hi : i.isOperation = true) (s : State) :
    ∃ t, exec i s = .next t ∧ Completion i s t := by
  by_cases hr : i = .reset
  · subst hr
    by_cases h : answersAre [true, true] s.env
    · obtain ⟨t, he, hst, -⟩ := exec_reset_ok h
      exact ⟨t, he, .okOrBusError rfl rfl (fun _ => h) (.inl hst)⟩
    · obtain ⟨t, he, hst, -⟩ := exec_reset_pinError h
      exact ⟨t, he, .pinError rfl h hst⟩
  · cases ha : allowedIn i s.ctrl with
    | false => exact ⟨_, exec_invalidState ha, .invalidState ha rfl⟩
    | true =>
      cases ho : operandsInRange i with
      | false => exact ⟨_, exec_outOfBounds ha ho, .outOfBounds ha ho rfl⟩
      | true =>
        obtain ⟨t, he, hst⟩ := exec_okOrBusError hi hr ha ho
        exact ⟨t, he, .okOrBusError ha ho (fun h => absurd h hr) hst⟩

theorem resultStatus_raiseError (e : ErrorCode) (s : State) :
    resultStatus (raiseError e s).rslt = e.status := resultStatus_raised 0 e s

namespace Completion

variable {i : Instr} {s t : State} (h : Completion i s t)

include h

theorem invalidState_iff : resultStatus t.rslt = 4#8 ↔ allowedIn i s.ctrl = false := by
  cases h with
  | invalidState ha ht => simp [ht, ha, resultStatus_raiseError, ErrorCode.status]
  | outOfBounds ha _ ht => simp [ht, ha, resultStatus_raiseError, ErrorCode.status]
  | pinError hi _ hst => simp [hst, hi, allowedIn]
  | okOrBusError ha _ _ hst => rcases hst with hst | hst <;> simp [hst, ha]

theorem pinError_iff :
    resultStatus t.rslt = 2#8 ↔ i = .reset ∧ ¬ answersAre [true, true] s.env := by
  cases h with
  | invalidState ha ht =>
    have hi : i ≠ .reset := fun hi => by subst hi; cases ha
    simp [ht, hi, resultStatus_raiseError, ErrorCode.status]
  | outOfBounds _ ho ht =>
    have hi : i ≠ .reset := fun hi => by subst hi; cases ho
    simp [ht, hi, resultStatus_raiseError, ErrorCode.status]
  | pinError hi hd hst => exact iff_of_true hst ⟨hi, hd⟩
  | okOrBusError _ _ hd hst =>
    have hn : ¬ (i = .reset ∧ ¬ answersAre [true, true] s.env) := fun ⟨hi, hno⟩ => hno (hd hi)
    rcases hst with hst | hst <;> exact iff_of_false (by simp [hst]) hn

theorem outOfBounds_iff : resultStatus t.rslt = 3#8 ↔
    allowedIn i s.ctrl = true ∧ operandsInRange i = false := by
  cases h with
  | invalidState ha ht => simp [ht, ha, resultStatus_raiseError, ErrorCode.status]
  | outOfBounds ha ho ht => simp [ht, ha, ho, resultStatus_raiseError, ErrorCode.status]
  | pinError hi _ hst => simp [hst, hi, operandsInRange]
  | okOrBusError _ ho _ hst => rcases hst with hst | hst <;> simp [hst, ho]

end Completion

/-- The operations rule R243 names, with their operands out of range, are those the range check ends
once the guard has passed. -/
theorem outOfRange_iff (i : Instr) (c : CtrlState) :
    allowedIn i c = true ∧ operandsInRange i = false ↔
      (∃ x y v, i = .setPixel x y v ∧ (84 ≤ x.toNat ∨ 48 ≤ y.toNat)) ∨
      (∃ x y, i = .clrPixel x y ∧ (84 ≤ x.toNat ∨ 48 ≤ y.toNat)) ∨
      (∃ x y, i = .getPixel x y ∧ (84 ≤ x.toNat ∨ 48 ≤ y.toNat)) ∨
      (∃ band col, i = .setAddr band col ∧ c = .basic ∧ (6 ≤ band.toNat ∨ 84 ≤ col.toNat)) := by
  cases i with
  | setPixel x y v | clrPixel x y | getPixel x y =>
    simp [allowedIn, operandsInRange, inRange_eq_false_iff]
  | setAddr band col => simp [allowedIn, operandsInRange, addrInRange_eq_false_iff]
  | _ => simp [operandsInRange]

/-- Settles O31: a refused operation only raises InvalidState (`exec_invalidState`), and no other
completion has that status. -/
theorem stateGuardsAsTabled : Obligations.StateGuardsAsTabled := by
  refine fun i s hi => ⟨exec_invalidState, fun ha hx hu => ?_, fun ha => ?_⟩
  · rw [exec_invalidState ha]
    obtain ⟨⟩ := s
    subst hx hu
    rfl
  · obtain ⟨t, he, hc⟩ := exec_completion hi s
    exact ⟨t, he, fun h4 => by simp [hc.invalidState_iff.1 h4] at ha⟩

/-- Settles O32: PinError is a failed drive of RESET, and a frame that fails raises BusError. -/
theorem pinErrorOnlyFromReset : Obligations.PinErrorOnlyFromReset := by
  refine ⟨fun i s hi => ?_, fun s dc bytes h => ?_⟩
  · obtain ⟨t, he, hc⟩ := exec_completion hi s
    exact ⟨t, he, hc.pinError_iff⟩
  · obtain ⟨t, hf, -⟩ := frame_fail dc bytes h
    exact ⟨t, hf⟩

/-- Settles O33: OutOfBounds is the range check's, after the guard, and it writes RSLT only. -/
theorem outOfBoundsExactlyWhenOutOfRange : Obligations.OutOfBoundsExactlyWhenOutOfRange := by
  intro i s hi
  obtain ⟨t, he, hc⟩ := exec_completion hi s
  refine ⟨t, he, hc.outOfBounds_iff.trans (outOfRange_iff i s.ctrl), fun h3 => ?_⟩
  obtain ⟨ha, ho⟩ := hc.outOfBounds_iff.1 h3
  exact Host.Outcome.next.inj (he.symm.trans (exec_outOfBounds ha ho))

/-! ## The transitions of STATE (rule R253) -/

/-- The rows of an operation that goes through the extended instruction set: INIT, and the
configuration operations. -/
def SequenceRow (want : CtrlState) (s t : State) : Prop :=
  (resultStatus t.rslt = 0#8 ∧ s.ctrl = want ∧ t.ctrl = .basic) ∨
  (resultStatus t.rslt = 1#8 ∧ s.ctrl = want ∧
    ¬ answersOk (frameActions s.params) s.env ∧ t.ctrl = want) ∨
  (resultStatus t.rslt = 1#8 ∧ s.ctrl = want ∧
    answersOk (frameActions s.params) s.env ∧ t.ctrl = .extendedConfig) ∨
  (resultStatus t.rslt = 4#8 ∧ t.ctrl = s.ctrl)

/-- The rows of power control. -/
def PowerRow (want next : CtrlState) (s t : State) : Prop :=
  (resultStatus t.rslt = 0#8 ∧ s.ctrl = want ∧ t.ctrl = next) ∨
  (resultStatus t.rslt = 1#8 ∧ s.ctrl = want ∧ t.ctrl = want) ∨
  (resultStatus t.rslt = 4#8 ∧ t.ctrl = s.ctrl)

section

variable {s t : State}

/-- Frames that set STATE to ExtendedConfig after the first, and a last step that sets it to Basic. -/
theorem Flow.Sends.sequenceRow {base : Nat → State} {bs : List Byte} {f : Flow} {want : CtrlState}
    (hf : f.Sends s base bs) (hc : s.ctrl = want) (hfirst : (base 0).ctrl = want)
    (hlater : ∀ n, (base (n + 1)).ctrl = .extendedConfig) (k : Nat) {u : State → State}
    (hu : ∀ t, (u t).ctrl = .basic) : SequenceRow want s (finish 0 (f.step k fun t => .go (u t))) := by
  cases f with
  | go t => exact .inl ⟨resultStatus_go 0 t, hc, hu _⟩
  | raised e t =>
    obtain ⟨rfl, n, -, hl, hok, hno, -⟩ := hf
    have hst := resultStatus_raiseError .busError t
    cases n with
    | zero =>
      rw [Nat.zero_add, Nat.one_mul] at hno
      exact .inr (.inl ⟨hst, hc, hno, hl.ctrl.trans hfirst⟩)
    | succ n =>
      have hone : answersOk (frameActions s.params) s.env :=
        answersOk_mono (Nat.le_mul_of_pos_left _ n.succ_pos) hok
      exact .inr (.inr (.inl ⟨hst, hc, hone, hl.ctrl.trans (hlater n)⟩))

theorem exec_init_sequenceRow (h : exec .init s = .next t) : SequenceRow .inReset s t := by
  by_cases hc : s.ctrl = .inReset
  · rw [exec_init, initFlow_eq] at h
    obtain rfl := Host.Outcome.next.inj h
    exact (initFrames_sends hc).sequenceRow hc hc (fun _ => rfl) 7 fun _ => rfl
  · obtain rfl := Host.Outcome.next.inj (((initSendsSixCommands s).2 hc).symm.trans h)
    exact .inr (.inr (.inr ⟨rfl, rfl⟩))

theorem configBase_later_ctrl (record : Cfg → Cfg) (s : State) (n : Nat) :
    (configBase record s (n + 1)).ctrl = .extendedConfig := by
  rw [configBase_eq]
  rfl

theorem configFlow_sequenceRow {b : Byte} {record : Cfg → Cfg}
    (h : (Host.Outcome.next (finish 0 (configFlow b record s)) :
      Host.Outcome State Fault Refusal) = .next t)
    (hrec : ∀ c, (record c).addrmode = c.addrmode ∧ (record c).dispmode = c.dispmode) :
    SequenceRow .basic s t := by
  obtain rfl := Host.Outcome.next.inj h
  by_cases hc : s.ctrl = .basic
  · exact (configFrames_sends hc hrec).sequenceRow hc hc (configBase_later_ctrl record s) 5 fun _ => rfl
  · rw [finish_configFlow_refused b record hc]
    exact .inr (.inr (.inr ⟨rfl, rfl⟩))

theorem exec_power_row {i : Instr} {want next : CtrlState} {pd : Bool}
    (hi : exec i s = .next (finish 0 (powerFlow want next pd s))) (h : exec i s = .next t) :
    PowerRow want next s t := by
  by_cases hc : s.ctrl = want
  · by_cases ha : answersOk (frameActions s.params) s.env
    · obtain rfl := Host.Outcome.next.inj ((exec_power_ok hi hc ha).symm.trans h)
      exact .inl ⟨rfl, hc, rfl⟩
    · obtain ⟨u, hu, hst, hctrl, -⟩ := exec_power_fail hi hc ha
      obtain rfl := Host.Outcome.next.inj (hu.symm.trans h)
      exact .inr (.inl ⟨hst ▸ rfl, hc, hctrl⟩)
  · obtain rfl := Host.Outcome.next.inj ((exec_power_refused hi hc).symm.trans h)
    exact .inr (.inr ⟨rfl, rfl⟩)

theorem exec_reset_row (h : exec .reset s = .next t) :
    (resultStatus t.rslt = 0#8 ∧ t.ctrl = .inReset) ∨
      (resultStatus t.rslt = 2#8 ∧ t.ctrl = .uninitialized) := by
  by_cases ha : answersAre [true, true] s.env
  · obtain ⟨u, hu, hrow⟩ := exec_reset_ok ha
    obtain rfl := Host.Outcome.next.inj (hu.symm.trans h)
    exact .inl hrow
  · obtain ⟨u, hu, hrow⟩ := exec_reset_pinError ha
    obtain rfl := Host.Outcome.next.inj (hu.symm.trans h)
    exact .inr hrow

end

/-- Settles O34: a row for each operation that writes STATE, and the others are not among its writers
(`exec_kept`). -/
theorem stateTransitionsAsTabled : Obligations.StateTransitionsAsTabled := by
  refine ⟨fun p c s h => ?_, fun i s t _ h => ?_⟩
  · obtain rfl := Host.Outcome.next.inj h
    rfl
  · cases i with
    | reset => exact exec_reset_row h
    | init => exact exec_init_sequenceRow h
    | setContrast a | setBias a | setTc a =>
      exact configFlow_sequenceRow h fun _ => ⟨rfl, rfl⟩
    | pwrDown => exact exec_power_row (exec_pwrDown s) h
    | pwrUp => exact exec_power_row (exec_pwrUp s) h
    | _ => exact (exec_kept h).ctrl.resolve_left Bool.false_ne_true

end Sys2Proof.Machine
end
